-- ==== Sys2Proof/Word.lean ====
section
/-! DEFINITION. The word types of the block, and the type F of its floating-point values (00_scope R7, R8). -/

namespace Sys2Proof

/-- A 32-bit register or command word (00_scope R6, R7). -/
abbrev Word := BitVec 32

/-- A 16-bit field: a track index, a note index, a sample (00_scope R7). -/
abbrev Half := BitVec 16

/-- One byte of OUT (00_scope R7, 20_memory R60). -/
abbrev Byte := BitVec 8

/-- A value of F (00_scope R8): NaN, an infinity, or a finite number with its sign, so that `+0` and `-0`
differ. `mag` is the magnitude counted in units of 2^-1074, the smallest positive value of `binary64`. Every
finite value of both formats is a whole number of these units, so one number is written the same way in both. -/
inductive Fl where
  | nan
  | inf (neg : Bool)
  | fin (neg : Bool) (mag : Nat)
  deriving DecidableEq, Repr, Inhabited

/-- The magnitude of 1.0 is 2 to this power. Irreducible, so that no tactic evaluates a number of a thousand bits. -/
@[irreducible] def Fl.unitBit : Nat := 1074

/-- The magnitude of 1.0: how many units of 2^-1074 make one. -/
def Fl.unit : Nat := 2 ^ Fl.unitBit

/-- `+0.0`. -/
def Fl.zero : Fl := .fin false 0

/-- `+1.0`. -/
def Fl.one : Fl := .fin false Fl.unit

/-- `-1.0`. -/
def Fl.minusOne : Fl := .fin true Fl.unit

end Sys2Proof
end

