-- ==== Sys2Proof/Syntax.lean ====
section
/-! DEFINITION. The commands of `untz-cmd-1`, one constructor for each row of 30_encoding R83. -/

namespace Sys2Proof

/-- The 14 commands (30_encoding R83). `n` is the note index of the `IDX` field (30_encoding R82). -/
inductive Instr where
  | oscSine
  | oscSquare
  | oscSaw
  | mixDur
  | mixAlloc
  | mixGen (n : Nat)
  | mixMergeAdd
  | mixMergeOvr
  | mixNote (n : Nat)
  | mixAll
  | qntS
  | serBuild
  | serFlush
  | render
  deriving DecidableEq, Repr

end Sys2Proof
end

