-- ==== Sys2Proof/WellFormed.lean ====
section
/-! DEFINITION. Which commands have a word: the note index fits its 16-bit field (30_encoding R82). -/

namespace Sys2Proof

/-- The command can be written as a word: `IDX` is "an unsigned 16-bit note index n in 0 to 65535"
(30_encoding R82). The other commands carry no operand. -/
def Instr.wellFormed : Instr → Bool
  | .mixGen n => decide (n ≤ 65535)
  | .mixNote n => decide (n ≤ 65535)
  | .oscSine => true
  | .oscSquare => true
  | .oscSaw => true
  | .mixDur => true
  | .mixAlloc => true
  | .mixMergeAdd => true
  | .mixMergeOvr => true
  | .mixAll => true
  | .qntS => true
  | .serBuild => true
  | .serFlush => true
  | .render => true

end Sys2Proof
end

