-- ==== Sys2Proof/Decode.lean ====
section
/-! DEFINITION. Reading a command word and writing one (30_encoding R80 to R85). -/

namespace Sys2Proof

/-- `OP`, bits 31:24 (30_encoding R80). -/
def opField (w : Word) : BitVec 8 := w.extractLsb' 24 8

/-- `SUB`, bits 23:16 (30_encoding R80). -/
def subField (w : Word) : BitVec 8 := w.extractLsb' 16 8

/-- `IDX`, bits 15:0 (30_encoding R80, R82): used as it stands. -/
def idxField (w : Word) : Half := w.extractLsb' 0 16

/-- One row of the opcode map (30_encoding R83): a word selects it when `(w AND mask) = bits`. -/
structure OpRow where
  bits : Word
  mask : Word
  build : Half → Instr

/-- The word selects the row (30_encoding R83). -/
def OpRow.selects (r : OpRow) (w : Word) : Bool := w &&& r.mask == r.bits

/-- The opcode map (30_encoding R83), in the table's order. -/
def opRows : List OpRow :=
  [ ⟨0x10000000, 0xFFFFFFFF, fun _ => .oscSine⟩,
    ⟨0x10010000, 0xFFFFFFFF, fun _ => .oscSquare⟩,
    ⟨0x10020000, 0xFFFFFFFF, fun _ => .oscSaw⟩,
    ⟨0x20000000, 0xFFFFFFFF, fun _ => .mixDur⟩,
    ⟨0x21000000, 0xFFFFFFFF, fun _ => .mixAlloc⟩,
    ⟨0x22000000, 0xFFFF0000, fun n => .mixGen n.toNat⟩,
    ⟨0x23000000, 0xFFFFFFFF, fun _ => .mixMergeAdd⟩,
    ⟨0x23010000, 0xFFFFFFFF, fun _ => .mixMergeOvr⟩,
    ⟨0x24000000, 0xFFFF0000, fun n => .mixNote n.toNat⟩,
    ⟨0x25000000, 0xFFFFFFFF, fun _ => .mixAll⟩,
    ⟨0x30000000, 0xFFFFFFFF, fun _ => .qntS⟩,
    ⟨0x40000000, 0xFFFFFFFF, fun _ => .serBuild⟩,
    ⟨0x41000000, 0xFFFFFFFF, fun _ => .serFlush⟩,
    ⟨0x50000000, 0xFFFFFFFF, fun _ => .render⟩ ]

/-- Why a word selects no row: the classes of illegal words 30_encoding R84 lists. -/
inductive Illegal where
  /-- `OP` is no assigned opcode. -/
  | unassignedOp
  /-- `OP` = 0x10 with `SUB` ≥ 3: an instrument outside the closed set. -/
  | noInstrument
  /-- `OP` = 0x23 with `SUB` ≥ 2: no combine rule. -/
  | noCombineRule
  /-- A non-zero `SUB` in a C0 or CI row. -/
  | subNotZero
  /-- A non-zero `IDX` in a C0 or CS row. -/
  | idxNotZero
  deriving DecidableEq, Repr

/-- The opcodes of 30_encoding R83. -/
def assignedOps : List (BitVec 8) := [0x10, 0x20, 0x21, 0x22, 0x23, 0x24, 0x25, 0x30, 0x40, 0x41, 0x50]

/-- The class of an illegal word (30_encoding R84). The block's answer is the same for all of them. -/
def whyIllegal (w : Word) : Illegal :=
  if ¬ opField w ∈ assignedOps then .unassignedOp
  else if opField w = 0x10 then (if subField w < 3 then .idxNotZero else .noInstrument)
  else if opField w = 0x23 then (if subField w < 2 then .idxNotZero else .noCombineRule)
  else if subField w ≠ 0 then .subNotZero
  else .idxNotZero

/-- Decoding reads the word alone (30_encoding R85): the row it selects, or the class of its illegality. -/
def decode (w : Word) : Except Illegal Instr :=
  match opRows.find? (fun r => r.selects w) with
  | some r => .ok (r.build (idxField w))
  | none => .error (whyIllegal w)

/-- The `OP` column of 30_encoding R83. -/
def opOf : Instr → BitVec 8
  | .oscSine => 0x10
  | .oscSquare => 0x10
  | .oscSaw => 0x10
  | .mixDur => 0x20
  | .mixAlloc => 0x21
  | .mixGen _ => 0x22
  | .mixMergeAdd => 0x23
  | .mixMergeOvr => 0x23
  | .mixNote _ => 0x24
  | .mixAll => 0x25
  | .qntS => 0x30
  | .serBuild => 0x40
  | .serFlush => 0x41
  | .render => 0x50

/-- The `SUB` column of 30_encoding R83: the instrument code, the combine rule, or 0. -/
def subOf : Instr → BitVec 8
  | .oscSine => 0x00
  | .oscSquare => 0x01
  | .oscSaw => 0x02
  | .mixDur => 0
  | .mixAlloc => 0
  | .mixGen _ => 0
  | .mixMergeAdd => 0x00
  | .mixMergeOvr => 0x01
  | .mixNote _ => 0
  | .mixAll => 0
  | .qntS => 0
  | .serBuild => 0
  | .serFlush => 0
  | .render => 0

/-- The `IDX` column of 30_encoding R83: the note index, or 0. -/
def idxOf : Instr → Half
  | .mixGen n => BitVec.ofNat 16 n
  | .mixNote n => BitVec.ofNat 16 n
  | .oscSine => 0
  | .oscSquare => 0
  | .oscSaw => 0
  | .mixDur => 0
  | .mixAlloc => 0
  | .mixMergeAdd => 0
  | .mixMergeOvr => 0
  | .mixAll => 0
  | .qntS => 0
  | .serBuild => 0
  | .serFlush => 0
  | .render => 0

/-- The command word `OP[31:24] SUB[23:16] IDX[15:0]` (30_encoding R80). -/
def encode (i : Instr) : Word := opOf i ++ subOf i ++ idxOf i

/-- The command the decoder reads from the low `nbits` bits of `w`, the bits above them 0. A command is one 32-bit
word (30_encoding R80), so nothing longer is one. -/
def decodeTableWord (nbits w : Nat) : Option Instr :=
  if nbits ≤ 32 then (decode (BitVec.ofNat 32 (w % 2 ^ nbits))).toOption else none

end Sys2Proof
end

