-- ==== Sys2Proof/Config.lean ====
section
/-! DEFINITION. What an implementation fixes (00_scope R6, R10) and the free values of the model. Everything that
is open in spec/ stands behind an `opaque` constant with no body, so that a proof holds for every choice. -/

namespace Sys2Proof

/-- `FLOAT_FMT` (00_scope R6): the format of every value the document calls "float". -/
inductive FloatFmt where
  | binary32
  | binary64
  deriving DecidableEq, Repr, Inhabited

/-- The open parameters of 00_scope R6. The field types carry the ranges of R6; `MAX_TRACKS`, `MAX_NOTES` and
`OUT_MAX` are read through the functions below. Nothing in this structure changes while the block runs
(10_state R46). -/
structure Config where
  /-- `FLOAT_FMT`. -/
  floatFmt : FloatFmt
  /-- The sine function before the laws L1 and L2 of R10 are imposed on it (`sinOf` in Machine/Float.lean). -/
  sinRaw : Fl → Fl
  /-- `MAX_TRACKS - 1`. -/
  tracksLessOne : BitVec 16
  /-- `MAX_NOTES - 1`. -/
  notesLessOne : BitVec 16
  /-- `ACC_MAX`. -/
  accMaxWord : BitVec 32
  /-- `LOC_MAX`. -/
  locMaxWord : BitVec 32
  /-- `OUT_MAX - 44`, from 0 to 2^32 + 7 - 44. -/
  outBeyondHeader : Fin 4294967260
  deriving Inhabited

/-- `MAX_TRACKS`, 1 to 65536 (00_scope R6). -/
def Config.maxTracks (c : Config) : Nat := c.tracksLessOne.toNat + 1

/-- `MAX_NOTES`, 1 to 65536 (00_scope R6). -/
def Config.maxNotes (c : Config) : Nat := c.notesLessOne.toNat + 1

/-- `ACC_MAX`, 0 to 2^32 - 1 (00_scope R6). -/
def Config.accMax (c : Config) : Nat := c.accMaxWord.toNat

/-- `LOC_MAX`, 0 to 2^32 - 1 (00_scope R6). -/
def Config.locMax (c : Config) : Nat := c.locMaxWord.toNat

/-- `OUT_MAX`, 44 to 2^32 + 7 (00_scope R6). -/
def Config.outMax (c : Config) : Nat := c.outBeyondHeader.val + 44

/-- The configuration of the block at hand: any one whatever (log entries 1, 2, 5). -/
opaque Config.this : Config

/-! ### Free values

`Config.after…` are the unspecified contents after a fatal fault (10_state R44, 60_exceptions R206, log entry 3);
their arguments are the count of earlier draws and the RESULT word of the fault. `Config.blank…` are the table
entries not written since reset (10_state R31, R32, R47, log entry 4); their first argument counts the resets. -/

/-- ACC after a fatal fault. -/
opaque Config.afterAcc : Nat → Word → List Fl

/-- LOC after a fatal fault. -/
opaque Config.afterLoc : Nat → Word → List Fl

/-- OUT after a fatal fault. -/
opaque Config.afterOut : Nat → Word → List Byte

/-- TOTDUR after a fatal fault. -/
opaque Config.afterTotdur : Nat → Word → Fl

/-- OSC_OUT after a fatal fault. -/
opaque Config.afterOscOut : Nat → Word → Fl

/-- QNT_OUT after a fatal fault. -/
opaque Config.afterQntOut : Nat → Word → Word

/-- What ACC_PEEK and LOC_PEEK return while FATAL is set (10_state R40); the last two arguments are the register
number and BUF_IDX. -/
opaque Config.afterPeek : Nat → Nat → Nat → Fl

/-- What OUT_PEEK returns while FATAL is set (10_state R40); the last argument is BUF_IDX. -/
opaque Config.afterOutPeek : Nat → Nat → Word

/-- The instrument code of a TRK entry not written since reset; the arguments are the reset count and j. -/
opaque Config.blankTrk : Nat → Nat → BitVec 2

/-- The `track` field of a NOTE entry not written since reset; the arguments are the reset count and n. -/
opaque Config.blankTrack : Nat → Nat → Half

/-- An F field of a NOTE entry not written since reset; the arguments are the reset count, n and the field code. -/
opaque Config.blankField : Nat → Nat → Nat → Fl

/-- The answer of the sink to a write for which the host has queued none (43_serializer R175, log entry 7); the
argument counts the sink writes made before. `true` is `ok`. -/
opaque Config.sinkAnswer : Nat → Bool

end Sys2Proof
end

