-- ==== Sys2Proof/Machine/State.lean ====
section
/-! DEFINITION. The state of the block (10_state), its result codes, the host transactions it answers, and the state
right after reset (10_state R47). -/

namespace Sys2Proof.Machine

/-- The result codes 0 to 8 (60_exceptions R200). -/
inductive ResultCode where
  | ok
  | io
  | mergeLen
  | bounds
  | illegal
  | config
  | desc
  | capacity
  | numeric
  deriving DecidableEq, Repr

/-- The phases of the sequencer (44_render R191). -/
inductive Phase where
  | idle
  | dur
  | alloc
  | mix
  | build
  | flush
  deriving DecidableEq, Repr

/-- The sequencer position `pc = (phase, n, i)` (10_state R23). -/
structure SeqPos where
  phase : Phase
  n : Nat
  i : Nat
  deriving DecidableEq, Repr

/-- `(IDLE, 0, 0)`, the position between commands (10_state R23). -/
def SeqPos.idle : SeqPos := ⟨.idle, 0, 0⟩

/-- A sparse table: the entries the host has written since reset, as (key, value) pairs with rising keys. -/
abbrev Table (α : Type) := List (Nat × α)

/-- The TRK table and the five fields of the NOTE table, each keyed by its entry's index (10_state R31, R32). -/
structure SongStore where
  /-- `TRK[j]`, 2 bits. -/
  trk : Table (BitVec 2)
  /-- `NOTE[n].track`, field code 0. -/
  track : Table Half
  /-- `NOTE[n].freq`, field code 1. -/
  freq : Table Fl
  /-- `NOTE[n].vol`, field code 2. -/
  vol : Table Fl
  /-- `NOTE[n].start`, field code 3. -/
  start : Table Fl
  /-- `NOTE[n].dur`, field code 4. -/
  dur : Table Fl
  deriving DecidableEq, Repr

/-- The five fields of one note as a command reads them (10_state R32). -/
structure Note where
  track : Half
  freq : Fl
  vol : Fl
  start : Fl
  dur : Fl
  deriving DecidableEq, Repr

/-- One value a read hands to the host: a 32-bit integer, or a value of F (10_state R22). -/
inductive PortVal where
  | word (w : Word)
  | float (x : Fl)
  deriving DecidableEq, Repr

/-- One host transaction (10_state R22, 20_memory R62, 70_reset R230). `bits` is what stands on the wire of a write:
an integer register takes bits 31:0, an F register the low `FW` bits as the interchange encoding. -/
inductive Txn where
  | regRead (number : Nat)
  | regWrite (number : Nat) (bits : BitVec 64)
  | songRead (addr : BitVec 20)
  | songWrite (addr : BitVec 20) (bits : BitVec 64)
  | reset
  deriving DecidableEq, Repr

/-- One `SinkWrite`: the bytes handed over and the answer (43_serializer R175). -/
structure SinkWrite where
  bytes : List Byte
  ok : Bool
  deriving DecidableEq, Repr

/-- The block's surroundings, and the model's own counters. None of it is state of the block (log entries 3, 4, 6, 7). -/
structure Env where
  /-- The host transactions not yet performed, oldest first. -/
  host : List Txn
  /-- The values reads have handed to the host, newest first. -/
  reads : List PortVal
  /-- The answers the sink will give, next first; `true` is `ok`. When none is left the answer is free. -/
  sinkAnswers : List Bool
  /-- What the sink has been handed, oldest first. -/
  sinkLog : List SinkWrite
  /-- How many resets there have been. -/
  epoch : Nat
  /-- How many fatal faults have drawn free values. -/
  draws : Nat
  deriving DecidableEq, Repr

/-- The state of the block (10_state R20, R21). `ACC_LEN`, `LOC_LEN` and `OUT_LEN` are the lengths of `acc`, `loc`
and `out`; the PEEK registers are views; `CMD` stores nothing. -/
@[ext]
structure State where
  /-- `STATUS` (R25): RV bit 0, FATAL bit 1, CLAMPED bit 2, DISCARD bit 3. -/
  status : Word
  /-- `RESULT` (R26): CODE bits 7:0, DV bit 8. -/
  result : Word
  /-- `DIAG` (R27): NOTE bits 15:0, TRACK bits 31:16. -/
  diag : Word
  /-- `SRATE` (R28). -/
  srate : Word
  /-- `CHMODE` (R29). -/
  chmode : Word
  /-- `FMT` (R34), the container format selector. -/
  fmt : Word
  /-- `NTRACKS` (R33). -/
  ntracks : Word
  /-- `NNOTES` (R33). -/
  nnotes : Word
  /-- `TOTDUR` (R35). -/
  totdur : Fl
  /-- `MRG_START` (R37). -/
  mrgStart : Word
  /-- `MRG_LEN` (R37). -/
  mrgLen : Word
  /-- `OSC_T` (R38). -/
  oscT : Fl
  /-- `OSC_FREQ` (R38). -/
  oscFreq : Fl
  /-- `OSC_OUT` (R38). -/
  oscOut : Fl
  /-- `QNT_IN` (R39). -/
  qntIn : Fl
  /-- `QNT_OUT` (R39). -/
  qntOut : Word
  /-- `BUF_IDX` (R40). -/
  bufIdx : Word
  /-- The TRK and NOTE tables (R30 to R32). -/
  song : SongStore
  /-- ACC (R41): its live elements. -/
  acc : List Fl
  /-- LOC (R42): its live elements. -/
  loc : List Fl
  /-- `LOC_NOTE` (R42), hidden. -/
  locNote : Half
  /-- `LOC_TRACK` (R42), hidden. -/
  locTrack : Half
  /-- OUT (R43): the bytes below the cursor. -/
  out : List Byte
  /-- The sequencer position (R23). -/
  pc : SeqPos
  /-- The surroundings (log entry 6). -/
  env : Env
  deriving DecidableEq, Repr

/-- What can stop the machine without a next state: nothing. Every fault of the block is a result code that a command
completes with (60_exceptions R203, R204), which is a next state. -/
inductive Fault where
  deriving DecidableEq, Repr

/-- What the model refuses. -/
inductive Refusal where
  /-- Raised by an arm of `exec` whose command has no meaning yet. Safe: the model stops where the block goes on. No
  arm raises it. -/
  | notModelled (mnemonic : String)
  deriving DecidableEq, Repr

/-- Surroundings in which the host has done nothing yet (log entries 3, 4, 6, 7). -/
def Env.reset : Env :=
  { host := [], reads := [], sinkAnswers := [], sinkLog := [], epoch := 0, draws := 0 }

/-- The song store right after reset: no entry written, every entry unspecified (10_state R47). -/
def SongStore.reset : SongStore :=
  { trk := [], track := [], freq := [], vol := [], start := [], dur := [] }

/-- The block right after reset (10_state R47): registers 0 or `+0.0`, buffers empty, the song empty. -/
def State.reset : State :=
  { status := 0, result := 0, diag := 0, srate := 0, chmode := 0, fmt := 0, ntracks := 0, nnotes := 0,
    totdur := Fl.zero, mrgStart := 0, mrgLen := 0, oscT := Fl.zero, oscFreq := Fl.zero, oscOut := Fl.zero,
    qntIn := Fl.zero, qntOut := 0, bufIdx := 0, song := SongStore.reset, acc := [], loc := [], locNote := 0,
    locTrack := 0, out := [], pc := SeqPos.idle, env := Env.reset }

end Sys2Proof.Machine
end

