-- ==== Sys2Proof/Machine/Flags.lean ====
section
/-! DEFINITION. The bits of STATUS, RESULT and DIAG (10_state R25 to R27) and how each flag is computed. -/

namespace Sys2Proof.Machine

/-- `RV`, result valid, bit 0 of STATUS (10_state R25). -/
def flagRV : Word := 0x1

/-- `FATAL`, bit 1 of STATUS (10_state R25). -/
def flagFatal : Word := 0x2

/-- `CLAMPED`, bit 2 of STATUS (10_state R25). -/
def flagClamped : Word := 0x4

/-- `DISCARD`, bit 3 of STATUS (10_state R25). -/
def flagDiscard : Word := 0x8

/-- The W1C bits of STATUS: RV, CLAMPED, DISCARD (10_state R25). -/
def w1cBits : Word := 0xD

/-- `x[STATUS].RV`. -/
def State.rv (s : State) : Bool := s.status.getLsbD 0

/-- `x[STATUS].FATAL`. -/
def State.fatal (s : State) : Bool := s.status.getLsbD 1

/-- `x[STATUS].CLAMPED`. -/
def State.clamped (s : State) : Bool := s.status.getLsbD 2

/-- `x[STATUS].DISCARD`. -/
def State.discard (s : State) : Bool := s.status.getLsbD 3

/-- A host write of STATUS "clears every bit whose written value is 1 and leaves the others", for the W1C bits alone
(10_state R21, R25). -/
def clearW1C (status written : Word) : Word := status &&& ~~~(written &&& w1cBits)

/-- The code of a result (60_exceptions R200). -/
def codeBits : ResultCode → BitVec 8
  | .ok => 0
  | .io => 1
  | .mergeLen => 2
  | .bounds => 3
  | .illegal => 4
  | .config => 5
  | .desc => 6
  | .capacity => 7
  | .numeric => 8

/-- The class of a result is fatal: every fault but `E_IO` (60_exceptions R200 to R202). -/
def isFatal : ResultCode → Bool
  | .ok => false
  | .io => false
  | .mergeLen => true
  | .bounds => true
  | .illegal => true
  | .config => true
  | .desc => true
  | .capacity => true
  | .numeric => true

/-- RESULT with `CODE` in bits 7:0 and `DV` in bit 8, bits 31:9 zero (10_state R26). -/
def resultWord (code : ResultCode) (dv : Bool) : Word :=
  (codeBits code).setWidth 32 ||| (if dv then 0x100 else 0)

/-- DIAG with `NOTE` in bits 15:0 and `TRACK` in bits 31:16 (10_state R27, 60_exceptions R203). -/
def diagWord (track note : Nat) : Word := BitVec.ofNat 16 track ++ BitVec.ofNat 16 note

/-- STATUS after the completion of a command (60_exceptions R204 (2), (3)). -/
def statusAfter (status : Word) (code : ResultCode) : Word :=
  (if isFatal code then status ||| flagFatal else status) ||| flagRV

end Sys2Proof.Machine
end

