-- ==== Sys2Proof/Machine/Float.lean ====
section
/-! DEFINITION. The arithmetic of F (00_scope R8, R9), the sine parameter and 2π (R10), and the interchange encoding in
which a write brings a value of F (10_state R22). Every operation computes its exact result as a whole number or a
fraction of the units of `Fl` and rounds it once, to the nearest value of the format, ties to even (log entry 1). -/

namespace Sys2Proof.Machine

/-- `P`, the significand precision (00_scope R6). -/
def prec : FloatFmt → Nat
  | .binary32 => 24
  | .binary64 => 53

/-- The width of the exponent field of the interchange encoding. -/
def expBits : FloatFmt → Nat
  | .binary32 => 8
  | .binary64 => 11

/-- The smallest positive value of the format is 2 to this power, in units of 2^-1074: 2^-149 or 2^-1074. -/
def quantum : FloatFmt → Nat
  | .binary32 => 925
  | .binary64 => 0

/-- Magnitudes from 2 to this power on are out of range, in units of 2^-1074: 2^128 or 2^1024. -/
def rangeBit : FloatFmt → Nat
  | .binary32 => 1202
  | .binary64 => 2098

/-- The last place of a magnitude near `m`: values of the format there are the multiples of 2 to this power. -/
def ulpBit (f : FloatFmt) (m : Nat) : Nat := max (quantum f) (m.log2 + 1 - prec f)

/-- The fraction `num / den` of units rounded to the format's precision: nearest, ties to even (00_scope R8). -/
def roundMag (f : FloatFmt) (num den : Nat) : Nat :=
  let step := 2 ^ ulpBit f (num / den)
  let q := num / (den * step)
  let r := num % (den * step)
  (if den * step < 2 * r ∨ (2 * r = den * step ∧ q % 2 = 1) then q + 1 else q) * step

/-- A rounded magnitude with its sign; "a result too large becomes ±inf" (00_scope R8). -/
def pack (f : FloatFmt) (neg : Bool) (m : Nat) : Fl := if m < 2 ^ rangeBit f then .fin neg m else .inf neg

/-- The exact value of a finite number, in units. -/
def signed (neg : Bool) (m : Nat) : Int := if neg then -(m : Int) else (m : Int)

/-- An exact whole number of units, rounded; `zeroNeg` is the sign an exact zero takes. -/
def roundInt (f : FloatFmt) (zeroNeg : Bool) (v : Int) : Fl :=
  if v = 0 then .fin zeroNeg 0 else pack f (decide (v < 0)) (roundMag f v.natAbs 1)

/-- The value is in the set F of the format (00_scope R8). -/
def inF (f : FloatFmt) : Fl → Bool
  | .fin _ m => decide (m < 2 ^ rangeBit f ∧ m % 2 ^ ulpBit f m = 0)
  | .inf _ => true
  | .nan => true

/-- The nearest value of F; a value of F is left as it is. -/
def fit (f : FloatFmt) : Fl → Fl
  | .fin s m => pack f s (roundMag f m 1)
  | .inf s => .inf s
  | .nan => .nan

/-- Sign change, exact. -/
def fneg : Fl → Fl
  | .fin s m => .fin (!s) m
  | .inf s => .inf (!s)
  | .nan => .nan

/-- `fadd` (00_scope R8). An exact zero is `+0` unless both sides are negative zeros. -/
def fadd (f : FloatFmt) : Fl → Fl → Fl
  | .fin s m, .fin t n => roundInt f (s && t) (signed s m + signed t n)
  | .inf s, .inf t => if s = t then .inf s else .nan
  | .inf s, .fin _ _ => .inf s
  | .fin _ _, .inf t => .inf t
  | .nan, _ => .nan
  | _, .nan => .nan

/-- `fsub` (00_scope R8). -/
def fsub (f : FloatFmt) (a b : Fl) : Fl := fadd f a (fneg b)

/-- `fmul` (00_scope R8). -/
def fmul (f : FloatFmt) : Fl → Fl → Fl
  | .fin s m, .fin t n => pack f (s != t) (roundMag f (m * n) Fl.unit)
  | .inf s, .inf t => .inf (s != t)
  | .inf s, .fin t n => if n = 0 then .nan else .inf (s != t)
  | .fin s m, .inf t => if m = 0 then .nan else .inf (s != t)
  | .nan, _ => .nan
  | _, .nan => .nan

/-- `fdiv` (00_scope R8). A finite non-zero number over a zero is an infinity; no rule divides by zero (00_scope
R15 (c)). -/
def fdiv (f : FloatFmt) : Fl → Fl → Fl
  | .fin s m, .fin t n =>
    if n = 0 then (if m = 0 then .nan else .inf (s != t)) else pack f (s != t) (roundMag f (m * Fl.unit) n)
  | .inf _, .inf _ => .nan
  | .inf s, .fin t _ => .inf (s != t)
  | .fin s _, .inf t => .fin (s != t) 0
  | .nan, _ => .nan
  | _, .nan => .nan

/-- `ffloor` (00_scope R8): the largest integer at or below, exact. -/
def ffloor : Fl → Fl
  | .fin false m => .fin false (m / Fl.unit * Fl.unit)
  | .fin true m => if m % Fl.unit = 0 then .fin true m else .fin true ((m / Fl.unit + 1) * Fl.unit)
  | .inf s => .inf s
  | .nan => .nan

/-- `fceil` (00_scope R8): the smallest integer at or above, exact. -/
def fceil : Fl → Fl
  | .fin false m => if m % Fl.unit = 0 then .fin false m else .fin false ((m / Fl.unit + 1) * Fl.unit)
  | .fin true m => .fin true (m / Fl.unit * Fl.unit)
  | .inf s => .inf s
  | .nan => .nan

/-- `ffrac(x) = fsub(x, ffloor(x))` (00_scope R8). -/
def ffrac (f : FloatFmt) (x : Fl) : Fl := fsub f x (ffloor x)

/-- `finite(x)` (00_scope R8). -/
def finite : Fl → Bool
  | .fin _ _ => true
  | .inf _ => false
  | .nan => false

/-- `isnan(x)` (00_scope R8). -/
def isnan : Fl → Bool
  | .nan => true
  | .fin _ _ => false
  | .inf _ => false

/-- `a < b` (00_scope R8): numeric, false when either side is NaN. -/
def flt : Fl → Fl → Bool
  | .fin s m, .fin t n => decide (signed s m < signed t n)
  | .inf s, .inf t => s && !t
  | .inf s, .fin _ _ => s
  | .fin _ _, .inf t => !t
  | .nan, _ => false
  | _, .nan => false

/-- `a ≤ b` (00_scope R8): numeric, false when either side is NaN. -/
def fle : Fl → Fl → Bool
  | .fin s m, .fin t n => decide (signed s m ≤ signed t n)
  | .inf s, .inf t => s || !t
  | .inf s, .fin _ _ => s
  | .fin _ _, .inf t => !t
  | .nan, _ => false
  | _, .nan => false

/-- `fmax(a, b)` (00_scope R8). -/
def fmax (a b : Fl) : Fl := if flt a b then b else a

/-- `parity(x)` is odd (00_scope R8), for finite x with an integer value of any size. -/
def odd : Fl → Bool
  | .fin _ m => decide (m / Fl.unit % 2 = 1)
  | .inf _ => false
  | .nan => false

/-- `toF(n)` (00_scope R9). -/
def toF (f : FloatFmt) (n : Nat) : Fl := pack f false (roundMag f (n * Fl.unit) 1)

/-- `toNat(x)` (00_scope R9), for finite x ≥ 0 with an integer value. -/
def toNat : Fl → Nat
  | .fin _ m => m / Fl.unit
  | .inf _ => 0
  | .nan => 0

/-- `toInt(x)` (00_scope R9), for finite x with an integer value. -/
def toInt : Fl → Int
  | .fin s m => signed s (m / Fl.unit)
  | .inf _ => 0
  | .nan => 0

/-- The value of the interchange encoding in the low `FW` bits of a wire word (10_state R22). -/
def ofBits (f : FloatFmt) (w : BitVec 64) : Fl :=
  let fracBits := prec f - 1
  let frac := w.toNat % 2 ^ fracBits
  let e := w.toNat / 2 ^ fracBits % 2 ^ expBits f
  let neg := decide (w.toNat / 2 ^ (fracBits + expBits f) % 2 = 1)
  if e = 2 ^ expBits f - 1 then (if frac = 0 then .inf neg else .nan)
  else if e = 0 then .fin neg (frac * 2 ^ quantum f)
  else .fin neg ((2 ^ fracBits + frac) * 2 ^ (e - 1) * 2 ^ quantum f)

/-- `TWO_PI`, the F value nearest 2π (00_scope R10), by the bit patterns the rule gives. -/
def twoPi : FloatFmt → Fl
  | .binary32 => ofBits .binary32 0x40C90FDB
  | .binary64 => ofBits .binary64 0x401921FB54442D18

/-- `SIN` (00_scope R10): the open function of the configuration held to the laws L1 (a zero at a zero, `+0` at `+0`)
and L2 (finite, in F and in [-1, 1] at every finite argument). A function that obeys them is left as it is. -/
def sinOf (c : Config) : Fl → Fl
  | .fin s m =>
    if m = 0 then
      (if s then (match c.sinRaw (.fin true 0) with
        | .fin t 0 => .fin t 0
        | _ => .fin true 0)
      else .fin false 0)
    else
      (match c.sinRaw (.fin s m) with
      | .fin t k => if inF c.floatFmt (.fin t k) ∧ k ≤ Fl.unit then .fin t k else .fin false 0
      | _ => .fin false 0)
  | .inf s => fit c.floatFmt (c.sinRaw (.inf s))
  | .nan => fit c.floatFmt (c.sinRaw .nan)

end Sys2Proof.Machine
end

