-- ==== Sys2Proof/Machine/Ops.lean ====
section
/-! DEFINITION. The named operations every meaning is built from: updates of the state, tables and buffers, byte
sequences (00_scope R13), raising a fault and completing a command (60_exceptions R203, R204), the acknowledge and
reset that return from one (60_exceptions R207, 70_reset R230), and the sink (43_serializer R175). -/

namespace Sys2Proof.Machine

variable {α : Type}

/-! ### Updates -/

def State.setStatus (s : State) (v : Word) : State := { s with status := v }
def State.setResult (s : State) (v : Word) : State := { s with result := v }
def State.setDiag (s : State) (v : Word) : State := { s with diag := v }
def State.setTotdur (s : State) (v : Fl) : State := { s with totdur := v }
def State.setOscOut (s : State) (v : Fl) : State := { s with oscOut := v }
def State.setQntOut (s : State) (v : Word) : State := { s with qntOut := v }
/-- `ACC` and with it `ACC_LEN`. -/
def State.setAcc (s : State) (v : List Fl) : State := { s with acc := v }
/-- `LOC` and with it `LOC_LEN`, and where LOC came from (10_state R42). -/
def State.setLoc (s : State) (v : List Fl) (note track : Half) : State :=
  { s with loc := v, locNote := note, locTrack := track }
/-- `OUT` and with it the cursor `OUT_LEN`. -/
def State.setOut (s : State) (v : List Byte) : State := { s with out := v }
def State.setPc (s : State) (v : SeqPos) : State := { s with pc := v }
def State.setEnv (s : State) (v : Env) : State := { s with env := v }

/-- `pc <- (phase, 0, 0)` (44_render R190, R191). The loop counters inside a phase are not written back: commands are
atomic for the host (10_state R23, log entry 11). -/
def State.enter (s : State) (p : Phase) : State := s.setPc ⟨p, 0, 0⟩

/-- Setting flags of STATUS. -/
def State.raiseFlag (s : State) (flags : Word) : State := s.setStatus (s.status ||| flags)

/-! ### Tables (10_state R31, R32) -/

/-- The entry at a key, if the host has written it since reset. -/
def tableGet : Table α → Nat → Option α
  | [], _ => none
  | (a, v) :: t, k => if k = a then some v else tableGet t k

/-- Writing the entry at a key keeps the keys rising. -/
def tableSet : Table α → Nat → α → Table α
  | [], k, v => [(k, v)]
  | (a, w) :: t, k, v =>
    if k < a then (k, v) :: (a, w) :: t
    else if k = a then (k, v) :: t
    else (a, w) :: tableSet t k v

/-- The canonical form of a table: keys strictly rising, so that equal contents are equal lists. -/
abbrev TableWf (t : Table α) : Prop := (t.map Prod.fst).Pairwise (· < ·)

/-! ### Buffers (00_scope R12) -/

/-- `MemRead(SPACE, a, n)`: n consecutive elements from element address a on. -/
def memRead (space : List α) (a n : Nat) : List α := (space.drop a).take n

/-- `MemWrite(SPACE, a, n, v)`: the elements of v from element address a on. -/
def memWrite (space : List α) (a : Nat) (v : List α) : List α := space.take a ++ v ++ space.drop (a + v.length)

/-! ### Byte sequences (00_scope R13) -/

/-- `le16(v)`: low byte first. -/
def le16 (v : BitVec 16) : List Byte := [v.extractLsb' 0 8, v.extractLsb' 8 8]

/-- `le32(v)`: low byte first. -/
def le32 (v : BitVec 32) : List Byte :=
  [v.extractLsb' 0 8, v.extractLsb' 8 8, v.extractLsb' 16 8, v.extractLsb' 24 8]

/-- `le16s(v) = le16(v mod 2^16)`, the two's-complement pattern of a sample. -/
def le16s (v : Int) : List Byte := le16 (BitVec.ofInt 16 v)

/-- `"RIFF"`. -/
def tagRIFF : List Byte := [0x52, 0x49, 0x46, 0x46]

/-- `"WAVE"`. -/
def tagWAVE : List Byte := [0x57, 0x41, 0x56, 0x45]

/-- `"fmt "`, the fourth character a space. -/
def tagFmt : List Byte := [0x66, 0x6D, 0x74, 0x20]

/-- `"data"`. -/
def tagData : List Byte := [0x64, 0x61, 0x74, 0x61]

/-! ### Raising and completing (60_exceptions R203, R204) -/

/-- The arguments of `raise E_X(dv, track, note)`: `diag` is `none` for dv = 0, and the track and note for dv = 1. -/
structure Raise where
  code : ResultCode
  diag : Option (Nat × Nat)
  deriving DecidableEq, Repr

/-- How the pseudocode of a command ended: the result code, whether it wrote DIAG, and the state it left. -/
structure CmdEnd where
  code : ResultCode
  wroteDiag : Bool
  state : State
  deriving DecidableEq, Repr

/-- A command that came to its end without a fault and without writing DIAG. -/
def endOk (s : State) : CmdEnd := ⟨.ok, false, s⟩

/-- `raise E_X(dv, track, note)` in state s (60_exceptions R203): DIAG is written when dv = 1, and the command ends. -/
def raiseEnd (s : State) (r : Raise) : CmdEnd :=
  match r.diag with
  | none => ⟨r.code, false, s⟩
  | some (track, note) => ⟨r.code, true, s.setDiag (diagWord track note)⟩

/-- The rest of a command after a computation that may raise: nothing after a `raise` happens (00_scope R12). -/
def orRaise (s : State) (x : Except Raise α) (rest : α → CmdEnd) : CmdEnd :=
  match x with
  | .ok a => rest a
  | .error r => raiseEnd s r

/-- One part of a command after another: the first fault ends the command; DIAG written by either part counts. -/
def andThen (e : CmdEnd) (rest : State → CmdEnd) : CmdEnd :=
  if e.code = .ok then ⟨(rest e.state).code, e.wroteDiag || (rest e.state).wroteDiag, (rest e.state).state⟩ else e

/-- A test a rule makes before it goes on. -/
def require (test : Bool) (r : Raise) : Except Raise Unit := if test then .ok () else .error r

/-- A value a helper function gives, or the raise its caller makes of a helper's `raise` without arguments
(60_exceptions R203). -/
def orElseRaise (x : Option α) (r : Raise) : Except Raise α :=
  match x with
  | some a => .ok a
  | none => .error r

/-- A computation that may raise, over a list from its head on: the first raise ends it. -/
def mapRaise {β : Type} (g : β → Except Raise α) : List β → Except Raise (List α)
  | [] => .ok []
  | b :: bs => do
    let a ← g b
    let as ← mapRaise g bs
    pure (a :: as)

/-- What a fatal fault leaves unspecified (10_state R44, 60_exceptions R206): ACC, LOC, OUT with their lengths, TOTDUR,
OSC_OUT and QNT_OUT take free values. -/
def State.scramble (c : Config) (s : State) : State :=
  { s with
    acc := (Config.afterAcc s.env.draws s.result).map (fit c.floatFmt)
    loc := (Config.afterLoc s.env.draws s.result).map (fit c.floatFmt)
    out := Config.afterOut s.env.draws s.result
    totdur := fit c.floatFmt (Config.afterTotdur s.env.draws s.result)
    oscOut := fit c.floatFmt (Config.afterOscOut s.env.draws s.result)
    qntOut := Config.afterQntOut s.env.draws s.result
    env := { s.env with draws := s.env.draws + 1 } }

/-- Completion of an executed command, the block's whole "trap entry" (60_exceptions R204): RESULT is written, a fatal
code sets FATAL and leaves the buffers unspecified, RV is set, and the sequencer is idle again. -/
def complete (c : Config) (e : CmdEnd) : State :=
  let s := e.state.setResult (resultWord e.code e.wroteDiag)
  let s := if isFatal e.code then s.scramble c else s
  (s.setStatus (statusAfter s.status e.code)).setPc SeqPos.idle

/-- A host write of STATUS: the acknowledge of a result when bit 0 is written 1 (60_exceptions R207), the clearing of
the sticky flags when bits 2 and 3 are. -/
def writeStatus (s : State) (written : Word) : State := s.setStatus (clearW1C s.status written)

/-- The reset event (70_reset R230): every piece of state takes its value of 10_state R47; the surroundings go on. -/
def resetEvent (s : State) : State := State.reset.setEnv { s.env with epoch := s.env.epoch + 1 }

/-! ### The sink (43_serializer R175) -/

/-- The answer the sink gives next: an input of the step. -/
def nextAnswer (s : State) : Bool :=
  match s.env.sinkAnswers with
  | a :: _ => a
  | [] => Config.sinkAnswer s.env.sinkLog.length

/-- The state after `SinkWrite(bytes)`: the sink has been handed the whole sequence, and its answer is used up. -/
def sinkWrite (s : State) (bytes : List Byte) : State :=
  s.setEnv { s.env with
    sinkAnswers := s.env.sinkAnswers.tail
    sinkLog := s.env.sinkLog ++ [⟨bytes, nextAnswer s⟩] }

end Sys2Proof.Machine
end

