-- ==== Sys2Proof/Machine/Operands.lean ====
section
/-! DEFINITION. How the commands read their operands: registers as values of F, the song store, the checks that guard
it (41_mixer R121), and the index arithmetic of a note (41_mixer R124). -/

namespace Sys2Proof.Machine

/-- `TRK[j]` (10_state R31). An entry not written since reset holds a free value (log entry 4). -/
def trkAt (s : State) (j : Nat) : BitVec 2 := (tableGet s.song.trk j).getD (Config.blankTrk s.env.epoch j)

/-- An F field of `NOTE[n]` (10_state R32), by its field code. -/
def fieldAt (c : Config) (s : State) (t : Table Fl) (n code : Nat) : Fl :=
  (tableGet t n).getD (fit c.floatFmt (Config.blankField s.env.epoch n code))

/-- `NOTE[n]` (10_state R32). Fields not written since reset hold free values (log entry 4). -/
def noteAt (c : Config) (s : State) (n : Nat) : Note :=
  { track := (tableGet s.song.track n).getD (Config.blankTrack s.env.epoch n)
    freq := fieldAt c s s.song.freq n 1
    vol := fieldAt c s s.song.vol n 2
    start := fieldAt c s s.song.start n 3
    dur := fieldAt c s s.song.dur n 4 }

/-- The `track` field of `NOTE[n]` as an index. -/
def trackOf (c : Config) (s : State) (n : Nat) : Nat := (noteAt c s n).track.toNat

/-- `R`, that is `toF(x[SRATE])` (10_state R28). -/
def rateOf (c : Config) (s : State) : Fl := toF c.floatFmt s.srate.toNat

/-- `in_dom(t, f)`: finite t ≥ 0 and finite f > 0 (40_oscillator R107, R110). -/
def inDom (t f : Fl) : Bool := finite t && fle Fl.zero t && finite f && flt Fl.zero f

/-- `check_counts` (41_mixer R121). -/
def checkCounts (c : Config) (s : State) : Except Raise Unit :=
  require (decide (s.ntracks.toNat ≤ c.maxTracks) && decide (s.nnotes.toNat ≤ c.maxNotes)) ⟨.config, none⟩

/-- `check_rate` (41_mixer R121). -/
def checkRate (s : State) : Except Raise Unit := require (decide (s.srate ≠ 0)) ⟨.config, none⟩

/-- The six tests of `validate_note(n)` in their order (41_mixer R121). -/
def noteTests (c : Config) (s : State) (n : Nat) : List Bool :=
  [ decide ((noteAt c s n).track.toNat < s.ntracks.toNat),
    decide (trkAt s (noteAt c s n).track.toNat ≠ 3),
    finite (noteAt c s n).freq && flt Fl.zero (noteAt c s n).freq,
    finite (noteAt c s n).vol,
    finite (noteAt c s n).start && fle Fl.zero (noteAt c s n).start,
    finite (noteAt c s n).dur && fle Fl.zero (noteAt c s n).dur ]

/-- `validate_note(n)` (41_mixer R121): the first test that fails raises `E_DESC(1, j, n)`, and all raise the same. -/
def validateNote (c : Config) (s : State) (n : Nat) : Except Raise Unit :=
  require ((noteTests c s n).all id) ⟨.desc, some (trackOf c s n, n)⟩

/-- `note_len(n) = toNat(ffloor(fmul(dur, R)))`, or `E_NUMERIC(1, j, n)` (41_mixer R124). -/
def noteLen (c : Config) (s : State) (n : Nat) : Except Raise Nat := do
  let p := fmul c.floatFmt (noteAt c s n).dur (rateOf c s)
  require (finite p) ⟨.numeric, some (trackOf c s n, n)⟩
  pure (toNat (ffloor p))

/-- `note_start(n) = toNat(ffloor(fmul(start, R)))`, or `E_NUMERIC(1, j, n)` (41_mixer R124). -/
def noteStart (c : Config) (s : State) (n : Nat) : Except Raise Nat := do
  let p := fmul c.floatFmt (noteAt c s n).start (rateOf c s)
  require (finite p) ⟨.numeric, some (trackOf c s n, n)⟩
  pure (toNat (ffloor p))

/-- `sample_time(i) = fdiv(toF(i), R)`, counted from the start of the note (41_mixer R124). -/
def sampleTime (c : Config) (s : State) (i : Nat) : Fl := fdiv c.floatFmt (toF c.floatFmt i) (rateOf c s)

/-- `channels = 1 + x[CHMODE][0]` (10_state R29). -/
def channels (s : State) : Nat := 1 + (s.chmode.getLsbD 0).toNat

end Sys2Proof.Machine
end

