-- ==== Sys2Proof/Machine/Oscillator.lean ====
section
/-! DEFINITION. The Oscillator unit (40_oscillator): the waveform functions, `eval`, and OSC.SINE, OSC.SQUARE,
OSC.SAW. A waveform function answers `none` where its rule says `raise E_NUMERIC`. -/

namespace Sys2Proof.Machine

/-- `osc_sine(t, f)`: `SIN((TWO_PI * f) * t)` (40_oscillator R101, 00_scope R11). -/
def oscSine (c : Config) (t f : Fl) : Option Fl :=
  let b := fmul c.floatFmt (fmul c.floatFmt (twoPi c.floatFmt) f) t
  if finite b then some (sinOf c b) else none

/-- `osc_square(t, f)`: +1 where `floor((2 * f) * t)` is even, -1 where it is odd (40_oscillator R102). -/
def oscSquare (c : Config) (t f : Fl) : Option Fl :=
  let a := fmul c.floatFmt (fmul c.floatFmt (toF c.floatFmt 2) f) t
  if finite a then some (if odd (ffloor a) then Fl.minusOne else Fl.one) else none

/-- `osc_saw(t, f)`: `2 * frac(f * t) - 1` (40_oscillator R103). -/
def oscSaw (c : Config) (t f : Fl) : Option Fl :=
  let a := fmul c.floatFmt f t
  if finite a then
    some (fsub c.floatFmt (fmul c.floatFmt (toF c.floatFmt 2) (ffrac c.floatFmt a)) (toF c.floatFmt 1))
  else none

/-- `eval(instrument, t, f)` (40_oscillator R100). Code 3 never reaches it, and has no value. -/
def evalWave (c : Config) (code : BitVec 2) (t f : Fl) : Option Fl :=
  if code = 0 then oscSine c t f
  else if code = 1 then oscSquare c t f
  else if code = 2 then oscSaw c t f
  else none

/-- What the three commands have in common (40_oscillator R104 to R106, R110): the domain test, the waveform on the
operand registers, the result register. -/
def oscOp (wave : Fl → Fl → Option Fl) (s : State) : CmdEnd :=
  orRaise s
    (do
      require (inDom s.oscT s.oscFreq) ⟨.numeric, none⟩
      orElseRaise (wave s.oscT s.oscFreq) ⟨.numeric, none⟩)
    (fun v => endOk (s.setOscOut v))

/-- OSC.SINE (40_oscillator R104). -/
def execOscSine (s : State) : Host.Outcome State Fault Refusal :=
  .next (complete Config.this (oscOp (oscSine Config.this) s))

/-- OSC.SQUARE (40_oscillator R105). -/
def execOscSquare (s : State) : Host.Outcome State Fault Refusal :=
  .next (complete Config.this (oscOp (oscSquare Config.this) s))

/-- OSC.SAW (40_oscillator R106). -/
def execOscSaw (s : State) : Host.Outcome State Fault Refusal :=
  .next (complete Config.this (oscOp (oscSaw Config.this) s))

end Sys2Proof.Machine
end

