-- ==== Sys2Proof/Machine/Mixer.lean ====
section
/-! DEFINITION. The Mixer unit (41_mixer): MIX.DUR, MIX.ALLOC, MIX.GEN, MIX.MERGE.ADD, MIX.MERGE.OVR, MIX.NOTE,
MIX.ALL. -/

namespace Sys2Proof.Machine

/-! ### Step 1: the total duration (R122) -/

/-- The end time of note n, one rounded addition, after the note is validated (41_mixer R122). -/
def noteEnd (c : Config) (s : State) (n : Nat) : Except Raise Fl := do
  validateNote c s n
  let e := fadd c.floatFmt (noteAt c s n).start (noteAt c s n).dur
  require (finite e) ⟨.numeric, some (trackOf c s n, n)⟩
  pure e

/-- The indices of the song's notes, ascending. -/
def songNotes (s : State) : List Nat := List.range s.nnotes.toNat

/-- "max over all notes of (start+duration); 0 if no notes exist" (41_mixer R122). -/
def totalDuration (c : Config) (s : State) : Except Raise Fl := do
  checkCounts c s
  let ends ← mapRaise (noteEnd c s) (songNotes s)
  pure (ends.foldl fmax Fl.zero)

/-- The body of MIX.DUR (41_mixer R122). -/
def mixDurOp (c : Config) (s : State) : CmdEnd :=
  orRaise (s.enter .dur) (totalDuration c s) (fun t => endOk ((s.enter .dur).setTotdur t))

/-! ### Step 2: the buffer (R123) -/

/-- `toNat(fceil(fmul(x[TOTDUR], R)))`, checked against `ACC_MAX` (41_mixer R123). -/
def bufferLength (c : Config) (s : State) : Except Raise Nat := do
  checkRate s
  let p := fmul c.floatFmt s.totdur (rateOf c s)
  require (finite p) ⟨.numeric, none⟩
  require (decide (toNat (fceil p) ≤ c.accMax)) ⟨.capacity, none⟩
  pure (toNat (fceil p))

/-- The body of MIX.ALLOC (41_mixer R123). -/
def mixAllocOp (c : Config) (s : State) : CmdEnd :=
  orRaise (s.enter .alloc) (bufferLength c s)
    (fun n => endOk ((s.enter .alloc).setAcc (List.replicate n Fl.zero)))

/-! ### Step 3: the local sample array (R124 to R126) -/

/-- `contrib(n, i) = fmul(vol, eval(TRK[j], sample_time(i), freq))` (41_mixer R125); a raise inside `eval` becomes
`E_NUMERIC(1, j, n)` (R126). -/
def contrib (c : Config) (s : State) (n i : Nat) : Except Raise Fl := do
  let v ← orElseRaise (evalWave c (trkAt s (trackOf c s n)) (sampleTime c s i) (noteAt c s n).freq)
    ⟨.numeric, some (trackOf c s n, n)⟩
  pure (fmul c.floatFmt (noteAt c s n).vol v)

/-- The local sample array of note n, with the checks of MIX.GEN in their order (41_mixer R126). -/
def localSamples (c : Config) (s : State) (n : Nat) : Except Raise (List Fl) := do
  checkCounts c s
  checkRate s
  require (decide (n < s.nnotes.toNat)) ⟨.desc, some (0, n)⟩
  validateNote c s n
  let len ← noteLen c s n
  require (decide (len ≤ c.locMax)) ⟨.capacity, some (trackOf c s n, n)⟩
  mapRaise (contrib c s n) (List.range len)

/-- The body of MIX.GEN n (41_mixer R126). -/
def mixGenOp (c : Config) (s : State) (n : Nat) : CmdEnd :=
  orRaise (s.enter .mix) (localSamples c s n)
    (fun samples => endOk ((s.enter .mix).setLoc samples (BitVec.ofNat 16 n) (noteAt c s n).track))

/-! ### Step 4: the merge (R127 to R130) -/

/-- The two combine rules of the merge: "overwrite vs. add" (41_mixer R128). -/
inductive Combine where
  | add
  | overwrite
  deriving DecidableEq, Repr

/-- One element of the merge: the old element and the one merged into it (41_mixer R128). -/
def combineWith (c : Config) : Combine → Fl → Fl → Fl
  | .add, old, new => fadd c.floatFmt old new
  | .overwrite, _, new => new

/-- `merge(ds, dl, sl, combine)` (41_mixer R128): the bounds test, the length test, then each element of the window. -/
def mergeOp (c : Config) (s : State) (ds dl sl : Nat) (how : Combine) : CmdEnd :=
  orRaise s
    (do
      require (decide (ds + dl ≤ s.acc.length)) ⟨.bounds, some (s.locTrack.toNat, s.locNote.toNat)⟩
      require (decide (dl = sl)) ⟨.mergeLen, some (s.locTrack.toNat, s.locNote.toNat)⟩)
    (fun _ => endOk (s.setAcc
      (memWrite s.acc ds (List.zipWith (combineWith c how) (memRead s.acc ds dl) (memRead s.loc 0 dl)))))

/-- The body of MIX.MERGE.ADD and MIX.MERGE.OVR (41_mixer R129, R130): the window of the registers, the whole of LOC. -/
def mixMergeOp (c : Config) (how : Combine) (s : State) : CmdEnd :=
  mergeOp c (s.enter .mix) s.mrgStart.toNat s.mrgLen.toNat s.loc.length how

/-! ### A whole note, and all of them (R131 to R133) -/

/-- `L2`: how many of `len` samples from index `start` on lie below `accLen` (41_mixer R131). -/
def keptSamples (start len accLen : Nat) : Nat := if accLen ≤ start then 0 else min len (accLen - start)

/-- The record of a clamp: CLAMPED, and the note with its track in DIAG (41_mixer R131). -/
def clampRecord (s : State) (track n : Nat) : CmdEnd :=
  ⟨.ok, true, (s.raiseFlag flagClamped).setDiag (diagWord track n)⟩

/-- Adding LOC into ACC from index `start` on, with the boundary guard (41_mixer R131). -/
def placeOp (c : Config) (s : State) (n start : Nat) : CmdEnd :=
  let kept := keptSamples start s.loc.length s.acc.length
  andThen (if kept < s.loc.length then clampRecord s (trackOf c s n) n else endOk s)
    (fun s' => if 0 < kept then mergeOp c s' start kept kept .add else endOk s')

/-- The body of MIX.NOTE n (41_mixer R131). -/
def mixNoteOp (c : Config) (s : State) (n : Nat) : CmdEnd :=
  andThen (mixGenOp c s n) (fun s' => orRaise s' (noteStart c s' n) (fun start => placeOp c s' n start))

/-- MIX.NOTE for each note of a list, in its order. -/
def mixNotes (c : Config) : List Nat → State → CmdEnd
  | [], s => endOk s
  | n :: ns, s => andThen (mixNoteOp c s n) (mixNotes c ns)

/-- The body of MIX.ALL (41_mixer R133): ascending note index (20_memory R68). -/
def mixAllOp (c : Config) (s : State) : CmdEnd :=
  orRaise (s.enter .mix)
    (do
      checkCounts c s
      checkRate s)
    (fun _ => mixNotes c (songNotes s) (s.enter .mix))

/-! ### The commands -/

/-- MIX.DUR (41_mixer R122). -/
def execMixDur (s : State) : Host.Outcome State Fault Refusal :=
  .next (complete Config.this (mixDurOp Config.this s))

/-- MIX.ALLOC (41_mixer R123). -/
def execMixAlloc (s : State) : Host.Outcome State Fault Refusal :=
  .next (complete Config.this (mixAllocOp Config.this s))

/-- MIX.GEN n (41_mixer R126). -/
def execMixGen (n : Nat) (s : State) : Host.Outcome State Fault Refusal :=
  .next (complete Config.this (mixGenOp Config.this s n))

/-- MIX.MERGE.ADD (41_mixer R129). -/
def execMixMergeAdd (s : State) : Host.Outcome State Fault Refusal :=
  .next (complete Config.this (mixMergeOp Config.this .add s))

/-- MIX.MERGE.OVR (41_mixer R130). -/
def execMixMergeOvr (s : State) : Host.Outcome State Fault Refusal :=
  .next (complete Config.this (mixMergeOp Config.this .overwrite s))

/-- MIX.NOTE n (41_mixer R131). -/
def execMixNote (n : Nat) (s : State) : Host.Outcome State Fault Refusal :=
  .next (complete Config.this (mixNoteOp Config.this s n))

/-- MIX.ALL (41_mixer R133). -/
def execMixAll (s : State) : Host.Outcome State Fault Refusal :=
  .next (complete Config.this (mixAllOp Config.this s))

end Sys2Proof.Machine
end

