-- ==== Sys2Proof/Machine/Quantizer.lean ====
section
/-! DEFINITION. The Quantizer unit (42_quantizer): the function `q`, the sample frame, and QNT.S. -/

namespace Sys2Proof.Machine

/-- The clamp to [-1, 1], "hard clipping" (42_quantizer R150, R151). -/
def clampUnit (x : Fl) : Fl := if flt x Fl.minusOne then Fl.minusOne else if flt Fl.one x then Fl.one else x

/-- `q(x)`: clamp, multiply by 32767, floor (42_quantizer R151); `none` where the rule says `raise E_NUMERIC`. -/
def quantize (c : Config) (x : Fl) : Option Int :=
  if isnan x then none else some (toInt (ffloor (fmul c.floatFmt (clampUnit x) (toF c.floatFmt 32767))))

/-- `frame(x, C)`: `le16s(q(x))` once for each of C channels (42_quantizer R153). -/
def frameBytes (c : Config) (count : Nat) (x : Fl) : Option (List Byte) :=
  (quantize c x).map (fun v => (List.replicate count (le16s v)).flatten)

/-- The body of QNT.S (42_quantizer R152): the 16-bit result sign-extended into QNT_OUT (10_state R39). -/
def qntOp (c : Config) (s : State) : CmdEnd :=
  orRaise s (orElseRaise (quantize c s.qntIn) ⟨.numeric, none⟩)
    (fun v => endOk (s.setQntOut ((BitVec.ofInt 16 v).signExtend 32)))

/-- QNT.S (42_quantizer R152). -/
def execQntS (s : State) : Host.Outcome State Fault Refusal :=
  .next (complete Config.this (qntOp Config.this s))

end Sys2Proof.Machine
end

