-- ==== Sys2Proof/Machine/Serializer.lean ====
section
/-! DEFINITION. The Container Writer unit (43_serializer): the header values, the cursor write, SER.BUILD and
SER.FLUSH. -/

namespace Sys2Proof.Machine

/-! ### The header values (R165) -/

/-- `block_align = C * 2`. -/
def blockAlign (s : State) : Nat := channels s * 2

/-- `byte_rate = x[SRATE] * block_align`. -/
def byteRate (s : State) : Nat := s.srate.toNat * blockAlign s

/-- `data_size = N * C * 2`, N being ACC_LEN. -/
def dataSize (s : State) : Nat := s.acc.length * channels s * 2

/-- `pad = data_size mod 2`, which is 0 in every state (43_serializer R166). -/
def padSize (s : State) : Nat := dataSize s % 2

/-- `chunk_size = 36 + data_size + pad`. -/
def chunkSize (s : State) : Nat := 36 + dataSize s + padSize s

/-- `total = chunk_size + 8`. -/
def totalSize (s : State) : Nat := chunkSize s + 8

/-- The six checks SER.BUILD makes before it writes a byte, in their order (43_serializer R162). -/
def buildChecks (c : Config) (s : State) : Except Raise Unit := do
  require (decide (s.fmt = 0)) ⟨.config, none⟩
  require (decide (s.chmode.extractLsb' 1 31 = 0)) ⟨.config, none⟩
  require (decide (s.srate ≠ 0)) ⟨.config, none⟩
  require (decide (byteRate s ≤ 2 ^ 32 - 1)) ⟨.config, none⟩
  require (decide (chunkSize s ≤ 2 ^ 32 - 1)) ⟨.capacity, none⟩
  require (decide (totalSize s ≤ c.outMax)) ⟨.capacity, none⟩

/-! ### The cursor write and the layout (R161, R163) -/

/-- `Append(bytes)` (43_serializer R161): the bounds check, the bytes at the cursor, the cursor moved past them. -/
def appendOp (c : Config) (bytes : List Byte) (s : State) : CmdEnd :=
  orRaise s (require (decide (s.out.length + bytes.length ≤ c.outMax)) ⟨.capacity, none⟩)
    (fun _ => endOk (s.setOut (memWrite s.out s.out.length bytes)))

/-- A sequence of `Append`s. -/
def appendAll (c : Config) : List (List Byte) → State → CmdEnd
  | [], s => endOk s
  | b :: bs, s => andThen (appendOp c b s) (appendAll c bs)

/-- The header fields in the order SER.BUILD appends them (43_serializer R163, R164). -/
def headerFields (s : State) : List (List Byte) :=
  [ tagRIFF, le32 (BitVec.ofNat 32 (chunkSize s)), tagWAVE,
    tagFmt, le32 16, le16 1, le16 (BitVec.ofNat 16 (channels s)),
    le32 s.srate, le32 (BitVec.ofNat 32 (byteRate s)), le16 (BitVec.ofNat 16 (blockAlign s)), le16 16,
    tagData, le32 (BitVec.ofNat 32 (dataSize s)) ]

/-- The sample frames of ACC in order (43_serializer R164); a NaN element raises `E_NUMERIC(0, 0, 0)`. -/
def frames (c : Config) (s : State) : Except Raise (List (List Byte)) :=
  mapRaise (fun x => orElseRaise (frameBytes c (channels s) x) ⟨.numeric, none⟩) s.acc

/-- The pad byte, appended if `pad` = 1, which it never is (43_serializer R166). -/
def padField (s : State) : List (List Byte) := if padSize s = 1 then [[0x00]] else []

/-- The body of SER.BUILD (43_serializer R164). -/
def serBuildOp (c : Config) (s : State) : CmdEnd :=
  orRaise (s.enter .build)
    (do
      buildChecks c s
      frames c s)
    (fun data => appendAll c (headerFields s ++ data ++ padField s) ((s.enter .build).setOut []))

/-- The body of SER.FLUSH (43_serializer R176): one SinkWrite of OUT, and `E_IO` when the sink answers `fail`. -/
def serFlushOp (s : State) : CmdEnd :=
  let sent := sinkWrite (s.enter .flush) (memRead s.out 0 s.out.length)
  orRaise sent (require (nextAnswer s) ⟨.io, none⟩) (fun _ => endOk sent)

/-- SER.BUILD (43_serializer R164). -/
def execSerBuild (s : State) : Host.Outcome State Fault Refusal :=
  .next (complete Config.this (serBuildOp Config.this s))

/-- SER.FLUSH (43_serializer R176). -/
def execSerFlush (s : State) : Host.Outcome State Fault Refusal :=
  .next (complete Config.this (serFlushOp s))

end Sys2Proof.Machine
end

