-- ==== Sys2Proof/Machine/Render.lean ====
section
/-! DEFINITION. RENDER, the whole pipeline (44_render). -/

namespace Sys2Proof.Machine

/-- The body of RENDER (44_render R190): the five phases in order; the first fault ends the command. -/
def renderOp (c : Config) (s : State) : CmdEnd :=
  andThen (andThen (andThen (andThen (mixDurOp c s) (mixAllocOp c)) (mixAllOp c)) (serBuildOp c)) serFlushOp

/-- RENDER (44_render R190): completion once, at the end. -/
def execRender (s : State) : Host.Outcome State Fault Refusal :=
  .next (complete Config.this (renderOp Config.this s))

end Sys2Proof.Machine
end

