-- ==== Sys2Proof/Machine/Dispatch.lean ====
section
/-! DEFINITION. What each command does when it is executed (30_encoding R81 (4)), one arm a command. -/

namespace Sys2Proof.Machine

def exec (i : Instr) (s : State) : Host.Outcome State Fault Refusal :=
  match i with
  | .oscSine => Sys2Proof.Machine.execOscSine s
  | .oscSquare => Sys2Proof.Machine.execOscSquare s
  | .oscSaw => Sys2Proof.Machine.execOscSaw s
  | .mixDur => Sys2Proof.Machine.execMixDur s
  | .mixAlloc => Sys2Proof.Machine.execMixAlloc s
  | .mixGen n => Sys2Proof.Machine.execMixGen n s
  | .mixMergeAdd => Sys2Proof.Machine.execMixMergeAdd s
  | .mixMergeOvr => Sys2Proof.Machine.execMixMergeOvr s
  | .mixNote n => Sys2Proof.Machine.execMixNote n s
  | .mixAll => Sys2Proof.Machine.execMixAll s
  | .qntS => Sys2Proof.Machine.execQntS s
  | .serBuild => Sys2Proof.Machine.execSerBuild s
  | .serFlush => Sys2Proof.Machine.execSerFlush s
  | .render => Sys2Proof.Machine.execRender s

end Sys2Proof.Machine
end

