-- ==== Sys2Proof/Machine/Ports.lean ====
section
/-! DEFINITION. The host's transactions: the register port (10_state R22), the song port (20_memory R62), and the accept
rule of a write of CMD (30_encoding R81). -/

namespace Sys2Proof.Machine

/-! ### Issuing a command -/

/-- `RegWrite(CMD, w)` (30_encoding R81): the first that applies of FATAL (ignored), RV (ignored, DISCARD set), an
illegal word (executed as `E_ILLEGAL(0, 0, 0)`, R84), a command (executed to its end). -/
def issueCommand (w : Word) (s : State) : Host.Outcome State Fault Refusal :=
  if s.fatal then .next s
  else if s.rv then .next (s.raiseFlag flagDiscard)
  else
    match decode w with
    | .ok i => exec i s
    | .error _ => .next (complete Config.this (raiseEnd s ⟨.illegal, none⟩))

/-! ### The register port (10_state R21, R22) -/

/-- The element of a buffer at BUF_IDX, or `+0.0` at and above its length (10_state R40). -/
def peekFl (buffer : List Fl) (idx : Word) : Fl := buffer.getD idx.toNat Fl.zero

/-- The byte of OUT at BUF_IDX, zero-extended, or 0 at and above the cursor (10_state R40). -/
def peekOut (out : List Byte) (idx : Word) : Word := (out.getD idx.toNat 0).setWidth 32

/-- What ACC_PEEK and LOC_PEEK return while FATAL is set: a free value of F (10_state R40, R44). -/
def freePeek (c : Config) (s : State) (number : Nat) : Fl :=
  fit c.floatFmt (Config.afterPeek s.env.draws number s.bufIdx.toNat)

/-- `OUT_LEN` as the register reads: `min(OUT_LEN, 2^32 - 1)` (10_state R36). -/
def outLenWord (out : List Byte) : Word := BitVec.ofNat 32 (min out.length (2 ^ 32 - 1))

/-- `RegRead(number)` (10_state R21, R22). `CMD` and the unassigned numbers read 0. While FATAL is set the PEEK
registers return free values (10_state R40, R44). -/
def regRead (c : Config) (s : State) (number : Nat) : PortVal :=
  match number with
  | 0x01 => .word s.status
  | 0x02 => .word s.result
  | 0x03 => .word s.diag
  | 0x04 => .word s.srate
  | 0x05 => .word s.chmode
  | 0x06 => .word s.fmt
  | 0x07 => .word s.ntracks
  | 0x08 => .word s.nnotes
  | 0x09 => .float s.totdur
  | 0x0A => .word (BitVec.ofNat 32 s.acc.length)
  | 0x0B => .word (BitVec.ofNat 32 s.loc.length)
  | 0x0C => .word (outLenWord s.out)
  | 0x0D => .word s.mrgStart
  | 0x0E => .word s.mrgLen
  | 0x10 => .float s.oscT
  | 0x11 => .float s.oscFreq
  | 0x12 => .float s.oscOut
  | 0x13 => .float s.qntIn
  | 0x14 => .word s.qntOut
  | 0x15 => .word s.bufIdx
  | 0x16 => .float (if s.fatal then freePeek c s number else peekFl s.acc s.bufIdx)
  | 0x17 => .float (if s.fatal then freePeek c s number else peekFl s.loc s.bufIdx)
  | 0x18 => .word (if s.fatal then Config.afterOutPeek s.env.draws s.bufIdx.toNat else peekOut s.out s.bufIdx)
  | _ => .word 0

/-- `RegWrite(number, value)` for every register but CMD (10_state R21, R22): an RW register takes the value, STATUS
loses the W1C bits written 1, and a write of any other number has no effect. -/
def regWrite (c : Config) (s : State) (number : Nat) (bits : BitVec 64) : State :=
  match number with
  | 0x01 => writeStatus s (bits.setWidth 32)
  | 0x04 => { s with srate := bits.setWidth 32 }
  | 0x05 => { s with chmode := bits.setWidth 32 }
  | 0x06 => { s with fmt := bits.setWidth 32 }
  | 0x07 => { s with ntracks := bits.setWidth 32 }
  | 0x08 => { s with nnotes := bits.setWidth 32 }
  | 0x0D => { s with mrgStart := bits.setWidth 32 }
  | 0x0E => { s with mrgLen := bits.setWidth 32 }
  | 0x10 => { s with oscT := ofBits c.floatFmt bits }
  | 0x11 => { s with oscFreq := ofBits c.floatFmt bits }
  | 0x13 => { s with qntIn := ofBits c.floatFmt bits }
  | 0x15 => { s with bufIdx := bits.setWidth 32 }
  | _ => s

/-! ### The song port (20_memory R62) -/

/-- `addr[19]`: the address names the NOTE table. -/
def addrIsNote (addr : BitVec 20) : Bool := addr.getLsbD 19

/-- The track index of a TRK address, or `none` where `addr[18:16]` ≠ 0 or j ≥ `MAX_TRACKS`. -/
def addrTrack (c : Config) (addr : BitVec 20) : Option Nat :=
  let j := (addr.extractLsb' 0 16).toNat
  if addr.extractLsb' 16 3 = 0 ∧ j < c.maxTracks then some j else none

/-- The note index of a NOTE address, or `none` where n ≥ `MAX_NOTES`. -/
def addrNote (c : Config) (addr : BitVec 20) : Option Nat :=
  let n := (addr.extractLsb' 3 16).toNat
  if n < c.maxNotes then some n else none

/-- The field code of a NOTE address. -/
def addrField (addr : BitVec 20) : Nat := (addr.extractLsb' 0 3).toNat

/-- The field of a note as the song port reads it, by its code; codes 5 to 7 read 0. -/
def noteField (x : Note) (code : Nat) : PortVal :=
  match code with
  | 0 => .word (x.track.setWidth 32)
  | 1 => .float x.freq
  | 2 => .float x.vol
  | 3 => .float x.start
  | 4 => .float x.dur
  | _ => .word 0

/-- A note of zeros: what a read outside the table returns field by field (20_memory R62). -/
def zeroNote : Note := ⟨0, Fl.zero, Fl.zero, Fl.zero, Fl.zero⟩

/-- `SongRead(addr)` (20_memory R62). -/
def songRead (c : Config) (s : State) (addr : BitVec 20) : PortVal :=
  if addrIsNote addr then
    match addrNote c addr with
    | some n => noteField (noteAt c s n) (addrField addr)
    | none => noteField zeroNote (addrField addr)
  else
    match addrTrack c addr with
    | some j => .word ((trkAt s j).setWidth 32)
    | none => .word 0

/-- A write of one field of a note, by its code; codes 5 to 7 have no effect. -/
def writeField (c : Config) (g : SongStore) (n code : Nat) (bits : BitVec 64) : SongStore :=
  match code with
  | 0 => { g with track := tableSet g.track n (bits.setWidth 16) }
  | 1 => { g with freq := tableSet g.freq n (ofBits c.floatFmt bits) }
  | 2 => { g with vol := tableSet g.vol n (ofBits c.floatFmt bits) }
  | 3 => { g with start := tableSet g.start n (ofBits c.floatFmt bits) }
  | 4 => { g with dur := tableSet g.dur n (ofBits c.floatFmt bits) }
  | _ => g

/-- `SongWrite(addr, value)` (20_memory R62). -/
def songWrite (c : Config) (s : State) (addr : BitVec 20) (bits : BitVec 64) : State :=
  if addrIsNote addr then
    match addrNote c addr with
    | some n => { s with song := writeField c s.song n (addrField addr) bits }
    | none => s
  else
    match addrTrack c addr with
    | some j => { s with song := { s.song with trk := tableSet s.song.trk j (bits.setWidth 2) } }
    | none => s

/-! ### One transaction -/

/-- A value handed to the host by a read. -/
def deliver (s : State) (v : PortVal) : State := s.setEnv { s.env with reads := v :: s.env.reads }

/-- One host transaction, performed to its end (20_memory R67). -/
def transact (t : Txn) (s : State) : Host.Outcome State Fault Refusal :=
  match t with
  | .regRead number => .next (deliver s (regRead Config.this s number))
  | .regWrite number bits =>
    if number = 0 then issueCommand (bits.setWidth 32) s else .next (regWrite Config.this s number bits)
  | .songRead addr => .next (deliver s (songRead Config.this s addr))
  | .songWrite addr bits => .next (songWrite Config.this s addr bits)
  | .reset => .next (resetEvent s)

/-- The state with the first host transaction taken off the queue. -/
def popHost (s : State) : State := s.setEnv { s.env with host := s.env.host.tail }

/-- One step: the host's next transaction; with none the block is idle and keeps its state (60_exceptions R221). -/
def hostStep (s : State) : Host.Outcome State Fault Refusal :=
  match s.env.host with
  | [] => .next s
  | t :: _ => transact t (popHost s)

/-- The state in which the host's next transaction writes the word w to CMD and the block is ready to execute it: no
result unacknowledged, no fatal fault (log entry 6). -/
def placeCommand (s : State) (w : Word) : State :=
  (s.setStatus (s.status &&& ~~~(flagRV ||| flagFatal))).setEnv
    { s.env with host := .regWrite 0 (w.setWidth 64) :: s.env.host }

end Sys2Proof.Machine
end

