-- ==== Sys2Proof/Machine/Step.lean ====
section
/-! DEFINITION. One step of the machine: one host transaction, with the whole command it issues if it writes CMD
(20_memory R67, 30_encoding R81). -/

namespace Sys2Proof.Machine

/-- One step: the host's next transaction (Machine/Ports.lean). -/
def step (s : State) : Host.Outcome State Fault Refusal := hostStep s

/-- The state in which the very next step executes the command word of `nbits` bits `w`, the bits above them 0. -/
def State.withFetchWord (s : State) (nbits w : Nat) : State := placeCommand s (BitVec.ofNat 32 (w % 2 ^ nbits))

end Sys2Proof.Machine
end

