-- ==== Sys2Proof/Safety.lean ====
section
/-! DEFINITION. The words the statements use: how a command ends well, how it ends in a fatal fault, when a note is
valid, and the invariant of the block. -/

namespace Sys2Proof.Machine

/-! ### How a command ends -/

/-- s after the completion of a command that ended `OK` (60_exceptions R204): CODE 0 with DV as given, RV set, the
sequencer idle, and nothing else changed. -/
def State.done (s : State) (dv : Bool) : State :=
  { s with result := if dv then 0x100 else 0x000, status := s.status ||| 0x1, pc := ⟨.idle, 0, 0⟩ }

/-- `RESULT.CODE` (10_state R26). -/
def State.code (s : State) : Nat := (s.result.extractLsb' 0 8).toNat

/-- `RESULT.DV` (10_state R26). -/
def State.dv (s : State) : Bool := s.result.getLsbD 8

/-- The host's acknowledge of a result: a write of 1 to `STATUS.RV` (60_exceptions R207). -/
def State.ack (s : State) : State := { s with status := s.status &&& ~~~0x1 }

/-- t keeps what s holds in the song store and in every register the block never writes (20_memory R65). -/
structure KeepsInputs (s t : State) : Prop where
  song : t.song = s.song
  ntracks : t.ntracks = s.ntracks
  nnotes : t.nnotes = s.nnotes
  srate : t.srate = s.srate
  chmode : t.chmode = s.chmode
  fmt : t.fmt = s.fmt
  mrgStart : t.mrgStart = s.mrgStart
  mrgLen : t.mrgLen = s.mrgLen
  oscT : t.oscT = s.oscT
  oscFreq : t.oscFreq = s.oscFreq
  qntIn : t.qntIn = s.qntIn
  bufIdx : t.bufIdx = s.bufIdx

/-- t is s after a fatal fault (60_exceptions R201, R203, R204, R206): RESULT and DIAG as given, FATAL and RV set, no
other flag changed, the inputs kept, the sink not written and the host's queue untouched. The buffers and the registers
of 10_state R44 are left open. -/
structure FatalEnd (s t : State) (result diag : Word) : Prop where
  result : t.result = result
  diag : t.diag = diag
  status : t.status = s.status ||| 0x3
  pc : t.pc = ⟨.idle, 0, 0⟩
  inputs : KeepsInputs s t
  host : t.env.host = s.env.host
  reads : t.env.reads = s.env.reads
  sinkLog : t.env.sinkLog = s.env.sinkLog

/-! ### Notes -/

/-- DIAG for a note and its track (10_state R27). -/
def diagOf (track : Half) (n : Nat) : Word := track ++ BitVec.ofNat 16 n

/-- The six tests of `validate_note(n)` all pass (41_mixer R121). -/
structure NoteValid (s : State) (n : Nat) : Prop where
  track : (noteAt Config.this s n).track.toNat < s.ntracks.toNat
  instrument : trkAt s (noteAt Config.this s n).track.toNat ≠ 3
  freq : finite (noteAt Config.this s n).freq = true ∧ flt Fl.zero (noteAt Config.this s n).freq = true
  vol : finite (noteAt Config.this s n).vol = true
  start : finite (noteAt Config.this s n).start = true ∧ fle Fl.zero (noteAt Config.this s n).start = true
  dur : finite (noteAt Config.this s n).dur = true ∧ fle Fl.zero (noteAt Config.this s n).dur = true

/-- Neither count exceeds its maximum (41_mixer R121). -/
def CountsOk (s : State) : Prop :=
  s.ntracks.toNat ≤ Config.this.maxTracks ∧ s.nnotes.toNat ≤ Config.this.maxNotes

/-- `fadd(start, dur)` of note n (41_mixer R122). -/
def endTime (s : State) (n : Nat) : Fl :=
  fadd Config.this.floatFmt (noteAt Config.this s n).start (noteAt Config.this s n).dur

/-- `fmul(dur, R)` of note n (41_mixer R124). -/
def durProduct (s : State) (n : Nat) : Fl :=
  fmul Config.this.floatFmt (noteAt Config.this s n).dur (toF Config.this.floatFmt s.srate.toNat)

/-- `fmul(start, R)` of note n (41_mixer R124). -/
def startProduct (s : State) (n : Nat) : Fl :=
  fmul Config.this.floatFmt (noteAt Config.this s n).start (toF Config.this.floatFmt s.srate.toNat)

/-- `note_len(n)` where its product is finite (41_mixer R124). -/
def lenOf (s : State) (n : Nat) : Nat := toNat (ffloor (durProduct s n))

/-- `note_start(n)` where its product is finite (41_mixer R124). -/
def startOf (s : State) (n : Nat) : Nat := toNat (ffloor (startProduct s n))

/-- `eval(TRK[j], i / R, freq)` of note n, `none` where it raises (41_mixer R125). -/
def waveAt (s : State) (n i : Nat) : Option Fl :=
  evalWave Config.this (trkAt s (noteAt Config.this s n).track.toNat)
    (fdiv Config.this.floatFmt (toF Config.this.floatFmt i) (toF Config.this.floatFmt s.srate.toNat))
    (noteAt Config.this s n).freq

/-- The local sample array of note n where every evaluation has a value (41_mixer R126). -/
def samplesOf (s : State) (n : Nat) : List Fl :=
  (List.range (lenOf s n)).map
    (fun i => fmul Config.this.floatFmt (noteAt Config.this s n).vol ((waveAt s n i).getD Fl.nan))

/-- MIX.GEN n comes to its end without a fault (41_mixer R126). -/
structure GenOk (s : State) (n : Nat) : Prop where
  counts : CountsOk s
  rate : s.srate ≠ 0
  index : n < s.nnotes.toNat
  valid : NoteValid s n
  lenFinite : finite (durProduct s n) = true
  fits : lenOf s n ≤ Config.this.locMax
  waves : ∀ i, i < lenOf s n → (waveAt s n i).isSome = true

/-- How many samples of note n lie inside a buffer of `accLen` elements: L2 of 41_mixer R131. -/
def keptOf (s : State) (n accLen : Nat) : Nat :=
  if accLen ≤ startOf s n then 0 else min (lenOf s n) (accLen - startOf s n)

/-- ACC with the elements from `start` on combined with the first `len` elements of `source`, element by element
(41_mixer R128). -/
def combined (f : Fl → Fl → Fl) (acc source : List Fl) (start len : Nat) : List Fl :=
  acc.mapIdx (fun i x => if start ≤ i ∧ i < start + len then f x (source.getD (i - start) Fl.nan) else x)

/-- ACC after note n has been added into it (41_mixer R131). -/
def withNote (s : State) (acc : List Fl) (n : Nat) : List Fl :=
  combined (fadd Config.this.floatFmt) acc (samplesOf s n) (startOf s n) (keptOf s n acc.length)

/-- Note n loses samples at the end of a buffer of `accLen` elements (41_mixer R131, R132). -/
def clampsAt (s : State) (accLen n : Nat) : Bool := decide (keptOf s n accLen < lenOf s n)

/-! ### The container -/

/-- Bytes of the header (43_serializer R163), field by field, for C channels and N frames. -/
def headerOf (s : State) (count frames : Nat) : List Byte :=
  [0x52, 0x49, 0x46, 0x46] ++ le32 (BitVec.ofNat 32 (36 + frames * count * 2)) ++
  [0x57, 0x41, 0x56, 0x45] ++ [0x66, 0x6D, 0x74, 0x20] ++ [0x10, 0x00, 0x00, 0x00] ++ [0x01, 0x00] ++
  le16 (BitVec.ofNat 16 count) ++ le32 s.srate ++ le32 (BitVec.ofNat 32 (s.srate.toNat * (count * 2))) ++
  le16 (BitVec.ofNat 16 (count * 2)) ++ [0x10, 0x00] ++ [0x64, 0x61, 0x74, 0x61] ++
  le32 (BitVec.ofNat 32 (frames * count * 2))

/-- One sample frame (42_quantizer R153), where the sample has a value. -/
def frameOf (count : Nat) (x : Fl) : List Byte :=
  (List.replicate count (le16s ((quantize Config.this x).getD 0))).flatten

/-- The whole container (43_serializer R163). -/
def containerOf (s : State) (count : Nat) : List Byte :=
  headerOf s count s.acc.length ++ s.acc.flatMap (frameOf count)

/-- `1 + x[CHMODE][0]` (10_state R29). -/
def countOf (s : State) : Nat := if s.chmode.getLsbD 0 then 2 else 1

/-! ### The invariant -/

/-- A table in canonical form, its keys below a bound. -/
def TableOk {α : Type} (t : Table α) (bound : Nat) : Prop := TableWf t ∧ ∀ e ∈ t, e.1 < bound

/-- Every value of a table is a value of F. -/
def TableInF (f : FloatFmt) (t : Table Fl) : Prop := ∀ e ∈ t, inF f e.2 = true

/-- The canonical form of the song store: every table sorted by key with no key twice, the keys inside the table. -/
structure SongStore.Wf (c : Config) (g : SongStore) : Prop where
  trk : TableOk g.trk c.maxTracks
  track : TableOk g.track c.maxNotes
  freq : TableOk g.freq c.maxNotes
  vol : TableOk g.vol c.maxNotes
  start : TableOk g.start c.maxNotes
  dur : TableOk g.dur c.maxNotes
  freqF : TableInF c.floatFmt g.freq
  volF : TableInF c.floatFmt g.vol
  startF : TableInF c.floatFmt g.start
  durF : TableInF c.floatFmt g.dur

/-- What holds of the buffers while no fatal fault is recorded: the capacities (10_state R36), no NaN in ACC
(41_mixer R134), finite samples in LOC, and a total duration that is finite and not negative (41_mixer R122). -/
structure BuffersOk (c : Config) (s : State) : Prop where
  accLen : s.acc.length ≤ c.accMax
  locLen : s.loc.length ≤ c.locMax
  outLen : s.out.length ≤ c.outMax
  accNumbers : ∀ x ∈ s.acc, isnan x = false
  locFinite : ∀ x ∈ s.loc, finite x = true
  totdur : finite s.totdur = true ∧ fle Fl.zero s.totdur = true

/-- The invariant of the block: reserved bits read 0 (10_state R25, R26), RESULT holds a code of 60_exceptions R200, the
sequencer is idle between commands (10_state R23), the song store is in canonical form, every F register and buffer
element is a value of F (00_scope R8), and the buffers are as above unless a fatal fault is recorded (10_state R44). -/
structure Inv (c : Config) (s : State) : Prop where
  statusReserved : s.status.extractLsb' 4 28 = 0
  resultReserved : s.result.extractLsb' 9 23 = 0
  resultCode : s.code ≤ 8
  idle : s.pc = ⟨.idle, 0, 0⟩
  song : s.song.Wf c
  totdurF : inF c.floatFmt s.totdur = true
  oscTF : inF c.floatFmt s.oscT = true
  oscFreqF : inF c.floatFmt s.oscFreq = true
  oscOutF : inF c.floatFmt s.oscOut = true
  qntInF : inF c.floatFmt s.qntIn = true
  accF : ∀ x ∈ s.acc, inF c.floatFmt x = true
  locF : ∀ x ∈ s.loc, inF c.floatFmt x = true
  buffers : s.fatal = false → BuffersOk c s

end Sys2Proof.Machine
end

