-- ==== Sys2Proof/Certificates/Slice0/Obligations.lean ====
section
/-! DEFINITION. What is claimed of the model, one definition a claim. `Config.this` is opaque, so each claim is about
every configuration of 00_scope R6. An explicit record update in a conclusion says what the command changes and that it
changes nothing else. -/

open Sys2Proof Sys2Proof.Machine

/-! ### Encoding -/

/-- Decoding the word of a well-formed command gives that command, note index and all (30_encoding R80, R82, R83). -/
def Obligations.DecodeOfEncodeIsTheCommand : Prop :=
  ∀ i : Instr, i.wellFormed = true → decode (encode i) = .ok i

/-- Every accepted word is the word of the command it decodes to: no two words mean the same (30_encoding R83, R85). -/
def Obligations.EncodeOfDecodeIsTheWord : Prop :=
  ∀ (w : Word) (i : Instr), decode w = .ok i → i.wellFormed = true ∧ encode i = w

/-- The rows of 30_encoding R83: a word selects a row when `(w AND mask) = match`, and every other word is illegal. -/
def Obligations.WordSelectsRowByMaskAndMatch : Prop :=
  ∀ w : Word,
    (w &&& 0xFFFFFFFF = 0x10000000 → decode w = .ok .oscSine) ∧
    (w &&& 0xFFFFFFFF = 0x10010000 → decode w = .ok .oscSquare) ∧
    (w &&& 0xFFFFFFFF = 0x10020000 → decode w = .ok .oscSaw) ∧
    (w &&& 0xFFFFFFFF = 0x20000000 → decode w = .ok .mixDur) ∧
    (w &&& 0xFFFFFFFF = 0x21000000 → decode w = .ok .mixAlloc) ∧
    (w &&& 0xFFFF0000 = 0x22000000 → decode w = .ok (.mixGen (w.toNat % 65536))) ∧
    (w &&& 0xFFFFFFFF = 0x23000000 → decode w = .ok .mixMergeAdd) ∧
    (w &&& 0xFFFFFFFF = 0x23010000 → decode w = .ok .mixMergeOvr) ∧
    (w &&& 0xFFFF0000 = 0x24000000 → decode w = .ok (.mixNote (w.toNat % 65536))) ∧
    (w &&& 0xFFFFFFFF = 0x25000000 → decode w = .ok .mixAll) ∧
    (w &&& 0xFFFFFFFF = 0x30000000 → decode w = .ok .qntS) ∧
    (w &&& 0xFFFFFFFF = 0x40000000 → decode w = .ok .serBuild) ∧
    (w &&& 0xFFFFFFFF = 0x41000000 → decode w = .ok .serFlush) ∧
    (w &&& 0xFFFFFFFF = 0x50000000 → decode w = .ok .render) ∧
    ((¬ w ∈ [0x10000000, 0x10010000, 0x10020000, 0x20000000, 0x21000000, 0x23000000, 0x23010000, 0x25000000,
        0x30000000, 0x40000000, 0x41000000, 0x50000000]) →
      ¬ w &&& 0xFFFF0000 ∈ [0x22000000, 0x24000000] → ∀ i, decode w ≠ .ok i)

/-- The classes of illegal words (30_encoding R84), and what executing one does: the fatal `E_ILLEGAL` with DV = 0. -/
def Obligations.IllegalWordsRaiseEIllegal : Prop :=
  ∀ (s : State) (bits : BitVec 64) (rest : List Txn) (op sub : BitVec 8) (idx : Half),
    s.env.host = .regWrite 0 bits :: rest → s.fatal = false → s.rv = false →
    bits.setWidth 32 = (op ++ sub ++ idx : Word) →
    ((¬ op ∈ [0x10, 0x20, 0x21, 0x22, 0x23, 0x24, 0x25, 0x30, 0x40, 0x41, 0x50]) ∨
      (op = 0x10 ∧ 3 ≤ sub.toNat) ∨ (op = 0x23 ∧ 2 ≤ sub.toNat) ∨
      (op ∈ [0x20, 0x21, 0x22, 0x24, 0x25, 0x30, 0x40, 0x41, 0x50] ∧ sub ≠ 0) ∨
      (op ∈ [0x10, 0x20, 0x21, 0x23, 0x25, 0x30, 0x40, 0x41, 0x50] ∧ idx ≠ 0)) →
    ∃ t, step s = .next t ∧ FatalEnd (s.setEnv { s.env with host := rest }) t 0x004 s.diag

/-- Some words written out from the columns of 30_encoding R83 decode as the table says. -/
def Obligations.TableWordsDecode : Prop :=
  decode 0x10010000 = .ok .oscSquare ∧ decode 0x22000005 = .ok (.mixGen 5) ∧
  decode 0x2400FFFF = .ok (.mixNote 65535) ∧ decode 0x23010000 = .ok .mixMergeOvr ∧
  decode 0x30000000 = .ok .qntS ∧ decode 0x41000000 = .ok .serFlush ∧ decode 0x50000000 = .ok .render

/-! ### Issuing a command -/

/-- When the host's next transaction writes a command word and the block is ready, the step is the command
(30_encoding R81 (4)), run on the state with that transaction taken off the queue, which is the model's (log entry 6). -/
def Obligations.StepRunsTheDecodedCommand : Prop :=
  ∀ (s : State) (bits : BitVec 64) (rest : List Txn) (i : Instr),
    s.env.host = .regWrite 0 bits :: rest → s.fatal = false → s.rv = false →
    decode (bits.setWidth 32) = .ok i → step s = exec i (s.setEnv { s.env with host := rest })

/-- The accept rule (30_encoding R81): FATAL, then RV, then an illegal word, then the command. The host's queue is the
model's (log entry 6). -/
def Obligations.CommandAcceptRule : Prop :=
  ∀ (s : State) (bits : BitVec 64) (rest : List Txn), s.env.host = .regWrite 0 bits :: rest →
    (s.fatal = true → step s = .next { s with env := { s.env with host := rest } }) ∧
    (s.fatal = false → s.rv = true →
      step s = .next { s with status := s.status ||| 0x8, env := { s.env with host := rest } }) ∧
    (s.fatal = false → s.rv = false → (∀ i, decode (bits.setWidth 32) ≠ .ok i) →
      ∃ t, step s = .next t ∧ FatalEnd (s.setEnv { s.env with host := rest }) t 0x004 s.diag) ∧
    (s.fatal = false → s.rv = false → ∀ i, decode (bits.setWidth 32) = .ok i →
      step s = exec i { s with env := { s.env with host := rest } } ∧
      ∃ t, step s = .next t ∧ t.rv = true ∧ t.code ≤ 8)

/-- The word `withFetchWord` places is what the very next step runs (the placing is the model's, log entry 6). -/
def Obligations.PlacedCommandRunsNext : Prop :=
  ∀ (s : State) (w : Nat) (i : Instr), decodeTableWord 32 w = some i →
    step (s.withFetchWord 32 w) = exec i { s with status := s.status &&& ~~~0x3 }

/-- With no host transaction the block is idle and keeps all its state (60_exceptions R221). That such a step exists is the
model's choice (log entry 6). -/
def Obligations.IdleBlockKeepsItsState : Prop :=
  ∀ s : State, s.env.host = [] → step s = .next s

/-- The host's word always has an outcome that is a next state: no command word, register number or song address stops
the machine. -/
def Obligations.EveryStepHasANextState : Prop :=
  ∀ s : State, ∃ t, step s = .next t

/-- "Every executed command ends with exactly one" result code (60_exceptions R200), and completion does what R204 says:
CODE in RESULT, FATAL exactly for the codes of the fatal class, RV, the sequencer idle. DV tells of DIAG: where it is 0 DIAG
was not written; a merge fault and `E_DESC` set it, for they name a note; and beside `OK` it is 1 only for a clamp. -/
def Obligations.EveryCommandCompletes : Prop :=
  ∀ (i : Instr) (s : State), ∃ t, exec i s = .next t ∧
    t.code ≤ 8 ∧ t.result.extractLsb' 9 23 = 0 ∧ t.rv = true ∧ t.pc = ⟨.idle, 0, 0⟩ ∧
    t.fatal = (s.fatal || decide (2 ≤ t.code)) ∧ t.discard = s.discard ∧ (s.clamped = true → t.clamped = true) ∧
    t.status.extractLsb' 4 28 = s.status.extractLsb' 4 28 ∧
    (t.dv = false → t.diag = s.diag) ∧ (t.code ∈ [2, 3, 6] → t.dv = true) ∧
    (t.code = 0 → t.dv = true → t.clamped = true)

/-! ### Registers and the song port -/

/-- STATUS is write-one-to-clear in bits 0, 2 and 3, and nothing else of it changes by a host write (10_state R25). -/
def Obligations.StatusWriteClearsOnlyItsW1CBits : Prop :=
  ∀ (s : State) (bits : BitVec 64) (rest : List Txn), s.env.host = .regWrite 1 bits :: rest →
    ∃ v, step s = .next { s with status := v, env := { s.env with host := rest } } ∧
      v.getLsbD 0 = (s.status.getLsbD 0 && !bits.getLsbD 0) ∧
      v.getLsbD 1 = s.status.getLsbD 1 ∧
      v.getLsbD 2 = (s.status.getLsbD 2 && !bits.getLsbD 2) ∧
      v.getLsbD 3 = (s.status.getLsbD 3 && !bits.getLsbD 3) ∧
      ∀ k, 4 ≤ k → v.getLsbD k = s.status.getLsbD k

/-- A write of a read-only register or of an unassigned number has no effect (10_state R22). -/
def Obligations.WritesOfReadOnlyNumbersAreIgnored : Prop :=
  ∀ (s : State) (number : Nat) (bits : BitVec 64) (rest : List Txn),
    s.env.host = .regWrite number bits :: rest →
    ¬ number ∈ [0x00, 0x01, 0x04, 0x05, 0x06, 0x07, 0x08, 0x0D, 0x0E, 0x10, 0x11, 0x13, 0x15] →
    step s = .next { s with env := { s.env with host := rest } }

/-- An RW register takes the word the host writes, and nothing else changes (10_state R21, R22). An F register takes the
value whose interchange encoding the word is. -/
def Obligations.WritesOfRWRegistersStoreTheValue : Prop :=
  ∀ (s : State) (bits : BitVec 64) (rest : List Txn) (e : Env), e = { s.env with host := rest } →
    (s.env.host = .regWrite 0x04 bits :: rest → step s = .next { s with srate := bits.setWidth 32, env := e }) ∧
    (s.env.host = .regWrite 0x05 bits :: rest → step s = .next { s with chmode := bits.setWidth 32, env := e }) ∧
    (s.env.host = .regWrite 0x06 bits :: rest → step s = .next { s with fmt := bits.setWidth 32, env := e }) ∧
    (s.env.host = .regWrite 0x07 bits :: rest → step s = .next { s with ntracks := bits.setWidth 32, env := e }) ∧
    (s.env.host = .regWrite 0x08 bits :: rest → step s = .next { s with nnotes := bits.setWidth 32, env := e }) ∧
    (s.env.host = .regWrite 0x0D bits :: rest → step s = .next { s with mrgStart := bits.setWidth 32, env := e }) ∧
    (s.env.host = .regWrite 0x0E bits :: rest → step s = .next { s with mrgLen := bits.setWidth 32, env := e }) ∧
    (s.env.host = .regWrite 0x15 bits :: rest → step s = .next { s with bufIdx := bits.setWidth 32, env := e }) ∧
    (s.env.host = .regWrite 0x10 bits :: rest →
      step s = .next { s with oscT := ofBits Config.this.floatFmt bits, env := e }) ∧
    (s.env.host = .regWrite 0x11 bits :: rest →
      step s = .next { s with oscFreq := ofBits Config.this.floatFmt bits, env := e }) ∧
    (s.env.host = .regWrite 0x13 bits :: rest →
      step s = .next { s with qntIn := ofBits Config.this.floatFmt bits, env := e })

/-- A register read hands over the register's value and has no side effect; CMD and unassigned numbers read 0
(10_state R21, R22, R36, R40). -/
def Obligations.RegisterReadsHandOverTheValue : Prop :=
  ∀ (s : State) (number : Nat) (rest : List Txn), s.env.host = .regRead number :: rest →
    ∃ v, step s = .next { s with env := { s.env with host := rest, reads := v :: s.env.reads } } ∧
      (number = 0x01 → v = .word s.status) ∧ (number = 0x02 → v = .word s.result) ∧
      (number = 0x03 → v = .word s.diag) ∧ (number = 0x04 → v = .word s.srate) ∧
      (number = 0x05 → v = .word s.chmode) ∧ (number = 0x06 → v = .word s.fmt) ∧
      (number = 0x07 → v = .word s.ntracks) ∧ (number = 0x08 → v = .word s.nnotes) ∧
      (number = 0x09 → v = .float s.totdur) ∧
      (number = 0x0A → v = .word (BitVec.ofNat 32 s.acc.length)) ∧
      (number = 0x0B → v = .word (BitVec.ofNat 32 s.loc.length)) ∧
      (number = 0x0C → ∃ w, v = .word w ∧ w.toNat = min s.out.length (2 ^ 32 - 1)) ∧
      (number = 0x0D → v = .word s.mrgStart) ∧ (number = 0x0E → v = .word s.mrgLen) ∧
      (number = 0x10 → v = .float s.oscT) ∧ (number = 0x11 → v = .float s.oscFreq) ∧
      (number = 0x12 → v = .float s.oscOut) ∧ (number = 0x13 → v = .float s.qntIn) ∧
      (number = 0x14 → v = .word s.qntOut) ∧ (number = 0x15 → v = .word s.bufIdx) ∧
      (number = 0x00 ∨ number = 0x0F ∨ 0x19 ≤ number → v = .word 0)

/-- The PEEK registers (10_state R40): the element at BUF_IDX below the length, zero from the length on. -/
def Obligations.PeekRegistersShowTheBuffers : Prop :=
  ∀ (s : State) (number : Nat) (rest : List Txn), s.env.host = .regRead number :: rest → s.fatal = false →
    ∃ v, step s = .next { s with env := { s.env with host := rest, reads := v :: s.env.reads } } ∧
      (number = 0x16 → ∃ x, v = .float x ∧ (∀ h : s.bufIdx.toNat < s.acc.length, x = s.acc[s.bufIdx.toNat]) ∧
        (s.acc.length ≤ s.bufIdx.toNat → x = Fl.zero)) ∧
      (number = 0x17 → ∃ x, v = .float x ∧ (∀ h : s.bufIdx.toNat < s.loc.length, x = s.loc[s.bufIdx.toNat]) ∧
        (s.loc.length ≤ s.bufIdx.toNat → x = Fl.zero)) ∧
      (number = 0x18 → ∃ w : Word, v = .word w ∧
        (∀ h : s.bufIdx.toNat < s.out.length, w.toNat = s.out[s.bufIdx.toNat].toNat) ∧
        (s.out.length ≤ s.bufIdx.toNat → w = 0))

/-- The NOTE table through the song port (20_memory R62): a write of field f of note n at 0x80000 + 8 n + f changes that
field of that note alone; the same for the TRK table at address j. -/
def Obligations.SongWritesReachOneEntry : Prop :=
  ∀ (s : State) (addr : BitVec 20) (bits : BitVec 64) (rest : List Txn),
    s.env.host = .songWrite addr bits :: rest →
    ∃ g, step s = .next { s with song := g, env := { s.env with host := rest } } ∧
      (∀ n f, n < Config.this.maxNotes → f < 8 → addr = BitVec.ofNat 20 (0x80000 + 8 * n + f) →
        tableGet g.track n = (if f = 0 then some (bits.setWidth 16) else tableGet s.song.track n) ∧
        tableGet g.freq n = (if f = 1 then some (ofBits Config.this.floatFmt bits) else tableGet s.song.freq n) ∧
        tableGet g.vol n = (if f = 2 then some (ofBits Config.this.floatFmt bits) else tableGet s.song.vol n) ∧
        tableGet g.start n = (if f = 3 then some (ofBits Config.this.floatFmt bits) else tableGet s.song.start n) ∧
        tableGet g.dur n = (if f = 4 then some (ofBits Config.this.floatFmt bits) else tableGet s.song.dur n) ∧
        g.trk = s.song.trk ∧
        ∀ m, m ≠ n → tableGet g.track m = tableGet s.song.track m ∧ tableGet g.freq m = tableGet s.song.freq m ∧
          tableGet g.vol m = tableGet s.song.vol m ∧ tableGet g.start m = tableGet s.song.start m ∧
          tableGet g.dur m = tableGet s.song.dur m) ∧
      (∀ j, j < Config.this.maxTracks → addr = BitVec.ofNat 20 j →
        tableGet g.trk j = some (bits.setWidth 2) ∧ (∀ k, k ≠ j → tableGet g.trk k = tableGet s.song.trk k) ∧
        { g with trk := s.song.trk } = s.song) ∧
      ((∀ n f, n < Config.this.maxNotes → f < 5 → addr ≠ BitVec.ofNat 20 (0x80000 + 8 * n + f)) →
        (∀ j, j < Config.this.maxTracks → addr ≠ BitVec.ofNat 20 j) → g = s.song)

/-- A song read hands over the entry the address names, as last written, has no side effect, and reads 0 where the
address names no entry (20_memory R62). -/
def Obligations.SongReadsHandOverTheEntry : Prop :=
  ∀ (s : State) (addr : BitVec 20) (rest : List Txn), s.env.host = .songRead addr :: rest →
    ∃ v, step s = .next { s with env := { s.env with host := rest, reads := v :: s.env.reads } } ∧
      (∀ n, n < Config.this.maxNotes →
        (∀ w, addr = BitVec.ofNat 20 (0x80000 + 8 * n) → tableGet s.song.track n = some w →
          v = .word (w.setWidth 32)) ∧
        (∀ x, addr = BitVec.ofNat 20 (0x80001 + 8 * n) → tableGet s.song.freq n = some x → v = .float x) ∧
        (∀ x, addr = BitVec.ofNat 20 (0x80002 + 8 * n) → tableGet s.song.vol n = some x → v = .float x) ∧
        (∀ x, addr = BitVec.ofNat 20 (0x80003 + 8 * n) → tableGet s.song.start n = some x → v = .float x) ∧
        (∀ x, addr = BitVec.ofNat 20 (0x80004 + 8 * n) → tableGet s.song.dur n = some x → v = .float x)) ∧
      (∀ j w, j < Config.this.maxTracks → addr = BitVec.ofNat 20 j → tableGet s.song.trk j = some w →
        v = .word (w.setWidth 32)) ∧
      ((∀ n f, n < Config.this.maxNotes → f < 5 → addr ≠ BitVec.ofNat 20 (0x80000 + 8 * n + f)) →
        (∀ j, j < Config.this.maxTracks → addr ≠ BitVec.ofNat 20 j) → v = .word 0 ∨ v = .float Fl.zero)

/-! ### Reset -/

/-- What reset leaves (10_state R47): the named registers, the flags, the buffers and the hidden state. -/
def Obligations.ResetLeavesTheResetValues : Prop :=
  ∀ (s : State) (rest : List Txn), s.env.host = .reset :: rest →
    ∃ t, step s = .next t ∧ t.status = 0 ∧ t.result = 0 ∧ t.diag = 0 ∧ t.srate = 0 ∧ t.chmode = 0 ∧ t.fmt = 0 ∧
      t.ntracks = 0 ∧ t.nnotes = 0 ∧ t.totdur = .fin false 0 ∧ t.mrgStart = 0 ∧ t.mrgLen = 0 ∧
      t.oscT = .fin false 0 ∧ t.oscFreq = .fin false 0 ∧ t.oscOut = .fin false 0 ∧ t.qntIn = .fin false 0 ∧
      t.qntOut = 0 ∧ t.bufIdx = 0 ∧ t.acc = [] ∧ t.loc = [] ∧ t.out = [] ∧ t.locNote = 0 ∧ t.locTrack = 0 ∧
      t.pc = ⟨.idle, 0, 0⟩ ∧ t.env.host = rest ∧ t.env.sinkLog = s.env.sinkLog ∧
      t = { State.reset with env := t.env }

/-- "Reset is the only thing that clears `STATUS.FATAL`" (70_reset R230). While it is set a write of CMD changes nothing but
the model's host queue (30_encoding R81 case 1, 60_exceptions R201), and no other transaction reaches RESULT, DIAG, the
buffers, the registers commands write, or the sink (10_state R22, 20_memory R65). That what 10_state R44 leaves unspecified
stays the same from one transaction to the next is the model's choice (log entry 3). -/
def Obligations.OnlyResetClearsFatal : Prop :=
  ∀ (s t : State) (x : Txn) (rest : List Txn), s.env.host = x :: rest → x ≠ .reset → s.fatal = true →
    step s = .next t →
    ((∃ bits, x = .regWrite 0 bits) → t = { s with env := { s.env with host := rest } }) ∧
    t.fatal = true ∧ t.acc = s.acc ∧ t.loc = s.loc ∧ t.locNote = s.locNote ∧ t.locTrack = s.locTrack ∧ t.out = s.out ∧
    t.totdur = s.totdur ∧ t.oscOut = s.oscOut ∧ t.qntOut = s.qntOut ∧ t.result = s.result ∧ t.diag = s.diag ∧
    t.env.sinkLog = s.env.sinkLog

/-! ### The Oscillator -/

/-- OSC.SINE (40_oscillator R104): in the domain with `(2π f) t` finite OSC_OUT is its SIN; otherwise the fatal
`E_NUMERIC` with DV = 0. -/
def Obligations.OscSineEvaluatesTheSine : Prop :=
  decode 0x10000000 = .ok .oscSine ∧
  ∀ (s : State) (b : Fl),
    b = fmul Config.this.floatFmt (fmul Config.this.floatFmt (twoPi Config.this.floatFmt) s.oscFreq) s.oscT →
    (finite s.oscT = true → fle Fl.zero s.oscT = true → finite s.oscFreq = true → flt Fl.zero s.oscFreq = true →
      finite b = true → exec .oscSine s = .next ({ s with oscOut := sinOf Config.this b }.done false)) ∧
    (finite s.oscT = false ∨ fle Fl.zero s.oscT = false ∨ finite s.oscFreq = false ∨ flt Fl.zero s.oscFreq = false ∨
      finite b = false → ∃ t, exec .oscSine s = .next t ∧ FatalEnd s t 0x008 s.diag)

/-- OSC.SQUARE (40_oscillator R105): in the domain with `a = (2 f) t` finite OSC_OUT is +1 where floor(a) is even and -1
where it is odd; otherwise the fatal `E_NUMERIC` with DV = 0, also at t = 0 where 2 f is not finite (the model's reading,
log entry 12). -/
def Obligations.OscSquareEvaluatesTheSquare : Prop :=
  decode 0x10010000 = .ok .oscSquare ∧
  ∀ (s : State) (a : Fl),
    a = fmul Config.this.floatFmt (fmul Config.this.floatFmt (toF Config.this.floatFmt 2) s.oscFreq) s.oscT →
    (finite s.oscT = true → fle Fl.zero s.oscT = true → finite s.oscFreq = true → flt Fl.zero s.oscFreq = true →
      finite a = true →
      exec .oscSquare s =
        .next ({ s with oscOut := if toNat (ffloor a) % 2 = 0 then Fl.one else Fl.minusOne }.done false)) ∧
    (finite s.oscT = false ∨ fle Fl.zero s.oscT = false ∨ finite s.oscFreq = false ∨ flt Fl.zero s.oscFreq = false ∨
      finite a = false → ∃ t, exec .oscSquare s = .next t ∧ FatalEnd s t 0x008 s.diag)

/-- OSC.SAW (40_oscillator R106): in the domain with `a = f t` finite OSC_OUT is `2 frac(a) - 1`; otherwise the fatal
`E_NUMERIC` with DV = 0. -/
def Obligations.OscSawEvaluatesTheSaw : Prop :=
  decode 0x10020000 = .ok .oscSaw ∧
  ∀ (s : State) (a : Fl), a = fmul Config.this.floatFmt s.oscFreq s.oscT →
    (finite s.oscT = true → fle Fl.zero s.oscT = true → finite s.oscFreq = true → flt Fl.zero s.oscFreq = true →
      finite a = true →
      exec .oscSaw s = .next ({ s with
        oscOut := fsub Config.this.floatFmt
          (fmul Config.this.floatFmt (toF Config.this.floatFmt 2) (fsub Config.this.floatFmt a (ffloor a)))
          (toF Config.this.floatFmt 1) }.done false)) ∧
    (finite s.oscT = false ∨ fle Fl.zero s.oscT = false ∨ finite s.oscFreq = false ∨ flt Fl.zero s.oscFreq = false ∨
      finite a = false → ∃ t, exec .oscSaw s = .next t ∧ FatalEnd s t 0x008 s.diag)

/-- "For all instruments, all `t≥0`, all `freq>0`: `eval(...) ∈ [-1,1]`" whenever `eval` returns a value
(40_oscillator R109), in both formats and for every SIN. -/
def Obligations.EvalStaysInTheUnitRange : Prop :=
  ∀ (c : Config) (code : BitVec 2) (t f v : Fl), inDom t f = true → evalWave c code t f = some v →
    fle Fl.minusOne v = true ∧ fle v Fl.one = true ∧ inF c.floatFmt v = true

/-- The saw "never reaches +1.0" (40_oscillator R103). -/
def Obligations.SawNeverReachesOne : Prop :=
  ∀ (c : Config) (t f v : Fl), inDom t f = true → oscSaw c t f = some v →
    fle Fl.minusOne v = true ∧ flt v Fl.one = true

/-- The contract at time zero (40_oscillator R108) for `+0` and `-0`, where the product the pseudocode forms first does
not overflow (log entry 12 for the square): Sine a zero, `+0` at `+0`, Square +1, Saw -1. -/
def Obligations.EvalAtTimeZero : Prop :=
  ∀ (c : Config) (f : Fl) (neg : Bool), finite f = true → flt Fl.zero f = true →
    (finite (fmul c.floatFmt (twoPi c.floatFmt) f) = true →
      ∃ z, evalWave c 0 (.fin neg 0) f = some (.fin z 0) ∧ (neg = false → z = false)) ∧
    (finite (fmul c.floatFmt (toF c.floatFmt 2) f) = true → evalWave c 1 (.fin neg 0) f = some Fl.one) ∧
    evalWave c 2 (.fin neg 0) f = some Fl.minusOne

/-- The documented loss of precision: a square argument of 2^P or more gives +1 always, a saw argument of 2^P or more
gives -1 always (40_oscillator R102, R103). -/
def Obligations.LargeArgumentsLoseThePhase : Prop :=
  ∀ (c : Config) (t f : Fl), inDom t f = true →
    (∀ a, a = fmul c.floatFmt (fmul c.floatFmt (toF c.floatFmt 2) f) t → finite a = true →
      fle (toF c.floatFmt (2 ^ prec c.floatFmt)) a = true → oscSquare c t f = some Fl.one) ∧
    (∀ a, a = fmul c.floatFmt f t → finite a = true →
      fle (toF c.floatFmt (2 ^ prec c.floatFmt)) a = true → oscSaw c t f = some Fl.minusOne)

/-! ### The Mixer -/

/-- MIX.DUR (41_mixer R122): TOTDUR is the maximum of the rounded end times, 0 for no notes; the first note that is
invalid or whose end overflows names itself in DIAG; counts above their maxima come first. -/
def Obligations.MixDurTakesTheLatestEnd : Prop :=
  decode 0x20000000 = .ok .mixDur ∧
  ∀ s : State,
    (CountsOk s → (∀ n, n < s.nnotes.toNat → NoteValid s n ∧ finite (endTime s n) = true) →
      exec .mixDur s = .next ({ s with
        totdur := (List.range s.nnotes.toNat).foldl (fun m n => fmax m (endTime s n)) Fl.zero }.done false)) ∧
    (¬ CountsOk s → ∃ t, exec .mixDur s = .next t ∧ FatalEnd s t 0x005 s.diag) ∧
    (∀ n, CountsOk s → n < s.nnotes.toNat → (∀ m, m < n → NoteValid s m ∧ finite (endTime s m) = true) →
      (¬ NoteValid s n → ∃ t, exec .mixDur s = .next t ∧
        FatalEnd s t 0x106 (diagOf (noteAt Config.this s n).track n)) ∧
      (NoteValid s n → finite (endTime s n) = false → ∃ t, exec .mixDur s = .next t ∧
        FatalEnd s t 0x108 (diagOf (noteAt Config.this s n).track n)))

/-- After a MIX.DUR that ended OK, TOTDUR is finite, not negative, at least every note's end, and 0 or some note's end
(41_mixer R122). -/
def Obligations.TotalDurationIsTheMaximum : Prop :=
  ∀ s t : State, exec .mixDur s = .next t → t.code = 0 →
    finite t.totdur = true ∧ fle Fl.zero t.totdur = true ∧
    (∀ n, n < s.nnotes.toNat → fle (endTime s n) t.totdur = true) ∧
    (t.totdur = Fl.zero ∨ ∃ n, n < s.nnotes.toNat ∧ t.totdur = endTime s n) ∧
    (s.nnotes = 0 → t.totdur = Fl.zero)

/-- MIX.ALLOC (41_mixer R123): `ceil(TOTDUR * R)` elements `+0.0`; then the rate, the product and the capacity fault in
that order. -/
def Obligations.MixAllocZeroesTheBuffer : Prop :=
  decode 0x21000000 = .ok .mixAlloc ∧
  ∀ (s : State) (p : Fl), p = fmul Config.this.floatFmt s.totdur (toF Config.this.floatFmt s.srate.toNat) →
    (s.srate ≠ 0 → finite p = true → toNat (fceil p) ≤ Config.this.accMax →
      exec .mixAlloc s = .next ({ s with acc := List.replicate (toNat (fceil p)) Fl.zero }.done false)) ∧
    (s.srate = 0 → ∃ t, exec .mixAlloc s = .next t ∧ FatalEnd s t 0x005 s.diag) ∧
    (s.srate ≠ 0 → finite p = false → ∃ t, exec .mixAlloc s = .next t ∧ FatalEnd s t 0x008 s.diag) ∧
    (s.srate ≠ 0 → finite p = true → Config.this.accMax < toNat (fceil p) →
      ∃ t, exec .mixAlloc s = .next t ∧ FatalEnd s t 0x007 s.diag)

/-- MIX.GEN n (41_mixer R126): LOC is `floor(dur * R)` samples `vol * eval(instrument, i / R, freq)`, and LOC_NOTE and
LOC_TRACK name the note. -/
def Obligations.MixGenFillsLoc : Prop :=
  ∀ (s : State) (n : Nat), GenOk s n →
    exec (.mixGen n) s = .next ({ s with
      loc := samplesOf s n, locNote := BitVec.ofNat 16 n, locTrack := (noteAt Config.this s n).track }.done false)

/-- The faults of MIX.GEN n in their order (41_mixer R126, 60_exceptions R205). -/
def Obligations.MixGenFaultsInOrder : Prop :=
  ∀ (s : State) (n : Nat) (d : Word), d = diagOf (noteAt Config.this s n).track n →
    (¬ CountsOk s ∨ s.srate = 0 → ∃ t, exec (.mixGen n) s = .next t ∧ FatalEnd s t 0x005 s.diag) ∧
    (CountsOk s → s.srate ≠ 0 → s.nnotes.toNat ≤ n →
      ∃ t, exec (.mixGen n) s = .next t ∧ FatalEnd s t 0x106 (diagOf 0 n)) ∧
    (CountsOk s → s.srate ≠ 0 → n < s.nnotes.toNat → ¬ NoteValid s n →
      ∃ t, exec (.mixGen n) s = .next t ∧ FatalEnd s t 0x106 d) ∧
    (CountsOk s → s.srate ≠ 0 → n < s.nnotes.toNat → NoteValid s n → finite (durProduct s n) = false →
      ∃ t, exec (.mixGen n) s = .next t ∧ FatalEnd s t 0x108 d) ∧
    (CountsOk s → s.srate ≠ 0 → n < s.nnotes.toNat → NoteValid s n → finite (durProduct s n) = true →
      Config.this.locMax < lenOf s n → ∃ t, exec (.mixGen n) s = .next t ∧ FatalEnd s t 0x107 d) ∧
    (CountsOk s → s.srate ≠ 0 → n < s.nnotes.toNat → NoteValid s n → finite (durProduct s n) = true →
      lenOf s n ≤ Config.this.locMax → (∃ i, i < lenOf s n ∧ waveAt s n i = none) →
      ∃ t, exec (.mixGen n) s = .next t ∧ FatalEnd s t 0x108 d)

/-- MIX.MERGE.ADD (41_mixer R128, R129): each element of the window gets the LOC element added; a window outside ACC
is `E_BOUNDS`, then a length that differs `E_MERGE_LEN`, both fatal and naming LOC's note. -/
def Obligations.MixMergeAddAddsTheWindow : Prop :=
  decode 0x23000000 = .ok .mixMergeAdd ∧
  ∀ s : State,
    (s.mrgStart.toNat + s.mrgLen.toNat ≤ s.acc.length → s.mrgLen.toNat = s.loc.length →
      exec .mixMergeAdd s = .next ({ s with
        acc := combined (fadd Config.this.floatFmt) s.acc s.loc s.mrgStart.toNat s.mrgLen.toNat }.done false)) ∧
    (s.acc.length < s.mrgStart.toNat + s.mrgLen.toNat →
      ∃ t, exec .mixMergeAdd s = .next t ∧ FatalEnd s t 0x103 (s.locTrack ++ s.locNote)) ∧
    (s.mrgStart.toNat + s.mrgLen.toNat ≤ s.acc.length → s.mrgLen.toNat ≠ s.loc.length →
      ∃ t, exec .mixMergeAdd s = .next t ∧ FatalEnd s t 0x102 (s.locTrack ++ s.locNote))

/-- MIX.MERGE.OVR (41_mixer R128, R130): the same merge, each element of the window becoming the LOC element. -/
def Obligations.MixMergeOvrOverwritesTheWindow : Prop :=
  decode 0x23010000 = .ok .mixMergeOvr ∧
  ∀ s : State,
    (s.mrgStart.toNat + s.mrgLen.toNat ≤ s.acc.length → s.mrgLen.toNat = s.loc.length →
      exec .mixMergeOvr s = .next ({ s with
        acc := combined (fun _ x => x) s.acc s.loc s.mrgStart.toNat s.mrgLen.toNat }.done false)) ∧
    (s.acc.length < s.mrgStart.toNat + s.mrgLen.toNat →
      ∃ t, exec .mixMergeOvr s = .next t ∧ FatalEnd s t 0x103 (s.locTrack ++ s.locNote)) ∧
    (s.mrgStart.toNat + s.mrgLen.toNat ≤ s.acc.length → s.mrgLen.toNat ≠ s.loc.length →
      ∃ t, exec .mixMergeOvr s = .next t ∧ FatalEnd s t 0x102 (s.locTrack ++ s.locNote))

/-- MIX.MERGE.OVR is idempotent: "repeating it changes nothing more" (41_mixer R130). Issued again after the acknowledge it
leaves the very same state. -/
def Obligations.OverwritingTwiceChangesNothingMore : Prop :=
  ∀ s t : State, exec .mixMergeOvr s = .next t → t.code = 0 → exec .mixMergeOvr t.ack = .next t

/-- MIX.NOTE n (41_mixer R131): the note is generated and its first L2 samples are added from its start index on; when
samples are dropped CLAMPED is set and DIAG and DV name the note, else neither changes. -/
def Obligations.MixNoteAddsTheNote : Prop :=
  ∀ (s : State) (n : Nat), GenOk s n → finite (startProduct s n) = true →
    (lenOf s n ≤ keptOf s n s.acc.length → exec (.mixNote n) s = .next ({ s with
      loc := samplesOf s n, locNote := BitVec.ofNat 16 n, locTrack := (noteAt Config.this s n).track,
      acc := withNote s s.acc n }.done false)) ∧
    (keptOf s n s.acc.length < lenOf s n → exec (.mixNote n) s = .next ({ s with
      loc := samplesOf s n, locNote := BitVec.ofNat 16 n, locTrack := (noteAt Config.this s n).track,
      acc := withNote s s.acc n, status := s.status ||| 0x4,
      diag := diagOf (noteAt Config.this s n).track n }.done true))

/-- The faults of MIX.NOTE n (41_mixer R131): those of MIX.GEN n with the same code and DIAG, then `E_NUMERIC` when
`start * R` is not finite. -/
def Obligations.MixNoteFaultsInOrder : Prop :=
  ∀ (s : State) (n : Nat),
    (∀ g, exec (.mixGen n) s = .next g → 2 ≤ g.code →
      ∃ t, exec (.mixNote n) s = .next t ∧ FatalEnd s t g.result g.diag) ∧
    (GenOk s n → finite (startProduct s n) = false →
      ∃ t, exec (.mixNote n) s = .next t ∧ FatalEnd s t 0x108 (diagOf (noteAt Config.this s n).track n))

/-- MIX.ALL (41_mixer R133): every note in ascending index; ACC is the fold of the additions, LOC is the last note's,
and CLAMPED, DIAG and DV tell of the last note that lost samples. -/
def Obligations.MixAllAddsEveryNote : Prop :=
  ∀ (s : State) (clampedNotes : List Nat), CountsOk s → s.srate ≠ 0 →
    (∀ n, n < s.nnotes.toNat → GenOk s n ∧ finite (startProduct s n) = true) →
    clampedNotes = (List.range s.nnotes.toNat).filter (clampsAt s s.acc.length) →
    exec .mixAll s = .next ({ s with
      acc := (List.range s.nnotes.toNat).foldl (withNote s) s.acc,
      loc := if s.nnotes = 0 then s.loc else samplesOf s (s.nnotes.toNat - 1),
      locNote := if s.nnotes = 0 then s.locNote else BitVec.ofNat 16 (s.nnotes.toNat - 1),
      locTrack := if s.nnotes = 0 then s.locTrack else (noteAt Config.this s (s.nnotes.toNat - 1)).track,
      status := if clampedNotes = [] then s.status else s.status ||| 0x4,
      diag := (clampedNotes.getLast?.map (fun n => diagOf (noteAt Config.this s n).track n)).getD s.diag
      }.done (decide (clampedNotes ≠ [])))

/-- The faults of MIX.ALL (41_mixer R133, 60_exceptions R205): the counts and the rate first, then the first fault of the
first note that faults, in ascending index, with its code and DIAG. A clamp of an earlier note stays in CLAMPED. -/
def Obligations.MixAllFaultsInOrder : Prop :=
  ∀ s : State,
    (¬ CountsOk s ∨ s.srate = 0 → ∃ t, exec .mixAll s = .next t ∧ FatalEnd s t 0x005 s.diag) ∧
    ∀ (n : Nat) (d : Word) (u : State), CountsOk s → s.srate ≠ 0 → n < s.nnotes.toNat →
      (∀ m, m < n → GenOk s m ∧ finite (startProduct s m) = true) → d = diagOf (noteAt Config.this s n).track n →
      u = { s with status :=
        if (List.range n).filter (clampsAt s s.acc.length) = [] then s.status else s.status ||| 0x4 } →
      (¬ NoteValid s n → ∃ t, exec .mixAll s = .next t ∧ FatalEnd u t 0x106 d) ∧
      (NoteValid s n → finite (durProduct s n) = false → ∃ t, exec .mixAll s = .next t ∧ FatalEnd u t 0x108 d) ∧
      (NoteValid s n → finite (durProduct s n) = true → Config.this.locMax < lenOf s n →
        ∃ t, exec .mixAll s = .next t ∧ FatalEnd u t 0x107 d) ∧
      (NoteValid s n → finite (durProduct s n) = true → lenOf s n ≤ Config.this.locMax →
        (∃ i, i < lenOf s n ∧ waveAt s n i = none) → ∃ t, exec .mixAll s = .next t ∧ FatalEnd u t 0x108 d) ∧
      (GenOk s n → finite (startProduct s n) = false → ∃ t, exec .mixAll s = .next t ∧ FatalEnd u t 0x108 d)

/-- `fadd(c, c) = 2c` exactly (41_mixer R133, 42_quantizer R154): doubling a value of F is exact unless it leaves the
range of the format. -/
def Obligations.OverlappingEqualSamplesDouble : Prop :=
  ∀ (f : FloatFmt) (s : Bool) (m : Nat), inF f (.fin s m) = true →
    fadd f (.fin s m) (.fin s m) = if 2 * m < 2 ^ rangeBit f then .fin s (2 * m) else .inf s

/-- "A single note with `start` = 0 never clamps" (41_mixer R131) when the buffer was sized by MIX.DUR and MIX.ALLOC
from the same song and rate. That an entry never written reads the same each time is the model's choice (log entry 4). -/
def Obligations.SingleNoteFromZeroNeverClamps : Prop :=
  ∀ s a b t : State, Inv Config.this s → s.nnotes = 1 → (noteAt Config.this s 0).start = Fl.zero →
    exec .mixDur s = .next a → a.code = 0 → exec .mixAlloc a.ack = .next b → b.code = 0 →
    exec (.mixNote 0) b.ack = .next t → t.code = 0 → t.dv = false ∧ t.clamped = s.clamped

/-! ### The Quantizer -/

/-- QNT.S (42_quantizer R152): QNT_OUT is the sign-extended `floor(clamp(x) * 32767)`, one rounding in the product; a NaN
is the fatal `E_NUMERIC` with DV = 0. -/
def Obligations.QntSQuantizesTheSample : Prop :=
  decode 0x30000000 = .ok .qntS ∧
  ∀ (s : State) (x : Fl),
    x = (if flt s.qntIn Fl.minusOne then Fl.minusOne else if flt Fl.one s.qntIn then Fl.one else s.qntIn) →
    (isnan s.qntIn = false → exec .qntS s = .next ({ s with
      qntOut := BitVec.ofInt 32
        (toInt (ffloor (fmul Config.this.floatFmt x (toF Config.this.floatFmt 32767)))) }.done false)) ∧
    (isnan s.qntIn = true → ∃ t, exec .qntS s = .next t ∧ FatalEnd s t 0x008 s.diag)

/-- "The result lies in −32767 to 32767; −32768 is never produced" (42_quantizer R151), in both formats. -/
def Obligations.QuantizedSamplesLieInRange : Prop :=
  ∀ (c : Config) (x : Fl) (v : Int), quantize c x = some v → -32767 ≤ v ∧ v ≤ 32767

/-- The limits of the Quantizer (42_quantizer R151): clipping, the exact ends, the zeros, and the downward bias of every
negative sample whose product is not a zero. -/
def Obligations.QuantizerClipsAndFloors : Prop :=
  ∀ (c : Config) (x : Fl),
    (fle Fl.one x = true → quantize c x = some 32767) ∧
    (fle x Fl.minusOne = true → quantize c x = some (-32767)) ∧
    (∀ z, x = .fin z 0 → quantize c x = some 0) ∧
    (∀ v, flt x Fl.zero = true → (∀ z, fmul c.floatFmt x (toF c.floatFmt 32767) ≠ .fin z 0) →
      quantize c x = some v → v ≤ -1)

/-! ### The Container Writer -/

/-- SER.BUILD (43_serializer R163, R164): where the six checks pass and no element of ACC is NaN, OUT is the container of
R163, byte for byte, whatever it held before. -/
def Obligations.SerBuildLaysOutTheContainer : Prop :=
  ∀ s : State, s.fmt = 0 → s.chmode.toNat < 2 → s.srate ≠ 0 → s.srate.toNat * (countOf s * 2) < 2 ^ 32 →
    36 + s.acc.length * countOf s * 2 < 2 ^ 32 → 44 + s.acc.length * countOf s * 2 ≤ Config.this.outMax →
    (∀ x ∈ s.acc, isnan x = false) →
    exec .serBuild s = .next ({ s with out := containerOf s (countOf s) }.done false)

/-- The checks of SER.BUILD in their order (43_serializer R162), then the NaN (R164). -/
def Obligations.SerBuildFaultsInOrder : Prop :=
  ∀ (s : State) (rate size : Nat), rate = s.srate.toNat * (countOf s * 2) → size = s.acc.length * countOf s * 2 →
    (s.fmt ≠ 0 ∨ 2 ≤ s.chmode.toNat ∨ s.srate = 0 ∨ 2 ^ 32 ≤ rate →
      ∃ t, exec .serBuild s = .next t ∧ FatalEnd s t 0x005 s.diag) ∧
    (s.fmt = 0 → s.chmode.toNat < 2 → s.srate ≠ 0 → rate < 2 ^ 32 →
      2 ^ 32 ≤ 36 + size ∨ Config.this.outMax < 44 + size →
      ∃ t, exec .serBuild s = .next t ∧ FatalEnd s t 0x007 s.diag) ∧
    (s.fmt = 0 → s.chmode.toNat < 2 → s.srate ≠ 0 → rate < 2 ^ 32 → 36 + size < 2 ^ 32 →
      44 + size ≤ Config.this.outMax → (∃ x ∈ s.acc, isnan x = true) →
      ∃ t, exec .serBuild s = .next t ∧ FatalEnd s t 0x008 s.diag)

/-- "Round-trip: parsing the produced header back out yields the exact configured sample rate, channel count, and bit
depth", and the emitted length is `44 + 2 C ACC_LEN` (43_serializer R164, R167). -/
def Obligations.HeaderParsesBack : Prop :=
  ∀ s t : State, exec .serBuild s = .next t → t.code = 0 →
    t.out.length = 44 + 2 * countOf s * s.acc.length ∧
    (∃ b24 b25 b26 b27 : Byte, (t.out.drop 24).take 4 = [b24, b25, b26, b27] ∧ b27 ++ b26 ++ b25 ++ b24 = s.srate) ∧
    (t.out.drop 22).take 2 = [BitVec.ofNat 8 (countOf s), 0] ∧ (t.out.drop 34).take 2 = [16, 0]

/-- SER.FLUSH (43_serializer R176): the sink is handed all of OUT in one write; `ok` ends OK, `fail` is the recoverable
`E_IO`, and neither changes anything but RESULT, RV and the sink. -/
def Obligations.SerFlushWritesOutOnce : Prop :=
  decode 0x41000000 = .ok .serFlush ∧
  ∀ (s : State) (e : Env),
    e = { s.env with sinkAnswers := s.env.sinkAnswers.tail,
                     sinkLog := s.env.sinkLog ++ [⟨s.out, nextAnswer s⟩] } →
    (nextAnswer s = true → exec .serFlush s = .next ({ s with env := e }.done false)) ∧
    (nextAnswer s = false → exec .serFlush s = .next { s with
      result := 0x001, status := s.status ||| 0x1, pc := ⟨.idle, 0, 0⟩, env := e })

/-- "The block sends nothing to the sink at any other time" (43_serializer R175): only SER.FLUSH and RENDER write to
the sink, and at most once. -/
def Obligations.OnlyFlushAndRenderWriteTheSink : Prop :=
  ∀ (i : Instr) (s t : State), exec i s = .next t →
    (i ≠ .serFlush → i ≠ .render → t.env.sinkLog = s.env.sinkLog ∧ t.env.sinkAnswers = s.env.sinkAnswers) ∧
    (t.env.sinkLog = s.env.sinkLog ∨ ∃ w, t.env.sinkLog = s.env.sinkLog ++ [w] ∧ (t.code < 2 → w.bytes = t.out))

/-! ### RENDER -/

/-- RENDER of the empty song (44_render R190): TOTDUR 0, ACC empty, the 44-byte header alone to the sink. -/
def Obligations.RenderOfTheEmptySong : Prop :=
  ∀ (s : State) (e : Env), s.nnotes = 0 → s.ntracks.toNat ≤ Config.this.maxTracks → s.srate ≠ 0 → s.fmt = 0 →
    s.chmode.toNat < 2 → s.srate.toNat * (countOf s * 2) < 2 ^ 32 →
    e = { s.env with sinkAnswers := s.env.sinkAnswers.tail,
                     sinkLog := s.env.sinkLog ++ [⟨headerOf s (countOf s) 0, nextAnswer s⟩] } →
    exec .render s = .next { s with
      totdur := Fl.zero, acc := [], out := headerOf s (countOf s) 0, env := e,
      result := if nextAnswer s then 0x000 else 0x001, status := s.status ||| 0x1, pc := ⟨.idle, 0, 0⟩ } ∧
    (headerOf s (countOf s) 0).length = 44

/-- RENDER of any song it can render (44_render R190): the five phases in their order, from the song store to the sink.
Where every note is valid and fits, the buffer and the container fit, and no sum is NaN, TOTDUR is the latest end, ACC the
sum of all notes in ascending order, OUT the container, and the sink gets it once; the sink's answer is the result. That
DV stays 1 beside `E_IO` after a clamp is the model's reading (log entry 8), and that an entry never written reads the
same each time is its choice (log entry 4). -/
def Obligations.RenderRunsTheWholePipeline : Prop :=
  ∀ (s : State) (total p : Fl) (len : Nat) (mix : List Fl) (clampedNotes : List Nat) (bytes : List Byte) (e : Env),
    CountsOk s → s.srate ≠ 0 → s.fmt = 0 → s.chmode.toNat < 2 →
    (∀ n, n < s.nnotes.toNat → GenOk s n ∧ finite (endTime s n) = true ∧ finite (startProduct s n) = true) →
    total = (List.range s.nnotes.toNat).foldl (fun m n => fmax m (endTime s n)) Fl.zero →
    p = fmul Config.this.floatFmt total (toF Config.this.floatFmt s.srate.toNat) → finite p = true →
    len = toNat (fceil p) → len ≤ Config.this.accMax →
    mix = (List.range s.nnotes.toNat).foldl (withNote s) (List.replicate len Fl.zero) →
    (∀ x ∈ mix, isnan x = false) → s.srate.toNat * (countOf s * 2) < 2 ^ 32 → 36 + len * countOf s * 2 < 2 ^ 32 →
    44 + len * countOf s * 2 ≤ Config.this.outMax →
    clampedNotes = (List.range s.nnotes.toNat).filter (clampsAt s len) →
    bytes = headerOf s (countOf s) len ++ mix.flatMap (frameOf (countOf s)) →
    e = { s.env with sinkAnswers := s.env.sinkAnswers.tail,
                     sinkLog := s.env.sinkLog ++ [⟨bytes, nextAnswer s⟩] } →
    exec .render s = .next { s with
      totdur := total, acc := mix, out := bytes, env := e, pc := ⟨.idle, 0, 0⟩,
      loc := if s.nnotes = 0 then s.loc else samplesOf s (s.nnotes.toNat - 1),
      locNote := if s.nnotes = 0 then s.locNote else BitVec.ofNat 16 (s.nnotes.toNat - 1),
      locTrack := if s.nnotes = 0 then s.locTrack else (noteAt Config.this s (s.nnotes.toNat - 1)).track,
      status := if clampedNotes = [] then s.status ||| 0x1 else s.status ||| 0x5,
      diag := (clampedNotes.getLast?.map (fun n => diagOf (noteAt Config.this s n).track n)).getD s.diag,
      result := (if nextAnswer s then 0x000 else 0x001) ||| (if clampedNotes = [] then 0x000 else 0x100) }

/-- RENDER and the unit commands agree (44_render R192): where MIX.DUR, MIX.ALLOC, MIX.ALL and SER.BUILD each end OK and
are acknowledged, RENDER leaves what SER.FLUSH then leaves, but for RESULT.DV, which is MIX.ALL's (log entry 8 for its value
beside `E_IO`, log entry 4 for entries never written). -/
def Obligations.RenderAgreesWithTheUnitCommands : Prop :=
  ∀ s s1 s2 s3 s4 s5 : State, s.rv = false →
    exec .mixDur s = .next s1 → s1.code = 0 → exec .mixAlloc s1.ack = .next s2 → s2.code = 0 →
    exec .mixAll s2.ack = .next s3 → s3.code = 0 → exec .serBuild s3.ack = .next s4 → s4.code = 0 →
    exec .serFlush s4.ack = .next s5 →
    ∃ t, exec .render s = .next t ∧ t.code = s5.code ∧ t.dv = s3.dv ∧ t = { s5 with result := t.result }

/-- RENDER stops at the first phase that faults, with that phase's code (44_render R190, R192); later phases do not run,
so the sink is not written (log entry 4 for song entries never written). -/
def Obligations.RenderStopsAtTheFirstFault : Prop :=
  ∀ s s1 s2 s3 s4 : State, s.rv = false →
    (exec .mixDur s = .next s1 → s1.code ≠ 0 →
      ∃ t, exec .render s = .next t ∧ FatalEnd s t s1.result s1.diag) ∧
    (exec .mixDur s = .next s1 → s1.code = 0 → exec .mixAlloc s1.ack = .next s2 → s2.code ≠ 0 →
      ∃ t, exec .render s = .next t ∧ FatalEnd s t s2.result s2.diag) ∧
    (exec .mixDur s = .next s1 → s1.code = 0 → exec .mixAlloc s1.ack = .next s2 → s2.code = 0 →
      exec .mixAll s2.ack = .next s3 → s3.code ≠ 0 →
      ∃ t, exec .render s = .next t ∧ t.code = s3.code ∧ t.fatal = true ∧ t.diag = s3.diag ∧
        t.env.sinkLog = s.env.sinkLog) ∧
    (exec .mixDur s = .next s1 → s1.code = 0 → exec .mixAlloc s1.ack = .next s2 → s2.code = 0 →
      exec .mixAll s2.ack = .next s3 → s3.code = 0 → exec .serBuild s3.ack = .next s4 → s4.code ≠ 0 →
      ∃ t, exec .render s = .next t ∧ t.code = s4.code ∧ t.fatal = true ∧ t.diag = s3.diag ∧
        t.env.sinkLog = s.env.sinkLog)

/-- "Issued twice in a row (with an acknowledge between) it produces the same bytes twice" (44_render R190), for song entries
never written too, by the model's choice (log entry 4). -/
def Obligations.RenderingAgainGivesTheSameBytes : Prop :=
  ∀ s t u : State, exec .render s = .next t → t.code < 2 → exec .render t.ack = .next u →
    u.code < 2 ∧ u.acc = t.acc ∧ u.out = t.out ∧ u.totdur = t.totdur

/-- After an `E_IO` the container is complete in OUT, and SER.FLUSH alone sends the same bytes again (44_render R190,
60_exceptions R202). -/
def Obligations.FlushRetriesAFailedRender : Prop :=
  ∀ s t : State, s.fatal = false → exec .render s = .next t → t.code = 1 →
    t.fatal = false ∧ ∃ w, t.env.sinkLog = s.env.sinkLog ++ [w] ∧ w.bytes = t.out ∧
      ∃ u, exec .serFlush t.ack = .next u ∧ u.out = t.out ∧ u.acc = t.acc ∧
        ∃ w', u.env.sinkLog = t.env.sinkLog ++ [w'] ∧ w'.bytes = w.bytes

/-! ### Whole-machine rules -/

/-- "The block never writes the TRK table, the NOTE table" or a register of the host, whatever the command and however
it ends (20_memory R65); and the host's writes never reach ACC, LOC or OUT. -/
def Obligations.BlockAndHostKeepToTheirSides : Prop :=
  (∀ (i : Instr) (s t : State), exec i s = .next t → KeepsInputs s t) ∧
  ∀ (s t : State) (x : Txn) (rest : List Txn), s.env.host = x :: rest → x ≠ .reset →
    (∀ bits, x ≠ .regWrite 0 bits) → step s = .next t → t.acc = s.acc ∧ t.loc = s.loc ∧ t.out = s.out

/-- The frame of OSC.SINE, OSC.SQUARE, OSC.SAW and QNT.S (40_oscillator R110, 42_quantizer R152): with an OK result they
change their own result register, RESULT, RV and nothing else. -/
def Obligations.RegisterCommandsTouchOneRegister : Prop :=
  ∀ (i : Instr) (s t : State), i ∈ [Instr.oscSine, .oscSquare, .oscSaw, .qntS] → exec i s = .next t → t.code = 0 →
    t = { s with oscOut := if i = .qntS then s.oscOut else t.oscOut,
                 qntOut := if i = .qntS then t.qntOut else s.qntOut,
                 result := 0, status := s.status ||| 0x1, pc := ⟨.idle, 0, 0⟩ }

/-- The frame of the Mixer's commands (41_mixer R122 to R133): with an OK result they change nothing outside TOTDUR, ACC,
LOC and its origin, RESULT, DIAG, and the flags RV and CLAMPED. RV is set; CLAMPED is set exactly beside DV, and DIAG is
written only then. MIX.DUR alone writes TOTDUR, MIX.ALLOC alone changes the length of ACC. MIX.DUR and MIX.GEN leave ACC
alone; a merge leaves every element outside the window of MRG_START and MRG_LEN; MIX.NOTE every element outside the window
of its note's start index and of the samples it keeps; MIX.ALL every element outside the windows of all notes. -/
def Obligations.MixerCommandsKeepTheRest : Prop :=
  ∀ (i : Instr) (s t : State) (n : Nat),
    i ∈ [Instr.mixDur, .mixAlloc, .mixGen n, .mixMergeAdd, .mixMergeOvr, .mixNote n, .mixAll] →
    exec i s = .next t → t.code = 0 →
    t = { s with totdur := t.totdur, acc := t.acc, loc := t.loc, locNote := t.locNote, locTrack := t.locTrack,
                 result := if t.dv then 0x100 else 0x000, diag := t.diag,
                 status := if t.dv then s.status ||| 0x5 else s.status ||| 0x1, pc := ⟨.idle, 0, 0⟩ } ∧
    (t.dv = false → t.diag = s.diag) ∧
    (i ∈ [Instr.mixDur, .mixAlloc, .mixGen n, .mixMergeAdd, .mixMergeOvr] → t.dv = false) ∧
    (i ≠ .mixDur → t.totdur = s.totdur) ∧
    (i ∈ [Instr.mixDur, .mixAlloc, .mixMergeAdd, .mixMergeOvr] →
      t.loc = s.loc ∧ t.locNote = s.locNote ∧ t.locTrack = s.locTrack) ∧
    (i ≠ .mixAlloc → t.acc.length = s.acc.length) ∧
    (i ∈ [Instr.mixDur, .mixGen n] → t.acc = s.acc) ∧
    (i ∈ [Instr.mixMergeAdd, .mixMergeOvr] →
      ∀ k, ¬ (s.mrgStart.toNat ≤ k ∧ k < s.mrgStart.toNat + s.mrgLen.toNat) → t.acc[k]? = s.acc[k]?) ∧
    (i = .mixNote n →
      ∀ k, ¬ (startOf s n ≤ k ∧ k < startOf s n + keptOf s n s.acc.length) → t.acc[k]? = s.acc[k]?) ∧
    (i = .mixAll →
      ∀ k, (∀ m, m < s.nnotes.toNat → ¬ (startOf s m ≤ k ∧ k < startOf s m + keptOf s m s.acc.length)) →
        t.acc[k]? = s.acc[k]?)

/-- The block is in the invariant right after reset (10_state R47). -/
def Obligations.InvariantHoldsAtReset : Prop := Inv Config.this State.reset

/-- Every step keeps the invariant: reserved bits read 0, RESULT holds a code, the song store stays in canonical form,
every F register and buffer element is a value of F, the buffers stay within their capacities, and "an ACC element ... is
never NaN" (41_mixer R134). -/
def Obligations.EveryStepKeepsTheInvariant : Prop :=
  ∀ s t : State, Inv Config.this s → step s = .next t → Inv Config.this t
end

