-- ==== Sys2Proof/Laws/Float.lean ====
section
/-! SUPPORT. The laws of the arithmetic of F: a rounded value is a value of the format, rounding leaves such values
alone, and rounding does not cross one. -/

namespace Sys2Proof.Machine

/-! ### The format's parameters -/

theorem prec_pos (f : FloatFmt) : 1 ≤ prec f := by cases f <;> decide

theorem unitBit_eq : Fl.unitBit = 1074 := Fl.unitBit.eq_1

theorem fl_unit_pos : 0 < Fl.unit := Nat.two_pow_pos _

theorem quantum_le_unitBit (f : FloatFmt) : quantum f ≤ Fl.unitBit := by rw [unitBit_eq]; cases f <;> decide

theorem prec_add_unitBit_lt (f : FloatFmt) : prec f + Fl.unitBit < rangeBit f := by
  rw [unitBit_eq]; cases f <;> decide

theorem quantum_le_ulpBit (f : FloatFmt) (m : Nat) : quantum f ≤ ulpBit f m := le_max_left _ _

theorem log2_le_log2 {m n : Nat} (h : m ≤ n) : m.log2 ≤ n.log2 := by
  rcases Nat.eq_zero_or_pos m with rfl | hm
  · simp
  · rw [Nat.le_log2 (by omega)]
    exact (Nat.log2_self_le (by omega)).trans h

theorem ulpBit_mono (f : FloatFmt) {m n : Nat} (h : m ≤ n) : ulpBit f m ≤ ulpBit f n := by
  have := log2_le_log2 h
  unfold ulpBit
  omega

/-! ### Magnitudes of the format -/

/-- The magnitude has at most P significant bits and is a multiple of the smallest positive value. -/
abbrev IsRep (f : FloatFmt) (m : Nat) : Prop := 2 ^ ulpBit f m ∣ m

theorem isRep_zero (f : FloatFmt) : IsRep f 0 := dvd_zero _

/-- A multiple of a power of two whose factor fits the precision is a magnitude of the format. -/
theorem isRep_mul_pow {f : FloatFmt} {k e : Nat} (hk : k ≤ 2 ^ prec f) (he : quantum f ≤ e) : IsRep f (k * 2 ^ e) := by
  rcases Nat.eq_zero_or_pos k with rfl | hpos
  · simp
  rcases hk.lt_or_eq with hlt | rfl
  · have hlog : (k * 2 ^ e).log2 < prec f + e := by
      rw [Nat.log2_lt (Nat.mul_ne_zero (by omega) (by positivity)), pow_add]
      exact Nat.mul_lt_mul_of_pos_right hlt (by positivity)
    have hu : ulpBit f (k * 2 ^ e) ≤ e := by unfold ulpBit; omega
    exact (pow_dvd_pow 2 hu).mul_left k
  · rw [IsRep, ← pow_add]
    have hu : ulpBit f (2 ^ (prec f + e)) ≤ prec f + e := by
      have := prec_pos f
      unfold ulpBit
      rw [Nat.log2_two_pow]
      omega
    exact pow_dvd_pow 2 hu

/-- The quotient of a magnitude by its last place fits the precision. -/
theorem div_ulp_lt (f : FloatFmt) (n : Nat) : n / 2 ^ ulpBit f n < 2 ^ prec f := by
  rw [Nat.div_lt_iff_lt_mul (by positivity), ← pow_add]
  refine Nat.lt_log2_self.trans_le (Nat.pow_le_pow_right (by omega) ?_)
  unfold ulpBit
  omega

/-! ### Rounding -/

/-- What rounding does: the multiple of the last place below, or the one above where something was cut off. -/
theorem roundMag_cases (f : FloatFmt) (num den : Nat) (hden : 0 < den) :
    roundMag f num den = num / den / 2 ^ ulpBit f (num / den) * 2 ^ ulpBit f (num / den) ∨
    (num / den / 2 ^ ulpBit f (num / den) * 2 ^ ulpBit f (num / den) * den < num ∧
      roundMag f num den = (num / den / 2 ^ ulpBit f (num / den) + 1) * 2 ^ ulpBit f (num / den)) := by
  generalize hS : 2 ^ ulpBit f (num / den) = S
  have hq : num / (den * S) = num / den / S := (Nat.div_div_eq_div_mul _ _ _).symm
  have hpos : 0 < den * S := Nat.mul_pos hden (hS ▸ Nat.two_pow_pos _)
  unfold roundMag
  simp only [hS, hq]
  split
  · next h =>
    refine .inr ⟨?_, rfl⟩
    have hsum := Nat.div_add_mod num (den * S)
    rw [hq] at hsum
    have : den * S * (num / den / S) = num / den / S * S * den := by ring
    have : 0 < num % (den * S) := by omega
    omega
  · exact .inl rfl

/-- A rounded magnitude is a magnitude of the format. -/
theorem roundMag_isRep (f : FloatFmt) (num den : Nat) (hden : 0 < den) : IsRep f (roundMag f num den) := by
  have hlt := div_ulp_lt f (num / den)
  have hq := quantum_le_ulpBit f (num / den)
  rcases roundMag_cases f num den hden with h | ⟨-, h⟩ <;> rw [h]
  · exact isRep_mul_pow hlt.le hq
  · exact isRep_mul_pow hlt hq

/-- Rounding does not pass a magnitude of the format that lies above. -/
theorem roundMag_le {f : FloatFmt} {num den x : Nat} (hden : 0 < den) (hx : IsRep f x) (h : num ≤ x * den) :
    roundMag f num den ≤ x := by
  have hn : num / den ≤ x := by rw [Nat.div_le_iff_le_mul_add_pred hden, Nat.mul_comm]; omega
  rcases roundMag_cases f num den hden with hr | ⟨hlt, hr⟩ <;> rw [hr]
  · exact (Nat.div_mul_le_self _ _).trans hn
  · obtain ⟨k, hk⟩ := (pow_dvd_pow 2 (ulpBit_mono f hn)).trans hx
    rw [hk, Nat.mul_comm (2 ^ _) k]
    refine Nat.mul_le_mul_right _ ?_
    have h1 : num / den / 2 ^ ulpBit f (num / den) * 2 ^ ulpBit f (num / den) < x :=
      Nat.lt_of_mul_lt_mul_right (hlt.trans_le h)
    rw [hk, Nat.mul_comm (2 ^ _) k] at h1
    exact Nat.lt_of_mul_lt_mul_right h1

/-- Rounding does not pass a magnitude of the format that lies below. -/
theorem le_roundMag {f : FloatFmt} {num den x : Nat} (hden : 0 < den) (hx : IsRep f x) (h : x * den ≤ num) :
    x ≤ roundMag f num den := by
  have hn : x ≤ num / den := (Nat.le_div_iff_mul_le hden).2 h
  have hlow : num / den / 2 ^ ulpBit f (num / den) * 2 ^ ulpBit f (num / den) ≤ roundMag f num den := by
    rcases roundMag_cases f num den hden with hr | ⟨-, hr⟩ <;> rw [hr]
    exact Nat.mul_le_mul_right _ (Nat.le_succ _)
  refine le_trans ?_ hlow
  generalize num / den = n at hn
  rcases (ulpBit_mono f hn).eq_or_lt with hu | hu
  · obtain ⟨k, hk⟩ := hx
    rw [← hu]
    have : k ≤ n / 2 ^ ulpBit f x := by
      rw [Nat.le_div_iff_mul_le (by positivity), Nat.mul_comm, ← hk]
      exact hn
    calc x = k * 2 ^ ulpBit f x := by rw [Nat.mul_comm]; exact hk
      _ ≤ _ := Nat.mul_le_mul_right _ this
  · have hn0 : n ≠ 0 := by
      rintro rfl
      have : x = 0 := by omega
      simp [this] at hu
    have hlog : x.log2 < n.log2 := by
      have := log2_le_log2 hn
      unfold ulpBit at hu
      omega
    have hx2 : x < 2 ^ n.log2 := by
      rcases Nat.eq_zero_or_pos x with rfl | hx0
      · positivity
      · exact (Nat.log2_lt (by omega)).1 hlog
    have hul : ulpBit f n ≤ n.log2 := by
      have := prec_pos f
      have := quantum_le_ulpBit f x
      unfold ulpBit at *
      omega
    obtain ⟨k, hk⟩ := pow_dvd_pow 2 hul
    have hkn : k ≤ n / 2 ^ ulpBit f n := by
      rw [Nat.le_div_iff_mul_le (by positivity), Nat.mul_comm, ← hk]
      exact Nat.log2_self_le hn0
    calc x ≤ 2 ^ n.log2 := hx2.le
      _ = k * 2 ^ ulpBit f n := by rw [Nat.mul_comm]; exact hk
      _ ≤ _ := Nat.mul_le_mul_right _ hkn

/-- Rounding a magnitude of the format changes nothing: exact results stay exact. -/
theorem roundMag_exact {f : FloatFmt} {num den x : Nat} (hden : 0 < den) (hx : IsRep f x) (h : num = x * den) :
    roundMag f num den = x :=
  le_antisymm (roundMag_le hden hx h.le) (le_roundMag hden hx h.ge)

@[simp] theorem roundMag_zero (f : FloatFmt) {den : Nat} (hden : 0 < den) : roundMag f 0 den = 0 :=
  roundMag_exact hden (isRep_zero f) (by simp)

/-! ### Values of F -/

theorem inF_fin {f : FloatFmt} {s : Bool} {m : Nat} : inF f (.fin s m) = true ↔ m < 2 ^ rangeBit f ∧ IsRep f m := by
  simp [inF, Nat.dvd_iff_mod_eq_zero]

theorem pack_inF {f : FloatFmt} (s : Bool) {m : Nat} (h : IsRep f m) : inF f (pack f s m) = true := by
  unfold pack
  split
  · next hm => exact inF_fin.2 ⟨hm, h⟩
  · rfl

theorem roundInt_inF (f : FloatFmt) (z : Bool) (v : Int) : inF f (roundInt f z v) = true := by
  unfold roundInt
  split
  · exact inF_fin.2 ⟨by positivity, isRep_zero f⟩
  · exact pack_inF _ (roundMag_isRep f _ 1 one_pos)

/-- `fadd` gives values of F. -/
theorem fadd_inF {f : FloatFmt} (a b : Fl) : inF f (fadd f a b) = true := by
  unfold fadd
  split
  · exact roundInt_inF f _ _
  · split <;> rfl
  all_goals rfl

/-- `fsub` gives values of F. -/
theorem fsub_inF {f : FloatFmt} (a b : Fl) : inF f (fsub f a b) = true := fadd_inF _ _

/-- `fmul` gives values of F. -/
theorem fmul_inF {f : FloatFmt} (a b : Fl) : inF f (fmul f a b) = true := by
  unfold fmul
  split
  · exact pack_inF _ (roundMag_isRep f _ _ fl_unit_pos)
  · rfl
  · split <;> rfl
  · split <;> rfl
  all_goals rfl

/-- `fit` gives values of F. -/
theorem fit_inF {f : FloatFmt} (x : Fl) : inF f (fit f x) = true := by
  cases x
  · rfl
  · rfl
  · exact pack_inF _ (roundMag_isRep f _ 1 one_pos)

/-- `fit` leaves a value of F alone. -/
theorem fit_of_inF {f : FloatFmt} {x : Fl} (h : inF f x = true) : fit f x = x := by
  cases x with
  | nan => rfl
  | inf s => rfl
  | fin s m =>
    obtain ⟨hm, hr⟩ := inF_fin.1 h
    simp [fit, roundMag_exact one_pos hr (Nat.mul_one m).symm, pack, hm]

/-- `toF` gives values of F. -/
theorem toF_inF {f : FloatFmt} (n : Nat) : inF f (toF f n) = true := pack_inF _ (roundMag_isRep f _ 1 one_pos)

/-- An integer below 2^P is a value of F, in units. -/
theorem isRep_toF {f : FloatFmt} {n : Nat} (h : n ≤ 2 ^ prec f) : IsRep f (n * Fl.unit) :=
  isRep_mul_pow h (quantum_le_unitBit f)

theorem unit_mul_lt_range {f : FloatFmt} {n : Nat} (h : n ≤ 2 ^ prec f) : n * Fl.unit < 2 ^ rangeBit f := by
  have : n * Fl.unit ≤ 2 ^ (prec f + Fl.unitBit) := by rw [pow_add]; exact Nat.mul_le_mul_right _ h
  exact this.trans_lt (Nat.pow_lt_pow_right (by omega) (prec_add_unitBit_lt f))

/-- `toF` is exact up to 2^P (00_scope R9). -/
theorem toF_exact {f : FloatFmt} {n : Nat} (h : n ≤ 2 ^ prec f) : toF f n = .fin false (n * Fl.unit) := by
  simp [toF, roundMag_exact one_pos (isRep_toF h) (Nat.mul_one _).symm, pack, unit_mul_lt_range h]

theorem small_le_two_pow_prec (f : FloatFmt) {n : Nat} (h : n ≤ 2 ^ 24) : n ≤ 2 ^ prec f :=
  h.trans (Nat.pow_le_pow_right (by omega) (by cases f <;> decide))

@[simp] theorem toF_one (f : FloatFmt) : toF f 1 = Fl.one := by
  rw [toF_exact (small_le_two_pow_prec f (by omega)), Fl.one, Nat.one_mul]

theorem isRep_unit (f : FloatFmt) : IsRep f Fl.unit := by
  have := isRep_toF (small_le_two_pow_prec f (n := 1) (by omega))
  rwa [Nat.one_mul] at this

theorem unit_lt_range (f : FloatFmt) : Fl.unit < 2 ^ rangeBit f := by
  have := unit_mul_lt_range (small_le_two_pow_prec f (n := 1) (by omega))
  rwa [Nat.one_mul] at this

@[simp] theorem one_inF (f : FloatFmt) : inF f Fl.one = true := inF_fin.2 ⟨unit_lt_range f, isRep_unit f⟩
@[simp] theorem minusOne_inF (f : FloatFmt) : inF f Fl.minusOne = true := inF_fin.2 ⟨unit_lt_range f, isRep_unit f⟩
@[simp] theorem zero_inF (f : FloatFmt) : inF f Fl.zero = true := inF_fin.2 ⟨by positivity, isRep_zero f⟩

/-- `fmul` by a factor of magnitude at most 1 does not enlarge a value of F. -/
theorem fmul_unit_le {f : FloatFmt} {s t : Bool} {m n : Nat} (hm : inF f (.fin s m) = true) (hn : n ≤ Fl.unit) :
    ∃ k, k ≤ m ∧ fmul f (.fin s m) (.fin t n) = .fin (s != t) k := by
  obtain ⟨hr, hrep⟩ := inF_fin.1 hm
  have hle : roundMag f (m * n) Fl.unit ≤ m := roundMag_le fl_unit_pos hrep (Nat.mul_le_mul_left m hn)
  exact ⟨_, hle, by simp [fmul, pack, hle.trans_lt hr]⟩

/-- A finite value wherever `finite` says so. -/
theorem exists_fin_of_finite {x : Fl} (h : finite x = true) : ∃ s m, x = .fin s m := by
  cases x <;> simp_all [finite]

/-- Adding a finite value never makes a NaN (41_mixer R134). -/
theorem fadd_isnan_of_finite {f : FloatFmt} {a b : Fl} (ha : isnan a = false) (hb : finite b = true) :
    isnan (fadd f a b) = false := by
  obtain ⟨t, n, rfl⟩ := exists_fin_of_finite hb
  cases a with
  | nan => simp [isnan] at ha
  | inf s => rfl
  | fin s m =>
    simp only [fadd, roundInt, pack]
    split
    · rfl
    · split <;> rfl

/-- A value the register port brings is a value of F. -/
theorem ofBits_inF (f : FloatFmt) (w : BitVec 64) : inF f (ofBits f w) = true := by
  have hp := prec_pos f
  have hfrac : w.toNat % 2 ^ (prec f - 1) < 2 ^ (prec f - 1) := Nat.mod_lt _ (by positivity)
  have h2 : 2 ^ (prec f - 1) + 2 ^ (prec f - 1) = 2 ^ prec f := by
    rw [← Nat.two_mul, ← Nat.pow_succ', Nat.succ_eq_add_one, Nat.sub_add_cancel hp]
  have he : w.toNat / 2 ^ (prec f - 1) % 2 ^ expBits f < 2 ^ expBits f := Nat.mod_lt _ (by positivity)
  simp only [ofBits]
  generalize w.toNat % 2 ^ (prec f - 1) = frac at *
  generalize w.toNat / 2 ^ (prec f - 1) % 2 ^ expBits f = e at *
  have hrange : prec f + (2 ^ expBits f - 3) + quantum f = rangeBit f := by cases f <;> decide
  have hq2 : prec f + quantum f ≤ rangeBit f := by cases f <;> decide
  split
  · split <;> rfl
  · next hne =>
    split
    · refine inF_fin.2 ⟨?_, isRep_mul_pow (by omega) le_rfl⟩
      calc frac * 2 ^ quantum f < 2 ^ prec f * 2 ^ quantum f := Nat.mul_lt_mul_of_pos_right (by omega) (by positivity)
        _ = 2 ^ (prec f + quantum f) := (pow_add _ _ _).symm
        _ ≤ _ := Nat.pow_le_pow_right (by omega) hq2
    · rw [Nat.mul_assoc, ← pow_add]
      refine inF_fin.2 ⟨?_, isRep_mul_pow (by omega) (by omega)⟩
      calc (2 ^ (prec f - 1) + frac) * 2 ^ (e - 1 + quantum f)
          < 2 ^ prec f * 2 ^ (e - 1 + quantum f) := Nat.mul_lt_mul_of_pos_right (by omega) (by positivity)
        _ = 2 ^ (prec f + (e - 1 + quantum f)) := (pow_add _ _ _).symm
        _ ≤ _ := Nat.pow_le_pow_right (by omega) (by omega)

/-- Parity is the parity of the integer. -/
theorem odd_eq (x : Fl) : odd x = decide (Machine.toNat x % 2 = 1) := by
  cases x <;> rfl

/-! ### Exact operations -/

/-- Twice a magnitude of the format is one. -/
theorem isRep_double {f : FloatFmt} {m : Nat} (h : IsRep f m) : IsRep f (2 * m) := by
  rcases Nat.eq_zero_or_pos m with rfl | hm
  · simp
  have hlog : (2 * m).log2 < m.log2 + 2 := by
    rw [Nat.log2_lt (by omega), pow_succ']
    exact Nat.mul_lt_mul_of_pos_left Nat.lt_log2_self (by omega)
  have hu : ulpBit f (2 * m) ≤ ulpBit f m + 1 := by unfold ulpBit; omega
  exact (pow_dvd_pow 2 hu).trans (by rw [pow_succ']; exact mul_dvd_mul_left 2 h)

/-- What lies below the unit in a magnitude of the format is one. -/
theorem isRep_mod_unit {f : FloatFmt} {m : Nat} (h : IsRep f m) : IsRep f (m % Fl.unit) := by
  rcases Nat.le_total (ulpBit f m) Fl.unitBit with hu | hu
  · have hd : 2 ^ ulpBit f m ∣ m % Fl.unit := (Nat.dvd_mod_iff (pow_dvd_pow 2 hu)).2 h
    exact (pow_dvd_pow 2 (ulpBit_mono f (Nat.mod_le _ _))).trans hd
  · have h0 : m % Fl.unit = 0 := Nat.mod_eq_zero_of_dvd ((pow_dvd_pow 2 hu).trans h)
    rw [h0]
    exact isRep_zero f

/-- Every magnitude of the format below the unit is at most `1 - 2^-P`. -/
theorem isRep_lt_unit {f : FloatFmt} {r : Nat} (h : IsRep f r) (hr : r < Fl.unit) :
    r ≤ (2 ^ prec f - 1) * 2 ^ (Fl.unitBit - prec f) := by
  have hp : prec f < Fl.unitBit := by rw [unitBit_eq]; cases f <;> decide
  have hq : quantum f ≤ Fl.unitBit - prec f := by rw [unitBit_eq]; cases f <;> decide
  have hx : IsRep f (2 ^ prec f * 2 ^ (Fl.unitBit - prec f)) := isRep_mul_pow le_rfl hq
  have hunit : Fl.unit = 2 ^ prec f * 2 ^ (Fl.unitBit - prec f) := by
    rw [← pow_add, Nat.add_sub_cancel' hp.le]; rfl
  rcases Nat.lt_or_ge r (2 ^ (Fl.unitBit - 1)) with hsmall | hbig
  · refine hsmall.le.trans ?_
    have h1 : 2 ^ (Fl.unitBit - 1) = 2 ^ (prec f - 1) * 2 ^ (Fl.unitBit - prec f) := by
      rw [← pow_add]; congr 1; have := prec_pos f; omega
    rw [h1]
    refine Nat.mul_le_mul_right _ ?_
    have h2 : 2 ^ prec f = 2 * 2 ^ (prec f - 1) := by
      rw [← pow_succ']; congr 1; have := prec_pos f; omega
    have := Nat.one_le_two_pow (n := prec f - 1)
    omega
  · have hlog : Fl.unitBit - 1 ≤ r.log2 := (Nat.le_log2 (by have := Nat.two_pow_pos (Fl.unitBit - 1); omega)).2 hbig
    have hu : Fl.unitBit - prec f ≤ ulpBit f r := by unfold ulpBit; omega
    obtain ⟨k, hk⟩ := (pow_dvd_pow 2 hu).trans h
    rw [hk, Nat.mul_comm] at hr ⊢
    rw [hunit] at hr
    have : k < 2 ^ prec f := Nat.lt_of_mul_lt_mul_right hr
    exact Nat.mul_le_mul_right _ (by omega)

/-- `ffrac` of a value of F that is not negative is exact: what lies below the unit (00_scope R8). -/
theorem ffrac_fin {f : FloatFmt} {m : Nat} (h : inF f (.fin false m) = true) :
    ffrac f (.fin false m) = .fin false (m % Fl.unit) := by
  obtain ⟨-, hrep⟩ := inF_fin.1 h
  have hlt : m % Fl.unit < Fl.unit := Nat.mod_lt _ fl_unit_pos
  have hv : signed false m + signed (!false) (m / Fl.unit * Fl.unit) = ((m % Fl.unit : Nat) : Int) := by
    have := Nat.div_add_mod m Fl.unit
    simp only [signed, Bool.not_false, if_true, Bool.false_eq_true, if_false]
    rw [Nat.mul_comm] at this
    omega
  simp only [ffrac, fsub, ffloor, fneg, fadd, hv, roundInt]
  split
  · next h0 => simp [Int.natCast_eq_zero.1 h0]
  · rw [Int.natAbs_natCast, roundMag_exact one_pos (isRep_mod_unit hrep) (Nat.mul_one _).symm, pack,
      if_pos (hlt.trans (unit_lt_range f)), decide_eq_false (by omega)]

/-- `fadd(c, c)` is `2c`, exact but for the range (41_mixer R133). -/
theorem fadd_self {f : FloatFmt} {s : Bool} {m : Nat} (h : IsRep f m) :
    fadd f (.fin s m) (.fin s m) = if 2 * m < 2 ^ rangeBit f then .fin s (2 * m) else .inf s := by
  have hv : signed s m + signed s m = signed s (2 * m) := by cases s <;> simp [signed] <;> omega
  rw [fadd, hv, roundInt]
  rcases Nat.eq_zero_or_pos m with rfl | hm
  · cases s <;> simp [signed]
  · have h0 : signed s (2 * m) ≠ 0 := by cases s <;> simp [signed] <;> omega
    have hn : (signed s (2 * m)).natAbs = 2 * m := by
      unfold signed; split <;> omega
    have hs : decide (signed s (2 * m) < 0) = s := by
      cases s
      · simp [signed]
      · simp [signed]; omega
    rw [if_neg h0, hn, hs, roundMag_exact one_pos (isRep_double h) (Nat.mul_one _).symm, pack]

end Sys2Proof.Machine
end

