-- ==== Sys2Proof/Laws/State.lean ====
section
/-! SUPPORT. What each update of the state does to each field: one lemma a field an update, true by unfolding. -/

namespace Sys2Proof.Machine

variable (s : State)

@[simp] theorem State.setStatus_status (v : Word) : (s.setStatus v).status = v := rfl
@[simp] theorem State.setStatus_result (v : Word) : (s.setStatus v).result = s.result := rfl
@[simp] theorem State.setStatus_diag (v : Word) : (s.setStatus v).diag = s.diag := rfl
@[simp] theorem State.setStatus_srate (v : Word) : (s.setStatus v).srate = s.srate := rfl
@[simp] theorem State.setStatus_chmode (v : Word) : (s.setStatus v).chmode = s.chmode := rfl
@[simp] theorem State.setStatus_fmt (v : Word) : (s.setStatus v).fmt = s.fmt := rfl
@[simp] theorem State.setStatus_ntracks (v : Word) : (s.setStatus v).ntracks = s.ntracks := rfl
@[simp] theorem State.setStatus_nnotes (v : Word) : (s.setStatus v).nnotes = s.nnotes := rfl
@[simp] theorem State.setStatus_totdur (v : Word) : (s.setStatus v).totdur = s.totdur := rfl
@[simp] theorem State.setStatus_mrgStart (v : Word) : (s.setStatus v).mrgStart = s.mrgStart := rfl
@[simp] theorem State.setStatus_mrgLen (v : Word) : (s.setStatus v).mrgLen = s.mrgLen := rfl
@[simp] theorem State.setStatus_oscT (v : Word) : (s.setStatus v).oscT = s.oscT := rfl
@[simp] theorem State.setStatus_oscFreq (v : Word) : (s.setStatus v).oscFreq = s.oscFreq := rfl
@[simp] theorem State.setStatus_oscOut (v : Word) : (s.setStatus v).oscOut = s.oscOut := rfl
@[simp] theorem State.setStatus_qntIn (v : Word) : (s.setStatus v).qntIn = s.qntIn := rfl
@[simp] theorem State.setStatus_qntOut (v : Word) : (s.setStatus v).qntOut = s.qntOut := rfl
@[simp] theorem State.setStatus_bufIdx (v : Word) : (s.setStatus v).bufIdx = s.bufIdx := rfl
@[simp] theorem State.setStatus_song (v : Word) : (s.setStatus v).song = s.song := rfl
@[simp] theorem State.setStatus_acc (v : Word) : (s.setStatus v).acc = s.acc := rfl
@[simp] theorem State.setStatus_loc (v : Word) : (s.setStatus v).loc = s.loc := rfl
@[simp] theorem State.setStatus_locNote (v : Word) : (s.setStatus v).locNote = s.locNote := rfl
@[simp] theorem State.setStatus_locTrack (v : Word) : (s.setStatus v).locTrack = s.locTrack := rfl
@[simp] theorem State.setStatus_out (v : Word) : (s.setStatus v).out = s.out := rfl
@[simp] theorem State.setStatus_pc (v : Word) : (s.setStatus v).pc = s.pc := rfl
@[simp] theorem State.setStatus_env (v : Word) : (s.setStatus v).env = s.env := rfl

@[simp] theorem State.setResult_status (v : Word) : (s.setResult v).status = s.status := rfl
@[simp] theorem State.setResult_result (v : Word) : (s.setResult v).result = v := rfl
@[simp] theorem State.setResult_diag (v : Word) : (s.setResult v).diag = s.diag := rfl
@[simp] theorem State.setResult_srate (v : Word) : (s.setResult v).srate = s.srate := rfl
@[simp] theorem State.setResult_chmode (v : Word) : (s.setResult v).chmode = s.chmode := rfl
@[simp] theorem State.setResult_fmt (v : Word) : (s.setResult v).fmt = s.fmt := rfl
@[simp] theorem State.setResult_ntracks (v : Word) : (s.setResult v).ntracks = s.ntracks := rfl
@[simp] theorem State.setResult_nnotes (v : Word) : (s.setResult v).nnotes = s.nnotes := rfl
@[simp] theorem State.setResult_totdur (v : Word) : (s.setResult v).totdur = s.totdur := rfl
@[simp] theorem State.setResult_mrgStart (v : Word) : (s.setResult v).mrgStart = s.mrgStart := rfl
@[simp] theorem State.setResult_mrgLen (v : Word) : (s.setResult v).mrgLen = s.mrgLen := rfl
@[simp] theorem State.setResult_oscT (v : Word) : (s.setResult v).oscT = s.oscT := rfl
@[simp] theorem State.setResult_oscFreq (v : Word) : (s.setResult v).oscFreq = s.oscFreq := rfl
@[simp] theorem State.setResult_oscOut (v : Word) : (s.setResult v).oscOut = s.oscOut := rfl
@[simp] theorem State.setResult_qntIn (v : Word) : (s.setResult v).qntIn = s.qntIn := rfl
@[simp] theorem State.setResult_qntOut (v : Word) : (s.setResult v).qntOut = s.qntOut := rfl
@[simp] theorem State.setResult_bufIdx (v : Word) : (s.setResult v).bufIdx = s.bufIdx := rfl
@[simp] theorem State.setResult_song (v : Word) : (s.setResult v).song = s.song := rfl
@[simp] theorem State.setResult_acc (v : Word) : (s.setResult v).acc = s.acc := rfl
@[simp] theorem State.setResult_loc (v : Word) : (s.setResult v).loc = s.loc := rfl
@[simp] theorem State.setResult_locNote (v : Word) : (s.setResult v).locNote = s.locNote := rfl
@[simp] theorem State.setResult_locTrack (v : Word) : (s.setResult v).locTrack = s.locTrack := rfl
@[simp] theorem State.setResult_out (v : Word) : (s.setResult v).out = s.out := rfl
@[simp] theorem State.setResult_pc (v : Word) : (s.setResult v).pc = s.pc := rfl
@[simp] theorem State.setResult_env (v : Word) : (s.setResult v).env = s.env := rfl

@[simp] theorem State.setDiag_status (v : Word) : (s.setDiag v).status = s.status := rfl
@[simp] theorem State.setDiag_result (v : Word) : (s.setDiag v).result = s.result := rfl
@[simp] theorem State.setDiag_diag (v : Word) : (s.setDiag v).diag = v := rfl
@[simp] theorem State.setDiag_srate (v : Word) : (s.setDiag v).srate = s.srate := rfl
@[simp] theorem State.setDiag_chmode (v : Word) : (s.setDiag v).chmode = s.chmode := rfl
@[simp] theorem State.setDiag_fmt (v : Word) : (s.setDiag v).fmt = s.fmt := rfl
@[simp] theorem State.setDiag_ntracks (v : Word) : (s.setDiag v).ntracks = s.ntracks := rfl
@[simp] theorem State.setDiag_nnotes (v : Word) : (s.setDiag v).nnotes = s.nnotes := rfl
@[simp] theorem State.setDiag_totdur (v : Word) : (s.setDiag v).totdur = s.totdur := rfl
@[simp] theorem State.setDiag_mrgStart (v : Word) : (s.setDiag v).mrgStart = s.mrgStart := rfl
@[simp] theorem State.setDiag_mrgLen (v : Word) : (s.setDiag v).mrgLen = s.mrgLen := rfl
@[simp] theorem State.setDiag_oscT (v : Word) : (s.setDiag v).oscT = s.oscT := rfl
@[simp] theorem State.setDiag_oscFreq (v : Word) : (s.setDiag v).oscFreq = s.oscFreq := rfl
@[simp] theorem State.setDiag_oscOut (v : Word) : (s.setDiag v).oscOut = s.oscOut := rfl
@[simp] theorem State.setDiag_qntIn (v : Word) : (s.setDiag v).qntIn = s.qntIn := rfl
@[simp] theorem State.setDiag_qntOut (v : Word) : (s.setDiag v).qntOut = s.qntOut := rfl
@[simp] theorem State.setDiag_bufIdx (v : Word) : (s.setDiag v).bufIdx = s.bufIdx := rfl
@[simp] theorem State.setDiag_song (v : Word) : (s.setDiag v).song = s.song := rfl
@[simp] theorem State.setDiag_acc (v : Word) : (s.setDiag v).acc = s.acc := rfl
@[simp] theorem State.setDiag_loc (v : Word) : (s.setDiag v).loc = s.loc := rfl
@[simp] theorem State.setDiag_locNote (v : Word) : (s.setDiag v).locNote = s.locNote := rfl
@[simp] theorem State.setDiag_locTrack (v : Word) : (s.setDiag v).locTrack = s.locTrack := rfl
@[simp] theorem State.setDiag_out (v : Word) : (s.setDiag v).out = s.out := rfl
@[simp] theorem State.setDiag_pc (v : Word) : (s.setDiag v).pc = s.pc := rfl
@[simp] theorem State.setDiag_env (v : Word) : (s.setDiag v).env = s.env := rfl

@[simp] theorem State.setTotdur_status (v : Fl) : (s.setTotdur v).status = s.status := rfl
@[simp] theorem State.setTotdur_result (v : Fl) : (s.setTotdur v).result = s.result := rfl
@[simp] theorem State.setTotdur_diag (v : Fl) : (s.setTotdur v).diag = s.diag := rfl
@[simp] theorem State.setTotdur_srate (v : Fl) : (s.setTotdur v).srate = s.srate := rfl
@[simp] theorem State.setTotdur_chmode (v : Fl) : (s.setTotdur v).chmode = s.chmode := rfl
@[simp] theorem State.setTotdur_fmt (v : Fl) : (s.setTotdur v).fmt = s.fmt := rfl
@[simp] theorem State.setTotdur_ntracks (v : Fl) : (s.setTotdur v).ntracks = s.ntracks := rfl
@[simp] theorem State.setTotdur_nnotes (v : Fl) : (s.setTotdur v).nnotes = s.nnotes := rfl
@[simp] theorem State.setTotdur_totdur (v : Fl) : (s.setTotdur v).totdur = v := rfl
@[simp] theorem State.setTotdur_mrgStart (v : Fl) : (s.setTotdur v).mrgStart = s.mrgStart := rfl
@[simp] theorem State.setTotdur_mrgLen (v : Fl) : (s.setTotdur v).mrgLen = s.mrgLen := rfl
@[simp] theorem State.setTotdur_oscT (v : Fl) : (s.setTotdur v).oscT = s.oscT := rfl
@[simp] theorem State.setTotdur_oscFreq (v : Fl) : (s.setTotdur v).oscFreq = s.oscFreq := rfl
@[simp] theorem State.setTotdur_oscOut (v : Fl) : (s.setTotdur v).oscOut = s.oscOut := rfl
@[simp] theorem State.setTotdur_qntIn (v : Fl) : (s.setTotdur v).qntIn = s.qntIn := rfl
@[simp] theorem State.setTotdur_qntOut (v : Fl) : (s.setTotdur v).qntOut = s.qntOut := rfl
@[simp] theorem State.setTotdur_bufIdx (v : Fl) : (s.setTotdur v).bufIdx = s.bufIdx := rfl
@[simp] theorem State.setTotdur_song (v : Fl) : (s.setTotdur v).song = s.song := rfl
@[simp] theorem State.setTotdur_acc (v : Fl) : (s.setTotdur v).acc = s.acc := rfl
@[simp] theorem State.setTotdur_loc (v : Fl) : (s.setTotdur v).loc = s.loc := rfl
@[simp] theorem State.setTotdur_locNote (v : Fl) : (s.setTotdur v).locNote = s.locNote := rfl
@[simp] theorem State.setTotdur_locTrack (v : Fl) : (s.setTotdur v).locTrack = s.locTrack := rfl
@[simp] theorem State.setTotdur_out (v : Fl) : (s.setTotdur v).out = s.out := rfl
@[simp] theorem State.setTotdur_pc (v : Fl) : (s.setTotdur v).pc = s.pc := rfl
@[simp] theorem State.setTotdur_env (v : Fl) : (s.setTotdur v).env = s.env := rfl

@[simp] theorem State.setOscOut_status (v : Fl) : (s.setOscOut v).status = s.status := rfl
@[simp] theorem State.setOscOut_result (v : Fl) : (s.setOscOut v).result = s.result := rfl
@[simp] theorem State.setOscOut_diag (v : Fl) : (s.setOscOut v).diag = s.diag := rfl
@[simp] theorem State.setOscOut_srate (v : Fl) : (s.setOscOut v).srate = s.srate := rfl
@[simp] theorem State.setOscOut_chmode (v : Fl) : (s.setOscOut v).chmode = s.chmode := rfl
@[simp] theorem State.setOscOut_fmt (v : Fl) : (s.setOscOut v).fmt = s.fmt := rfl
@[simp] theorem State.setOscOut_ntracks (v : Fl) : (s.setOscOut v).ntracks = s.ntracks := rfl
@[simp] theorem State.setOscOut_nnotes (v : Fl) : (s.setOscOut v).nnotes = s.nnotes := rfl
@[simp] theorem State.setOscOut_totdur (v : Fl) : (s.setOscOut v).totdur = s.totdur := rfl
@[simp] theorem State.setOscOut_mrgStart (v : Fl) : (s.setOscOut v).mrgStart = s.mrgStart := rfl
@[simp] theorem State.setOscOut_mrgLen (v : Fl) : (s.setOscOut v).mrgLen = s.mrgLen := rfl
@[simp] theorem State.setOscOut_oscT (v : Fl) : (s.setOscOut v).oscT = s.oscT := rfl
@[simp] theorem State.setOscOut_oscFreq (v : Fl) : (s.setOscOut v).oscFreq = s.oscFreq := rfl
@[simp] theorem State.setOscOut_oscOut (v : Fl) : (s.setOscOut v).oscOut = v := rfl
@[simp] theorem State.setOscOut_qntIn (v : Fl) : (s.setOscOut v).qntIn = s.qntIn := rfl
@[simp] theorem State.setOscOut_qntOut (v : Fl) : (s.setOscOut v).qntOut = s.qntOut := rfl
@[simp] theorem State.setOscOut_bufIdx (v : Fl) : (s.setOscOut v).bufIdx = s.bufIdx := rfl
@[simp] theorem State.setOscOut_song (v : Fl) : (s.setOscOut v).song = s.song := rfl
@[simp] theorem State.setOscOut_acc (v : Fl) : (s.setOscOut v).acc = s.acc := rfl
@[simp] theorem State.setOscOut_loc (v : Fl) : (s.setOscOut v).loc = s.loc := rfl
@[simp] theorem State.setOscOut_locNote (v : Fl) : (s.setOscOut v).locNote = s.locNote := rfl
@[simp] theorem State.setOscOut_locTrack (v : Fl) : (s.setOscOut v).locTrack = s.locTrack := rfl
@[simp] theorem State.setOscOut_out (v : Fl) : (s.setOscOut v).out = s.out := rfl
@[simp] theorem State.setOscOut_pc (v : Fl) : (s.setOscOut v).pc = s.pc := rfl
@[simp] theorem State.setOscOut_env (v : Fl) : (s.setOscOut v).env = s.env := rfl

@[simp] theorem State.setQntOut_status (v : Word) : (s.setQntOut v).status = s.status := rfl
@[simp] theorem State.setQntOut_result (v : Word) : (s.setQntOut v).result = s.result := rfl
@[simp] theorem State.setQntOut_diag (v : Word) : (s.setQntOut v).diag = s.diag := rfl
@[simp] theorem State.setQntOut_srate (v : Word) : (s.setQntOut v).srate = s.srate := rfl
@[simp] theorem State.setQntOut_chmode (v : Word) : (s.setQntOut v).chmode = s.chmode := rfl
@[simp] theorem State.setQntOut_fmt (v : Word) : (s.setQntOut v).fmt = s.fmt := rfl
@[simp] theorem State.setQntOut_ntracks (v : Word) : (s.setQntOut v).ntracks = s.ntracks := rfl
@[simp] theorem State.setQntOut_nnotes (v : Word) : (s.setQntOut v).nnotes = s.nnotes := rfl
@[simp] theorem State.setQntOut_totdur (v : Word) : (s.setQntOut v).totdur = s.totdur := rfl
@[simp] theorem State.setQntOut_mrgStart (v : Word) : (s.setQntOut v).mrgStart = s.mrgStart := rfl
@[simp] theorem State.setQntOut_mrgLen (v : Word) : (s.setQntOut v).mrgLen = s.mrgLen := rfl
@[simp] theorem State.setQntOut_oscT (v : Word) : (s.setQntOut v).oscT = s.oscT := rfl
@[simp] theorem State.setQntOut_oscFreq (v : Word) : (s.setQntOut v).oscFreq = s.oscFreq := rfl
@[simp] theorem State.setQntOut_oscOut (v : Word) : (s.setQntOut v).oscOut = s.oscOut := rfl
@[simp] theorem State.setQntOut_qntIn (v : Word) : (s.setQntOut v).qntIn = s.qntIn := rfl
@[simp] theorem State.setQntOut_qntOut (v : Word) : (s.setQntOut v).qntOut = v := rfl
@[simp] theorem State.setQntOut_bufIdx (v : Word) : (s.setQntOut v).bufIdx = s.bufIdx := rfl
@[simp] theorem State.setQntOut_song (v : Word) : (s.setQntOut v).song = s.song := rfl
@[simp] theorem State.setQntOut_acc (v : Word) : (s.setQntOut v).acc = s.acc := rfl
@[simp] theorem State.setQntOut_loc (v : Word) : (s.setQntOut v).loc = s.loc := rfl
@[simp] theorem State.setQntOut_locNote (v : Word) : (s.setQntOut v).locNote = s.locNote := rfl
@[simp] theorem State.setQntOut_locTrack (v : Word) : (s.setQntOut v).locTrack = s.locTrack := rfl
@[simp] theorem State.setQntOut_out (v : Word) : (s.setQntOut v).out = s.out := rfl
@[simp] theorem State.setQntOut_pc (v : Word) : (s.setQntOut v).pc = s.pc := rfl
@[simp] theorem State.setQntOut_env (v : Word) : (s.setQntOut v).env = s.env := rfl

@[simp] theorem State.setAcc_status (v : List Fl) : (s.setAcc v).status = s.status := rfl
@[simp] theorem State.setAcc_result (v : List Fl) : (s.setAcc v).result = s.result := rfl
@[simp] theorem State.setAcc_diag (v : List Fl) : (s.setAcc v).diag = s.diag := rfl
@[simp] theorem State.setAcc_srate (v : List Fl) : (s.setAcc v).srate = s.srate := rfl
@[simp] theorem State.setAcc_chmode (v : List Fl) : (s.setAcc v).chmode = s.chmode := rfl
@[simp] theorem State.setAcc_fmt (v : List Fl) : (s.setAcc v).fmt = s.fmt := rfl
@[simp] theorem State.setAcc_ntracks (v : List Fl) : (s.setAcc v).ntracks = s.ntracks := rfl
@[simp] theorem State.setAcc_nnotes (v : List Fl) : (s.setAcc v).nnotes = s.nnotes := rfl
@[simp] theorem State.setAcc_totdur (v : List Fl) : (s.setAcc v).totdur = s.totdur := rfl
@[simp] theorem State.setAcc_mrgStart (v : List Fl) : (s.setAcc v).mrgStart = s.mrgStart := rfl
@[simp] theorem State.setAcc_mrgLen (v : List Fl) : (s.setAcc v).mrgLen = s.mrgLen := rfl
@[simp] theorem State.setAcc_oscT (v : List Fl) : (s.setAcc v).oscT = s.oscT := rfl
@[simp] theorem State.setAcc_oscFreq (v : List Fl) : (s.setAcc v).oscFreq = s.oscFreq := rfl
@[simp] theorem State.setAcc_oscOut (v : List Fl) : (s.setAcc v).oscOut = s.oscOut := rfl
@[simp] theorem State.setAcc_qntIn (v : List Fl) : (s.setAcc v).qntIn = s.qntIn := rfl
@[simp] theorem State.setAcc_qntOut (v : List Fl) : (s.setAcc v).qntOut = s.qntOut := rfl
@[simp] theorem State.setAcc_bufIdx (v : List Fl) : (s.setAcc v).bufIdx = s.bufIdx := rfl
@[simp] theorem State.setAcc_song (v : List Fl) : (s.setAcc v).song = s.song := rfl
@[simp] theorem State.setAcc_acc (v : List Fl) : (s.setAcc v).acc = v := rfl
@[simp] theorem State.setAcc_loc (v : List Fl) : (s.setAcc v).loc = s.loc := rfl
@[simp] theorem State.setAcc_locNote (v : List Fl) : (s.setAcc v).locNote = s.locNote := rfl
@[simp] theorem State.setAcc_locTrack (v : List Fl) : (s.setAcc v).locTrack = s.locTrack := rfl
@[simp] theorem State.setAcc_out (v : List Fl) : (s.setAcc v).out = s.out := rfl
@[simp] theorem State.setAcc_pc (v : List Fl) : (s.setAcc v).pc = s.pc := rfl
@[simp] theorem State.setAcc_env (v : List Fl) : (s.setAcc v).env = s.env := rfl

@[simp] theorem State.setLoc_status (v : List Fl) (n t : Half) : (s.setLoc v n t).status = s.status := rfl
@[simp] theorem State.setLoc_result (v : List Fl) (n t : Half) : (s.setLoc v n t).result = s.result := rfl
@[simp] theorem State.setLoc_diag (v : List Fl) (n t : Half) : (s.setLoc v n t).diag = s.diag := rfl
@[simp] theorem State.setLoc_srate (v : List Fl) (n t : Half) : (s.setLoc v n t).srate = s.srate := rfl
@[simp] theorem State.setLoc_chmode (v : List Fl) (n t : Half) : (s.setLoc v n t).chmode = s.chmode := rfl
@[simp] theorem State.setLoc_fmt (v : List Fl) (n t : Half) : (s.setLoc v n t).fmt = s.fmt := rfl
@[simp] theorem State.setLoc_ntracks (v : List Fl) (n t : Half) : (s.setLoc v n t).ntracks = s.ntracks := rfl
@[simp] theorem State.setLoc_nnotes (v : List Fl) (n t : Half) : (s.setLoc v n t).nnotes = s.nnotes := rfl
@[simp] theorem State.setLoc_totdur (v : List Fl) (n t : Half) : (s.setLoc v n t).totdur = s.totdur := rfl
@[simp] theorem State.setLoc_mrgStart (v : List Fl) (n t : Half) : (s.setLoc v n t).mrgStart = s.mrgStart := rfl
@[simp] theorem State.setLoc_mrgLen (v : List Fl) (n t : Half) : (s.setLoc v n t).mrgLen = s.mrgLen := rfl
@[simp] theorem State.setLoc_oscT (v : List Fl) (n t : Half) : (s.setLoc v n t).oscT = s.oscT := rfl
@[simp] theorem State.setLoc_oscFreq (v : List Fl) (n t : Half) : (s.setLoc v n t).oscFreq = s.oscFreq := rfl
@[simp] theorem State.setLoc_oscOut (v : List Fl) (n t : Half) : (s.setLoc v n t).oscOut = s.oscOut := rfl
@[simp] theorem State.setLoc_qntIn (v : List Fl) (n t : Half) : (s.setLoc v n t).qntIn = s.qntIn := rfl
@[simp] theorem State.setLoc_qntOut (v : List Fl) (n t : Half) : (s.setLoc v n t).qntOut = s.qntOut := rfl
@[simp] theorem State.setLoc_bufIdx (v : List Fl) (n t : Half) : (s.setLoc v n t).bufIdx = s.bufIdx := rfl
@[simp] theorem State.setLoc_song (v : List Fl) (n t : Half) : (s.setLoc v n t).song = s.song := rfl
@[simp] theorem State.setLoc_acc (v : List Fl) (n t : Half) : (s.setLoc v n t).acc = s.acc := rfl
@[simp] theorem State.setLoc_loc (v : List Fl) (n t : Half) : (s.setLoc v n t).loc = v := rfl
@[simp] theorem State.setLoc_locNote (v : List Fl) (n t : Half) : (s.setLoc v n t).locNote = n := rfl
@[simp] theorem State.setLoc_locTrack (v : List Fl) (n t : Half) : (s.setLoc v n t).locTrack = t := rfl
@[simp] theorem State.setLoc_out (v : List Fl) (n t : Half) : (s.setLoc v n t).out = s.out := rfl
@[simp] theorem State.setLoc_pc (v : List Fl) (n t : Half) : (s.setLoc v n t).pc = s.pc := rfl
@[simp] theorem State.setLoc_env (v : List Fl) (n t : Half) : (s.setLoc v n t).env = s.env := rfl

@[simp] theorem State.setOut_status (v : List Byte) : (s.setOut v).status = s.status := rfl
@[simp] theorem State.setOut_result (v : List Byte) : (s.setOut v).result = s.result := rfl
@[simp] theorem State.setOut_diag (v : List Byte) : (s.setOut v).diag = s.diag := rfl
@[simp] theorem State.setOut_srate (v : List Byte) : (s.setOut v).srate = s.srate := rfl
@[simp] theorem State.setOut_chmode (v : List Byte) : (s.setOut v).chmode = s.chmode := rfl
@[simp] theorem State.setOut_fmt (v : List Byte) : (s.setOut v).fmt = s.fmt := rfl
@[simp] theorem State.setOut_ntracks (v : List Byte) : (s.setOut v).ntracks = s.ntracks := rfl
@[simp] theorem State.setOut_nnotes (v : List Byte) : (s.setOut v).nnotes = s.nnotes := rfl
@[simp] theorem State.setOut_totdur (v : List Byte) : (s.setOut v).totdur = s.totdur := rfl
@[simp] theorem State.setOut_mrgStart (v : List Byte) : (s.setOut v).mrgStart = s.mrgStart := rfl
@[simp] theorem State.setOut_mrgLen (v : List Byte) : (s.setOut v).mrgLen = s.mrgLen := rfl
@[simp] theorem State.setOut_oscT (v : List Byte) : (s.setOut v).oscT = s.oscT := rfl
@[simp] theorem State.setOut_oscFreq (v : List Byte) : (s.setOut v).oscFreq = s.oscFreq := rfl
@[simp] theorem State.setOut_oscOut (v : List Byte) : (s.setOut v).oscOut = s.oscOut := rfl
@[simp] theorem State.setOut_qntIn (v : List Byte) : (s.setOut v).qntIn = s.qntIn := rfl
@[simp] theorem State.setOut_qntOut (v : List Byte) : (s.setOut v).qntOut = s.qntOut := rfl
@[simp] theorem State.setOut_bufIdx (v : List Byte) : (s.setOut v).bufIdx = s.bufIdx := rfl
@[simp] theorem State.setOut_song (v : List Byte) : (s.setOut v).song = s.song := rfl
@[simp] theorem State.setOut_acc (v : List Byte) : (s.setOut v).acc = s.acc := rfl
@[simp] theorem State.setOut_loc (v : List Byte) : (s.setOut v).loc = s.loc := rfl
@[simp] theorem State.setOut_locNote (v : List Byte) : (s.setOut v).locNote = s.locNote := rfl
@[simp] theorem State.setOut_locTrack (v : List Byte) : (s.setOut v).locTrack = s.locTrack := rfl
@[simp] theorem State.setOut_out (v : List Byte) : (s.setOut v).out = v := rfl
@[simp] theorem State.setOut_pc (v : List Byte) : (s.setOut v).pc = s.pc := rfl
@[simp] theorem State.setOut_env (v : List Byte) : (s.setOut v).env = s.env := rfl

@[simp] theorem State.setPc_status (v : SeqPos) : (s.setPc v).status = s.status := rfl
@[simp] theorem State.setPc_result (v : SeqPos) : (s.setPc v).result = s.result := rfl
@[simp] theorem State.setPc_diag (v : SeqPos) : (s.setPc v).diag = s.diag := rfl
@[simp] theorem State.setPc_srate (v : SeqPos) : (s.setPc v).srate = s.srate := rfl
@[simp] theorem State.setPc_chmode (v : SeqPos) : (s.setPc v).chmode = s.chmode := rfl
@[simp] theorem State.setPc_fmt (v : SeqPos) : (s.setPc v).fmt = s.fmt := rfl
@[simp] theorem State.setPc_ntracks (v : SeqPos) : (s.setPc v).ntracks = s.ntracks := rfl
@[simp] theorem State.setPc_nnotes (v : SeqPos) : (s.setPc v).nnotes = s.nnotes := rfl
@[simp] theorem State.setPc_totdur (v : SeqPos) : (s.setPc v).totdur = s.totdur := rfl
@[simp] theorem State.setPc_mrgStart (v : SeqPos) : (s.setPc v).mrgStart = s.mrgStart := rfl
@[simp] theorem State.setPc_mrgLen (v : SeqPos) : (s.setPc v).mrgLen = s.mrgLen := rfl
@[simp] theorem State.setPc_oscT (v : SeqPos) : (s.setPc v).oscT = s.oscT := rfl
@[simp] theorem State.setPc_oscFreq (v : SeqPos) : (s.setPc v).oscFreq = s.oscFreq := rfl
@[simp] theorem State.setPc_oscOut (v : SeqPos) : (s.setPc v).oscOut = s.oscOut := rfl
@[simp] theorem State.setPc_qntIn (v : SeqPos) : (s.setPc v).qntIn = s.qntIn := rfl
@[simp] theorem State.setPc_qntOut (v : SeqPos) : (s.setPc v).qntOut = s.qntOut := rfl
@[simp] theorem State.setPc_bufIdx (v : SeqPos) : (s.setPc v).bufIdx = s.bufIdx := rfl
@[simp] theorem State.setPc_song (v : SeqPos) : (s.setPc v).song = s.song := rfl
@[simp] theorem State.setPc_acc (v : SeqPos) : (s.setPc v).acc = s.acc := rfl
@[simp] theorem State.setPc_loc (v : SeqPos) : (s.setPc v).loc = s.loc := rfl
@[simp] theorem State.setPc_locNote (v : SeqPos) : (s.setPc v).locNote = s.locNote := rfl
@[simp] theorem State.setPc_locTrack (v : SeqPos) : (s.setPc v).locTrack = s.locTrack := rfl
@[simp] theorem State.setPc_out (v : SeqPos) : (s.setPc v).out = s.out := rfl
@[simp] theorem State.setPc_pc (v : SeqPos) : (s.setPc v).pc = v := rfl
@[simp] theorem State.setPc_env (v : SeqPos) : (s.setPc v).env = s.env := rfl

@[simp] theorem State.setEnv_status (v : Env) : (s.setEnv v).status = s.status := rfl
@[simp] theorem State.setEnv_result (v : Env) : (s.setEnv v).result = s.result := rfl
@[simp] theorem State.setEnv_diag (v : Env) : (s.setEnv v).diag = s.diag := rfl
@[simp] theorem State.setEnv_srate (v : Env) : (s.setEnv v).srate = s.srate := rfl
@[simp] theorem State.setEnv_chmode (v : Env) : (s.setEnv v).chmode = s.chmode := rfl
@[simp] theorem State.setEnv_fmt (v : Env) : (s.setEnv v).fmt = s.fmt := rfl
@[simp] theorem State.setEnv_ntracks (v : Env) : (s.setEnv v).ntracks = s.ntracks := rfl
@[simp] theorem State.setEnv_nnotes (v : Env) : (s.setEnv v).nnotes = s.nnotes := rfl
@[simp] theorem State.setEnv_totdur (v : Env) : (s.setEnv v).totdur = s.totdur := rfl
@[simp] theorem State.setEnv_mrgStart (v : Env) : (s.setEnv v).mrgStart = s.mrgStart := rfl
@[simp] theorem State.setEnv_mrgLen (v : Env) : (s.setEnv v).mrgLen = s.mrgLen := rfl
@[simp] theorem State.setEnv_oscT (v : Env) : (s.setEnv v).oscT = s.oscT := rfl
@[simp] theorem State.setEnv_oscFreq (v : Env) : (s.setEnv v).oscFreq = s.oscFreq := rfl
@[simp] theorem State.setEnv_oscOut (v : Env) : (s.setEnv v).oscOut = s.oscOut := rfl
@[simp] theorem State.setEnv_qntIn (v : Env) : (s.setEnv v).qntIn = s.qntIn := rfl
@[simp] theorem State.setEnv_qntOut (v : Env) : (s.setEnv v).qntOut = s.qntOut := rfl
@[simp] theorem State.setEnv_bufIdx (v : Env) : (s.setEnv v).bufIdx = s.bufIdx := rfl
@[simp] theorem State.setEnv_song (v : Env) : (s.setEnv v).song = s.song := rfl
@[simp] theorem State.setEnv_acc (v : Env) : (s.setEnv v).acc = s.acc := rfl
@[simp] theorem State.setEnv_loc (v : Env) : (s.setEnv v).loc = s.loc := rfl
@[simp] theorem State.setEnv_locNote (v : Env) : (s.setEnv v).locNote = s.locNote := rfl
@[simp] theorem State.setEnv_locTrack (v : Env) : (s.setEnv v).locTrack = s.locTrack := rfl
@[simp] theorem State.setEnv_out (v : Env) : (s.setEnv v).out = s.out := rfl
@[simp] theorem State.setEnv_pc (v : Env) : (s.setEnv v).pc = s.pc := rfl
@[simp] theorem State.setEnv_env (v : Env) : (s.setEnv v).env = v := rfl

@[simp] theorem State.enter_status (p : Phase) : (s.enter p).status = s.status := rfl
@[simp] theorem State.enter_result (p : Phase) : (s.enter p).result = s.result := rfl
@[simp] theorem State.enter_diag (p : Phase) : (s.enter p).diag = s.diag := rfl
@[simp] theorem State.enter_srate (p : Phase) : (s.enter p).srate = s.srate := rfl
@[simp] theorem State.enter_chmode (p : Phase) : (s.enter p).chmode = s.chmode := rfl
@[simp] theorem State.enter_fmt (p : Phase) : (s.enter p).fmt = s.fmt := rfl
@[simp] theorem State.enter_ntracks (p : Phase) : (s.enter p).ntracks = s.ntracks := rfl
@[simp] theorem State.enter_nnotes (p : Phase) : (s.enter p).nnotes = s.nnotes := rfl
@[simp] theorem State.enter_totdur (p : Phase) : (s.enter p).totdur = s.totdur := rfl
@[simp] theorem State.enter_mrgStart (p : Phase) : (s.enter p).mrgStart = s.mrgStart := rfl
@[simp] theorem State.enter_mrgLen (p : Phase) : (s.enter p).mrgLen = s.mrgLen := rfl
@[simp] theorem State.enter_oscT (p : Phase) : (s.enter p).oscT = s.oscT := rfl
@[simp] theorem State.enter_oscFreq (p : Phase) : (s.enter p).oscFreq = s.oscFreq := rfl
@[simp] theorem State.enter_oscOut (p : Phase) : (s.enter p).oscOut = s.oscOut := rfl
@[simp] theorem State.enter_qntIn (p : Phase) : (s.enter p).qntIn = s.qntIn := rfl
@[simp] theorem State.enter_qntOut (p : Phase) : (s.enter p).qntOut = s.qntOut := rfl
@[simp] theorem State.enter_bufIdx (p : Phase) : (s.enter p).bufIdx = s.bufIdx := rfl
@[simp] theorem State.enter_song (p : Phase) : (s.enter p).song = s.song := rfl
@[simp] theorem State.enter_acc (p : Phase) : (s.enter p).acc = s.acc := rfl
@[simp] theorem State.enter_loc (p : Phase) : (s.enter p).loc = s.loc := rfl
@[simp] theorem State.enter_locNote (p : Phase) : (s.enter p).locNote = s.locNote := rfl
@[simp] theorem State.enter_locTrack (p : Phase) : (s.enter p).locTrack = s.locTrack := rfl
@[simp] theorem State.enter_out (p : Phase) : (s.enter p).out = s.out := rfl
@[simp] theorem State.enter_pc (p : Phase) : (s.enter p).pc = ⟨p, 0, 0⟩ := rfl
@[simp] theorem State.enter_env (p : Phase) : (s.enter p).env = s.env := rfl

@[simp] theorem State.raiseFlag_status (v : Word) : (s.raiseFlag v).status = s.status ||| v := rfl
@[simp] theorem State.raiseFlag_result (v : Word) : (s.raiseFlag v).result = s.result := rfl
@[simp] theorem State.raiseFlag_diag (v : Word) : (s.raiseFlag v).diag = s.diag := rfl
@[simp] theorem State.raiseFlag_srate (v : Word) : (s.raiseFlag v).srate = s.srate := rfl
@[simp] theorem State.raiseFlag_chmode (v : Word) : (s.raiseFlag v).chmode = s.chmode := rfl
@[simp] theorem State.raiseFlag_fmt (v : Word) : (s.raiseFlag v).fmt = s.fmt := rfl
@[simp] theorem State.raiseFlag_ntracks (v : Word) : (s.raiseFlag v).ntracks = s.ntracks := rfl
@[simp] theorem State.raiseFlag_nnotes (v : Word) : (s.raiseFlag v).nnotes = s.nnotes := rfl
@[simp] theorem State.raiseFlag_totdur (v : Word) : (s.raiseFlag v).totdur = s.totdur := rfl
@[simp] theorem State.raiseFlag_mrgStart (v : Word) : (s.raiseFlag v).mrgStart = s.mrgStart := rfl
@[simp] theorem State.raiseFlag_mrgLen (v : Word) : (s.raiseFlag v).mrgLen = s.mrgLen := rfl
@[simp] theorem State.raiseFlag_oscT (v : Word) : (s.raiseFlag v).oscT = s.oscT := rfl
@[simp] theorem State.raiseFlag_oscFreq (v : Word) : (s.raiseFlag v).oscFreq = s.oscFreq := rfl
@[simp] theorem State.raiseFlag_oscOut (v : Word) : (s.raiseFlag v).oscOut = s.oscOut := rfl
@[simp] theorem State.raiseFlag_qntIn (v : Word) : (s.raiseFlag v).qntIn = s.qntIn := rfl
@[simp] theorem State.raiseFlag_qntOut (v : Word) : (s.raiseFlag v).qntOut = s.qntOut := rfl
@[simp] theorem State.raiseFlag_bufIdx (v : Word) : (s.raiseFlag v).bufIdx = s.bufIdx := rfl
@[simp] theorem State.raiseFlag_song (v : Word) : (s.raiseFlag v).song = s.song := rfl
@[simp] theorem State.raiseFlag_acc (v : Word) : (s.raiseFlag v).acc = s.acc := rfl
@[simp] theorem State.raiseFlag_loc (v : Word) : (s.raiseFlag v).loc = s.loc := rfl
@[simp] theorem State.raiseFlag_locNote (v : Word) : (s.raiseFlag v).locNote = s.locNote := rfl
@[simp] theorem State.raiseFlag_locTrack (v : Word) : (s.raiseFlag v).locTrack = s.locTrack := rfl
@[simp] theorem State.raiseFlag_out (v : Word) : (s.raiseFlag v).out = s.out := rfl
@[simp] theorem State.raiseFlag_pc (v : Word) : (s.raiseFlag v).pc = s.pc := rfl
@[simp] theorem State.raiseFlag_env (v : Word) : (s.raiseFlag v).env = s.env := rfl

@[simp] theorem State.scramble_status (c : Config) : (s.scramble c).status =
    s.status := rfl
@[simp] theorem State.scramble_result (c : Config) : (s.scramble c).result =
    s.result := rfl
@[simp] theorem State.scramble_diag (c : Config) : (s.scramble c).diag =
    s.diag := rfl
@[simp] theorem State.scramble_srate (c : Config) : (s.scramble c).srate =
    s.srate := rfl
@[simp] theorem State.scramble_chmode (c : Config) : (s.scramble c).chmode =
    s.chmode := rfl
@[simp] theorem State.scramble_fmt (c : Config) : (s.scramble c).fmt =
    s.fmt := rfl
@[simp] theorem State.scramble_ntracks (c : Config) : (s.scramble c).ntracks =
    s.ntracks := rfl
@[simp] theorem State.scramble_nnotes (c : Config) : (s.scramble c).nnotes =
    s.nnotes := rfl
@[simp] theorem State.scramble_totdur (c : Config) : (s.scramble c).totdur =
    fit c.floatFmt (Config.afterTotdur s.env.draws s.result) := rfl
@[simp] theorem State.scramble_mrgStart (c : Config) : (s.scramble c).mrgStart =
    s.mrgStart := rfl
@[simp] theorem State.scramble_mrgLen (c : Config) : (s.scramble c).mrgLen =
    s.mrgLen := rfl
@[simp] theorem State.scramble_oscT (c : Config) : (s.scramble c).oscT =
    s.oscT := rfl
@[simp] theorem State.scramble_oscFreq (c : Config) : (s.scramble c).oscFreq =
    s.oscFreq := rfl
@[simp] theorem State.scramble_oscOut (c : Config) : (s.scramble c).oscOut =
    fit c.floatFmt (Config.afterOscOut s.env.draws s.result) := rfl
@[simp] theorem State.scramble_qntIn (c : Config) : (s.scramble c).qntIn =
    s.qntIn := rfl
@[simp] theorem State.scramble_qntOut (c : Config) : (s.scramble c).qntOut =
    Config.afterQntOut s.env.draws s.result := rfl
@[simp] theorem State.scramble_bufIdx (c : Config) : (s.scramble c).bufIdx =
    s.bufIdx := rfl
@[simp] theorem State.scramble_song (c : Config) : (s.scramble c).song =
    s.song := rfl
@[simp] theorem State.scramble_acc (c : Config) : (s.scramble c).acc =
    (Config.afterAcc s.env.draws s.result).map (fit c.floatFmt) := rfl
@[simp] theorem State.scramble_loc (c : Config) : (s.scramble c).loc =
    (Config.afterLoc s.env.draws s.result).map (fit c.floatFmt) := rfl
@[simp] theorem State.scramble_locNote (c : Config) : (s.scramble c).locNote =
    s.locNote := rfl
@[simp] theorem State.scramble_locTrack (c : Config) : (s.scramble c).locTrack =
    s.locTrack := rfl
@[simp] theorem State.scramble_out (c : Config) : (s.scramble c).out =
    Config.afterOut s.env.draws s.result := rfl
@[simp] theorem State.scramble_pc (c : Config) : (s.scramble c).pc =
    s.pc := rfl
@[simp] theorem State.scramble_env (c : Config) : (s.scramble c).env =
    { s.env with draws := s.env.draws + 1 } := rfl

/-! ### Reading the flags after an update of STATUS -/

@[simp] theorem State.setStatus_fatal (v : Word) : (s.setStatus v).fatal = v.getLsbD 1 := rfl
@[simp] theorem State.setStatus_rv (v : Word) : (s.setStatus v).rv = v.getLsbD 0 := rfl

end Sys2Proof.Machine
end

