-- ==== Sys2Proof/Laws/Ops.lean ====
section
/-! SUPPORT. What each shared operation of Machine/Ops.lean can do, once, so that callers cite it and do not unfold it. -/

namespace Sys2Proof.Machine

variable {α β : Type}

/-! ### Computations that may raise -/

@[simp] theorem require_true (r : Raise) : require true r = .ok () := rfl
@[simp] theorem require_false (r : Raise) : require false r = .error r := rfl

theorem require_of {b : Bool} (h : b = true) (r : Raise) : require b r = .ok () := by simp [h]
theorem require_of_not {b : Bool} (h : b = false) (r : Raise) : require b r = .error r := by simp [h]

/-- A test passes or raises what it was given. -/
theorem require_cases (b : Bool) (r : Raise) :
    (b = true ∧ require b r = .ok ()) ∨ (b = false ∧ require b r = .error r) := by
  cases b <;> simp

@[simp] theorem bind_ok (a : α) (g : α → Except Raise β) : (Except.ok a >>= g) = g a := rfl
@[simp] theorem bind_error (r : Raise) (g : α → Except Raise β) : (Except.error r >>= g) = .error r := rfl
@[simp] theorem pure_eq_ok (a : α) : (pure a : Except Raise α) = .ok a := rfl

/-- A sequence ends well exactly when both parts do. -/
theorem bind_eq_ok {x : Except Raise α} {g : α → Except Raise β} {b : β} :
    (x >>= g) = .ok b ↔ ∃ a, x = .ok a ∧ g a = .ok b := by
  cases x <;> simp

theorem require_eq_ok {b : Bool} {r : Raise} {u : Unit} : require b r = .ok u ↔ b = true := by cases b <;> simp

@[simp] theorem orElseRaise_some (a : α) (r : Raise) : orElseRaise (some a) r = .ok a := rfl
@[simp] theorem orElseRaise_none (r : Raise) : orElseRaise (none : Option α) r = .error r := rfl

theorem orElseRaise_eq_ok {x : Option α} {r : Raise} {a : α} : orElseRaise x r = .ok a ↔ x = some a := by
  cases x <;> simp

/-- Over a list on which every element has a value, `mapRaise` is `map`. -/
theorem mapRaise_of_ok {g : β → Except Raise α} {f : β → α} {l : List β} (h : ∀ b ∈ l, g b = .ok (f b)) :
    mapRaise g l = .ok (l.map f) := by
  induction l with
  | nil => rfl
  | cons b l ih => simp [mapRaise, h b (by simp), ih fun c hc => h c (by simp [hc])]

/-- Where `mapRaise` ends well, it has a value for every element, in order. -/
theorem mapRaise_eq_ok {g : β → Except Raise α} {l : List β} {as : List α} :
    mapRaise g l = .ok as ↔ List.Forall₂ (fun b a => g b = .ok a) l as := by
  induction l generalizing as with
  | nil => simp [mapRaise, eq_comm]
  | cons b l ih =>
    simp only [mapRaise, bind_eq_ok, pure_eq_ok, Except.ok.injEq, List.forall₂_cons_left_iff, ih]
    constructor
    · rintro ⟨a, ha, as', has, rfl⟩; exact ⟨a, as', ha, has, rfl⟩
    · rintro ⟨a, as', ha, has, rfl⟩; exact ⟨a, ha, as', has, rfl⟩

/-- Where `mapRaise` ends well, every element has a value, and every value comes from an element. -/
theorem mapRaise_mem {g : β → Except Raise α} {l : List β} {as : List α} (h : mapRaise g l = .ok as) :
    (∀ b ∈ l, ∃ a ∈ as, g b = .ok a) ∧ (∀ a ∈ as, ∃ b ∈ l, g b = .ok a) ∧ as.length = l.length := by
  replace h := mapRaise_eq_ok.1 h
  induction h with
  | nil => simp
  | cons hab _ ih =>
    refine ⟨?_, ?_, by simp [ih.2.2]⟩
    · intro b hb
      rcases List.mem_cons.1 hb with rfl | hb
      · exact ⟨_, by simp, hab⟩
      · obtain ⟨a, ha, e⟩ := ih.1 b hb
        exact ⟨a, by simp [ha], e⟩
    · intro a ha
      rcases List.mem_cons.1 ha with rfl | ha
      · exact ⟨_, by simp, hab⟩
      · obtain ⟨b, hb, e⟩ := ih.2.1 a ha
        exact ⟨b, by simp [hb], e⟩

/-- The first element that raises ends `mapRaise` with its raise. -/
theorem mapRaise_error {g : β → Except Raise α} {pre post : List β} {b : β} {r : Raise}
    (hpre : ∀ x ∈ pre, ∃ a, g x = .ok a) (hb : g b = .error r) : mapRaise g (pre ++ b :: post) = .error r := by
  induction pre with
  | nil => simp [mapRaise, hb]
  | cons x pre ih =>
    obtain ⟨a, ha⟩ := hpre x (by simp)
    simp [mapRaise, ha, ih fun y hy => hpre y (by simp [hy])]

/-- Where some element raises and every raise is the same, that raise ends `mapRaise`. -/
theorem mapRaise_error_const {g : β → Except Raise α} {l : List β} {r : Raise}
    (hg : ∀ x ∈ l, (∃ a, g x = .ok a) ∨ g x = .error r) (hx : ∃ x ∈ l, g x = .error r) :
    mapRaise g l = .error r := by
  induction l with
  | nil => simp at hx
  | cons y l ih =>
    rcases hg y (by simp) with ⟨a, ha⟩ | he
    · have hl : ∃ x ∈ l, g x = .error r := by
        obtain ⟨x, hx, hxe⟩ := hx
        rcases List.mem_cons.1 hx with rfl | hx
        · simp [ha] at hxe
        · exact ⟨x, hx, hxe⟩
      simp [mapRaise, ha, ih (fun x hx => hg x (by simp [hx])) hl]
    · simp [mapRaise, he]

/-! ### How parts of a command end -/

@[simp] theorem orRaise_ok (s : State) (a : α) (k : α → CmdEnd) : orRaise s (.ok a) k = k a := rfl
@[simp] theorem orRaise_error (s : State) (r : Raise) (k : α → CmdEnd) : orRaise s (.error r) k = raiseEnd s r := rfl

@[simp] theorem endOk_code (s : State) : (endOk s).code = .ok := rfl
@[simp] theorem endOk_wroteDiag (s : State) : (endOk s).wroteDiag = false := rfl
@[simp] theorem endOk_state (s : State) : (endOk s).state = s := rfl

@[simp] theorem raiseEnd_code (s : State) (r : Raise) : (raiseEnd s r).code = r.code := by
  obtain ⟨c, _ | d⟩ := r <;> rfl

@[simp] theorem raiseEnd_none (s : State) (c : ResultCode) : raiseEnd s ⟨c, none⟩ = ⟨c, false, s⟩ := rfl
@[simp] theorem raiseEnd_some (s : State) (c : ResultCode) (track note : Nat) :
    raiseEnd s ⟨c, some (track, note)⟩ = ⟨c, true, s.setDiag (diagWord track note)⟩ := rfl

/-- After a part that ended well the rest runs. -/
@[simp] theorem andThen_mk_ok (dv : Bool) (s : State) (k : State → CmdEnd) :
    andThen ⟨.ok, dv, s⟩ k = ⟨(k s).code, dv || (k s).wroteDiag, (k s).state⟩ := by simp [andThen]

@[simp] theorem andThen_endOk (s : State) (k : State → CmdEnd) : andThen (endOk s) k = k s := by
  simp [endOk]

/-- A part that faulted ends the command. -/
theorem andThen_of_fault {e : CmdEnd} (h : e.code ≠ .ok) (k : State → CmdEnd) : andThen e k = e := by
  simp [andThen, h]

theorem andThen_of_ok {e : CmdEnd} (h : e.code = .ok) (k : State → CmdEnd) :
    andThen e k = ⟨(k e.state).code, e.wroteDiag || (k e.state).wroteDiag, (k e.state).state⟩ := by
  simp [andThen, h]

/-- Two parts end well exactly when each does. -/
theorem andThen_code_ok {e : CmdEnd} {k : State → CmdEnd} :
    (andThen e k).code = .ok ↔ e.code = .ok ∧ (k e.state).code = .ok := by
  by_cases h : e.code = .ok
  · simp [andThen_of_ok h, h]
  · simp [andThen_of_fault h, h]

/-! ### Completion (60_exceptions R204) -/

@[simp] theorem resultWord_ok (dv : Bool) : resultWord .ok dv = if dv then 0x100 else 0x000 := by cases dv <;> decide
@[simp] theorem resultWord_io (dv : Bool) : resultWord .io dv = if dv then 0x101 else 0x001 := by cases dv <;> decide
@[simp] theorem resultWord_mergeLen (dv : Bool) : resultWord .mergeLen dv = if dv then 0x102 else 0x002 := by cases dv <;> decide
@[simp] theorem resultWord_bounds (dv : Bool) : resultWord .bounds dv = if dv then 0x103 else 0x003 := by cases dv <;> decide
@[simp] theorem resultWord_illegal (dv : Bool) : resultWord .illegal dv = if dv then 0x104 else 0x004 := by cases dv <;> decide
@[simp] theorem resultWord_config (dv : Bool) : resultWord .config dv = if dv then 0x105 else 0x005 := by cases dv <;> decide
@[simp] theorem resultWord_desc (dv : Bool) : resultWord .desc dv = if dv then 0x106 else 0x006 := by cases dv <;> decide
@[simp] theorem resultWord_capacity (dv : Bool) : resultWord .capacity dv = if dv then 0x107 else 0x007 := by cases dv <;> decide
@[simp] theorem resultWord_numeric (dv : Bool) : resultWord .numeric dv = if dv then 0x108 else 0x008 := by cases dv <;> decide

/-- A command that ended OK completes with CODE 0 and nothing but RESULT, RV and the sequencer touched. -/
@[simp] theorem complete_ok (c : Config) (dv : Bool) (s : State) : complete c ⟨.ok, dv, s⟩ = s.done dv := by
  simp [complete, isFatal, statusAfter, flagRV, State.done, State.setResult, State.setStatus, State.setPc, SeqPos.idle]

@[simp] theorem complete_endOk (c : Config) (s : State) : complete c (endOk s) = s.done false := complete_ok c false s

/-- `E_IO` completes with CODE 1 and does not set FATAL. -/
theorem complete_io (c : Config) (dv : Bool) (s : State) :
    complete c ⟨.io, dv, s⟩ = { s with
      result := if dv then 0x101 else 0x001, status := s.status ||| 0x1, pc := ⟨.idle, 0, 0⟩ } := by
  simp [complete, isFatal, statusAfter, flagRV, State.setResult, State.setStatus, State.setPc, SeqPos.idle]

theorem status_or_fatal_rv (v : Word) : v ||| flagFatal ||| flagRV = v ||| 0x3 := by
  rw [BitVec.or_assoc]; rfl

/-- A fatal fault completes as 60_exceptions R204 and R206 say: the inputs and the host's side kept, the buffers free. -/
theorem complete_fatal {c : Config} {code : ResultCode} (h : isFatal code = true) (dv : Bool) (s s' : State)
    (hs : s'.status = s.status) (hk : KeepsInputs s s')
    (hh : s'.env.host = s.env.host) (hr : s'.env.reads = s.env.reads) (hl : s'.env.sinkLog = s.env.sinkLog) :
    FatalEnd s (complete c ⟨code, dv, s'⟩) (resultWord code dv) s'.diag where
  result := by simp [complete, h]
  diag := by simp [complete, h]
  status := by simp [complete, h, statusAfter, hs, status_or_fatal_rv]
  pc := by simp [complete, SeqPos.idle]
  inputs := by
    constructor <;> simp [complete, h, hk.song, hk.ntracks, hk.nnotes, hk.srate, hk.chmode, hk.fmt, hk.mrgStart,
      hk.mrgLen, hk.oscT, hk.oscFreq, hk.qntIn, hk.bufIdx]
  host := by simp [complete, h, hh]
  reads := by simp [complete, h, hr]
  sinkLog := by simp [complete, h, hl]

theorem KeepsInputs.rfl {s : State} : KeepsInputs s s := by constructor <;> exact Eq.refl _

theorem KeepsInputs.trans {s t u : State} (h : KeepsInputs s t) (k : KeepsInputs t u) : KeepsInputs s u where
  song := k.song.trans h.song
  ntracks := k.ntracks.trans h.ntracks
  nnotes := k.nnotes.trans h.nnotes
  srate := k.srate.trans h.srate
  chmode := k.chmode.trans h.chmode
  fmt := k.fmt.trans h.fmt
  mrgStart := k.mrgStart.trans h.mrgStart
  mrgLen := k.mrgLen.trans h.mrgLen
  oscT := k.oscT.trans h.oscT
  oscFreq := k.oscFreq.trans h.oscFreq
  qntIn := k.qntIn.trans h.qntIn
  bufIdx := k.bufIdx.trans h.bufIdx

/-- Completion keeps the inputs of the state the command's pseudocode left. -/
theorem complete_keepsInputs (c : Config) (e : CmdEnd) : KeepsInputs e.state (complete c e) := by
  unfold complete
  by_cases h : isFatal e.code <;> constructor <;> simp [h]

/-! ### Buffers and bytes -/

theorem memRead_length (l : List α) (a n : Nat) (h : a + n ≤ l.length) : (memRead l a n).length = n := by
  simp [memRead]; omega

theorem memWrite_length (l : List α) (a : Nat) (v : List α) (h : a + v.length ≤ l.length) :
    (memWrite l a v).length = l.length := by
  simp [memWrite]; omega

/-- A write at the end is an append: the cursor write of 43_serializer R161. -/
@[simp] theorem memWrite_end (l v : List α) : memWrite l l.length v = l ++ v := by
  simp [memWrite]

@[simp] theorem memRead_all (l : List α) : memRead l 0 l.length = l := by simp [memRead]

/-- What each element is after a write. -/
theorem memWrite_getElem? (l : List α) (a : Nat) (v : List α) (h : a + v.length ≤ l.length) (i : Nat) :
    (memWrite l a v)[i]? = if a ≤ i ∧ i < a + v.length then v[i - a]? else l[i]? := by
  simp only [memWrite, List.append_assoc, List.getElem?_append, List.length_take,
    List.getElem?_drop, List.getElem?_take]
  split_ifs <;> first | rfl | omega | (congr 1; omega)

@[simp] theorem le16_length (v : BitVec 16) : (le16 v).length = 2 := rfl
@[simp] theorem le32_length (v : BitVec 32) : (le32 v).length = 4 := rfl
@[simp] theorem le16s_length (v : Int) : (le16s v).length = 2 := rfl

/-- DIAG from a track field. -/
theorem diagWord_half (track : Half) (n : Nat) : diagWord track.toNat n = diagOf track n := by
  simp [diagWord, diagOf]

end Sys2Proof.Machine
end

