-- ==== Sys2Proof/Laws/Operands.lean ====
section
/-! SUPPORT. When the checks and the operand reads of Machine/Operands.lean pass, what they give and what they raise, in
the words of Safety.lean; and what they depend on. -/

namespace Sys2Proof.Machine

/-! ### The checks (41_mixer R121) -/

theorem checkCounts_ok {s : State} (h : CountsOk s) : checkCounts Config.this s = .ok () := by
  simp [checkCounts, h.1, h.2]

theorem checkCounts_error {s : State} (h : ¬ CountsOk s) : checkCounts Config.this s = .error ⟨.config, none⟩ := by
  refine require_of_not ?_ _
  simpa [CountsOk] using h

theorem checkRate_ok {s : State} (h : s.srate ≠ 0) : checkRate s = .ok () :=
  require_of (by simpa using h) _

theorem checkRate_error {s : State} (h : s.srate = 0) : checkRate s = .error ⟨.config, none⟩ := by
  simp [checkRate, h]

/-- The six tests are the six fields of `NoteValid`. -/
theorem noteTests_all {s : State} {n : Nat} : (noteTests Config.this s n).all id = true ↔ NoteValid s n := by
  simp only [noteTests, List.all_cons, List.all_nil, id_eq, Bool.and_eq_true, decide_eq_true_eq, and_true]
  constructor
  · rintro ⟨a, b, c, d, e, f⟩; exact ⟨a, b, c, d, e, f⟩
  · rintro ⟨a, b, c, d, e, f⟩; exact ⟨a, b, c, d, e, f⟩

theorem validateNote_ok {s : State} {n : Nat} (h : NoteValid s n) : validateNote Config.this s n = .ok () :=
  require_of (noteTests_all.2 h) _

theorem validateNote_error {s : State} {n : Nat} (h : ¬ NoteValid s n) :
    validateNote Config.this s n = .error ⟨.desc, some (trackOf Config.this s n, n)⟩ :=
  require_of_not (by rw [← Bool.not_eq_true, noteTests_all]; exact h) _

/-! ### Index arithmetic (41_mixer R124) -/

theorem noteLen_ok {s : State} {n : Nat} (h : finite (durProduct s n) = true) :
    noteLen Config.this s n = .ok (lenOf s n) := by
  change (require (finite (durProduct s n)) _ >>= fun _ => .ok (lenOf s n)) = _
  rw [require_of h]; rfl

theorem noteLen_error {s : State} {n : Nat} (h : finite (durProduct s n) = false) :
    noteLen Config.this s n = .error ⟨.numeric, some (trackOf Config.this s n, n)⟩ := by
  change (require (finite (durProduct s n)) _ >>= fun _ => .ok (lenOf s n)) = _
  rw [require_of_not h]; rfl

theorem noteStart_ok {s : State} {n : Nat} (h : finite (startProduct s n) = true) :
    noteStart Config.this s n = .ok (startOf s n) := by
  change (require (finite (startProduct s n)) _ >>= fun _ => .ok (startOf s n)) = _
  rw [require_of h]; rfl

theorem noteStart_error {s : State} {n : Nat} (h : finite (startProduct s n) = false) :
    noteStart Config.this s n = .error ⟨.numeric, some (trackOf Config.this s n, n)⟩ := by
  change (require (finite (startProduct s n)) _ >>= fun _ => .ok (startOf s n)) = _
  rw [require_of_not h]; rfl

theorem channels_eq (s : State) : channels s = countOf s := by
  unfold channels countOf
  cases s.chmode.getLsbD 0 <;> rfl

/-! ### What they depend on -/

/-- t holds the song, the counts and the rate of s: all that the Mixer's generation reads. -/
structure SameSong (s t : State) : Prop where
  song : t.song = s.song
  epoch : t.env.epoch = s.env.epoch
  ntracks : t.ntracks = s.ntracks
  nnotes : t.nnotes = s.nnotes
  srate : t.srate = s.srate

theorem SameSong.refl (s : State) : SameSong s s := ⟨rfl, rfl, rfl, rfl, rfl⟩

theorem SameSong.trans {s t u : State} (h : SameSong s t) (k : SameSong t u) : SameSong s u :=
  ⟨k.song.trans h.song, k.epoch.trans h.epoch, k.ntracks.trans h.ntracks, k.nnotes.trans h.nnotes,
    k.srate.trans h.srate⟩

variable {s t : State}

theorem trkAt_congr (h : SameSong s t) (j : Nat) : trkAt t j = trkAt s j := by simp [trkAt, h.song, h.epoch]

theorem noteAt_congr (h : SameSong s t) (c : Config) (n : Nat) : noteAt c t n = noteAt c s n := by
  simp [noteAt, fieldAt, h.song, h.epoch]

theorem trackOf_congr (h : SameSong s t) (c : Config) (n : Nat) : trackOf c t n = trackOf c s n := by
  simp [trackOf, noteAt_congr h]

theorem rateOf_congr (h : SameSong s t) (c : Config) : rateOf c t = rateOf c s := by simp [rateOf, h.srate]

theorem checkCounts_congr (h : SameSong s t) (c : Config) : checkCounts c t = checkCounts c s := by
  simp [checkCounts, h.ntracks, h.nnotes]

theorem checkRate_congr (h : SameSong s t) : checkRate t = checkRate s := by simp [checkRate, h.srate]

theorem validateNote_congr (h : SameSong s t) (c : Config) (n : Nat) : validateNote c t n = validateNote c s n := by
  simp [validateNote, noteTests, noteAt_congr h, trkAt_congr h, trackOf_congr h, h.ntracks]

theorem noteLen_congr (h : SameSong s t) (c : Config) (n : Nat) : noteLen c t n = noteLen c s n := by
  simp [noteLen, noteAt_congr h, trackOf_congr h, rateOf_congr h]

theorem noteStart_congr (h : SameSong s t) (c : Config) (n : Nat) : noteStart c t n = noteStart c s n := by
  simp [noteStart, noteAt_congr h, trackOf_congr h, rateOf_congr h]

theorem sampleTime_congr (h : SameSong s t) (c : Config) (i : Nat) : sampleTime c t i = sampleTime c s i := by
  simp [sampleTime, rateOf_congr h]

/-! The words of Safety.lean about a song say the same in every state that holds it. -/

theorem countsOk_congr (h : SameSong s t) : CountsOk t ↔ CountsOk s := by simp [CountsOk, h.ntracks, h.nnotes]

theorem noteValid_congr (h : SameSong s t) (n : Nat) : NoteValid t n ↔ NoteValid s n := by
  rw [← noteTests_all, ← noteTests_all]
  simp [noteTests, noteAt_congr h, trkAt_congr h, h.ntracks]

theorem endTime_congr (h : SameSong s t) (n : Nat) : endTime t n = endTime s n := by simp [endTime, noteAt_congr h]

theorem durProduct_congr (h : SameSong s t) (n : Nat) : durProduct t n = durProduct s n := by
  simp [durProduct, noteAt_congr h, h.srate]

theorem startProduct_congr (h : SameSong s t) (n : Nat) : startProduct t n = startProduct s n := by
  simp [startProduct, noteAt_congr h, h.srate]

theorem lenOf_congr (h : SameSong s t) (n : Nat) : lenOf t n = lenOf s n := by simp [lenOf, durProduct_congr h]

theorem startOf_congr (h : SameSong s t) (n : Nat) : startOf t n = startOf s n := by simp [startOf, startProduct_congr h]

theorem waveAt_congr (h : SameSong s t) (n i : Nat) : waveAt t n i = waveAt s n i := by
  simp [waveAt, noteAt_congr h, trkAt_congr h, h.srate]

theorem samplesOf_congr (h : SameSong s t) (n : Nat) : samplesOf t n = samplesOf s n := by
  have : waveAt t n = waveAt s n := funext (waveAt_congr h n)
  simp [samplesOf, lenOf_congr h, noteAt_congr h, this]

theorem keptOf_congr (h : SameSong s t) (n accLen : Nat) : keptOf t n accLen = keptOf s n accLen := by
  simp [keptOf, startOf_congr h, lenOf_congr h]

theorem withNote_congr (h : SameSong s t) (acc : List Fl) (n : Nat) : withNote t acc n = withNote s acc n := by
  simp [withNote, samplesOf_congr h, startOf_congr h, keptOf_congr h]

theorem clampsAt_congr (h : SameSong s t) (accLen n : Nat) : clampsAt t accLen n = clampsAt s accLen n := by
  simp [clampsAt, keptOf_congr h, lenOf_congr h]

theorem genOk_congr (h : SameSong s t) {n : Nat} (g : GenOk s n) : GenOk t n where
  counts := (countsOk_congr h).2 g.counts
  rate := by rw [h.srate]; exact g.rate
  index := by rw [h.nnotes]; exact g.index
  valid := (noteValid_congr h n).2 g.valid
  lenFinite := by rw [durProduct_congr h]; exact g.lenFinite
  fits := by rw [lenOf_congr h]; exact g.fits
  waves := by intro i hi; rw [waveAt_congr h]; exact g.waves i (by rwa [lenOf_congr h] at hi)

theorem SameSong.symm (h : SameSong s t) : SameSong t s :=
  ⟨h.song.symm, h.epoch.symm, h.ntracks.symm, h.nnotes.symm, h.srate.symm⟩

theorem SameSong.of_keepsInputs (h : KeepsInputs s t) (he : t.env.epoch = s.env.epoch) : SameSong s t :=
  ⟨h.song, he, h.ntracks, h.nnotes, h.srate⟩

end Sys2Proof.Machine
end

