-- ==== Sys2Proof/Laws/Units.lean ====
section
/-! SUPPORT. What the bodies of the commands can do, once: how each can end, and what it keeps however it ends. The exec
lemmas of Machine/ are one completion over these bodies. -/

namespace Sys2Proof.Machine

/-! ### What every body keeps -/

/-- What a command's pseudocode keeps however it ends (20_memory R65, 60_exceptions R203): the inputs, the surroundings,
every flag but CLAMPED, and DIAG unless it wrote it. -/
structure Keeps (s : State) (e : CmdEnd) : Prop where
  inputs : KeepsInputs s e.state
  env : e.state.env = s.env
  status : e.state.status = s.status ∨ e.state.status = s.status ||| 0x4
  silent : e.wroteDiag = false → e.state.diag = s.diag ∧ e.state.status = s.status

theorem Keeps.sameSong {s : State} {e : CmdEnd} (h : Keeps s e) : SameSong s e.state :=
  .of_keepsInputs h.inputs (by rw [h.env])

theorem Keeps.endOk {s t : State} (hi : KeepsInputs s t) (he : t.env = s.env) (hd : t.diag = s.diag)
    (hs : t.status = s.status) : Keeps s (endOk t) := ⟨hi, he, .inl hs, fun _ => ⟨hd, hs⟩⟩

theorem Keeps.raiseEnd {s t : State} (r : Raise) (hi : KeepsInputs s t) (he : t.env = s.env) (hd : t.diag = s.diag)
    (hs : t.status = s.status) : Keeps s (raiseEnd t r) := by
  obtain ⟨c, _ | ⟨track, note⟩⟩ := r
  · exact ⟨hi, he, .inl hs, fun _ => ⟨hd, hs⟩⟩
  · refine ⟨?_, he, .inl hs, by simp⟩
    constructor <;> simp [hi.song, hi.ntracks, hi.nnotes, hi.srate, hi.chmode, hi.fmt, hi.mrgStart,
      hi.mrgLen, hi.oscT, hi.oscFreq, hi.qntIn, hi.bufIdx]

theorem Keeps.orRaise {α : Type} {s t : State} {x : Except Raise α} {k : α → CmdEnd} (hi : KeepsInputs s t)
    (he : t.env = s.env) (hd : t.diag = s.diag) (hs : t.status = s.status) (hk : ∀ a, x = .ok a → Keeps s (k a)) :
    Keeps s (orRaise t x k) := by
  cases x with
  | ok a => exact hk a rfl
  | error r => exact .raiseEnd r hi he hd hs

theorem Keeps.trans {s : State} {e : CmdEnd} {k : State → CmdEnd} (h : Keeps s e) (hk : Keeps e.state (k e.state)) :
    Keeps s (andThen e k) := by
  by_cases hc : e.code = .ok
  · rw [andThen_of_ok hc]
    refine ⟨h.inputs.trans hk.inputs, hk.env.trans h.env, ?_, ?_⟩
    · rcases h.status with a | a <;> rcases hk.status with b | b <;> simp [a, b, BitVec.or_assoc]
    · intro hw
      rw [Bool.or_eq_false_iff] at hw
      exact ⟨(hk.silent hw.2).1.trans (h.silent hw.1).1, (hk.silent hw.2).2.trans (h.silent hw.1).2⟩
  · rw [andThen_of_fault hc]; exact h

theorem KeepsInputs.enter (s : State) (p : Phase) : KeepsInputs s (s.enter p) := by
  constructor <;> simp [State.enter]

/-! ### Every raise but `E_IO` is fatal (60_exceptions R200) -/

/-- Every raise of the computation is of the fatal class. -/
def Fatals {α : Type} (x : Except Raise α) : Prop := ∀ r, x = .error r → isFatal r.code = true

theorem Fatals.require {b : Bool} {r : Raise} (h : isFatal r.code = true) : Fatals (require b r) := by
  intro q hq; cases b
  · cases hq; exact h
  · cases hq

theorem Fatals.orElse {α : Type} {x : Option α} {r : Raise} (h : isFatal r.code = true) :
    Fatals (orElseRaise x r) := by
  intro q hq; cases x
  · cases hq; exact h
  · cases hq

theorem Fatals.ok {α : Type} (a : α) : Fatals (.ok a : Except Raise α) := by intro q hq; cases hq

theorem Fatals.bind {α β : Type} {x : Except Raise α} {g : α → Except Raise β} (hx : Fatals x) (hg : ∀ a, Fatals (g a)) :
    Fatals (x >>= g) := by
  cases x with
  | ok a => exact hg a
  | error r => intro q hq; cases hq; exact hx _ rfl

theorem Fatals.mapRaise {α β : Type} {g : β → Except Raise α} (hg : ∀ b, Fatals (g b)) (l : List β) :
    Fatals (mapRaise g l) := by
  induction l with
  | nil => exact .ok _
  | cons b l ih => exact .bind (hg b) fun _ => .bind ih fun _ => .ok _

/-- A command's pseudocode ended well or in a fatal fault. -/
def OkOrFatal (e : CmdEnd) : Prop := e.code = .ok ∨ isFatal e.code = true

theorem OkOrFatal.endOk (s : State) : OkOrFatal (endOk s) := .inl rfl

theorem OkOrFatal.orRaise {α : Type} {s : State} {x : Except Raise α} {k : α → CmdEnd} (hx : Fatals x)
    (hk : ∀ a, OkOrFatal (k a)) : OkOrFatal (orRaise s x k) := by
  cases x with
  | ok a => exact hk a
  | error r => exact .inr (by rw [orRaise_error, raiseEnd_code]; exact hx r rfl)

theorem OkOrFatal.andThen {e : CmdEnd} {k : State → CmdEnd} (h : OkOrFatal e) (hk : ∀ s, OkOrFatal (k s)) :
    OkOrFatal (andThen e k) := by
  by_cases hc : e.code = .ok
  · rw [andThen_of_ok hc]; exact hk _
  · rw [andThen_of_fault hc]; exact h

/-- A body that ended in a fatal fault, completed (60_exceptions R204, R206). -/
theorem Keeps.fatalEnd {s : State} {e : CmdEnd} (h : Keeps s e) (hs : e.state.status = s.status)
    (hf : isFatal e.code = true) (c : Config) :
    FatalEnd s (complete c e) (resultWord e.code e.wroteDiag) e.state.diag :=
  complete_fatal hf e.wroteDiag s e.state hs h.inputs (by rw [h.env]) (by rw [h.env]) (by rw [h.env])

/-- A raise in a state that keeps what s holds, completed. -/
theorem raiseEnd_fatalEnd {s t : State} {code : ResultCode} (hf : isFatal code = true) (c : Config)
    (hi : KeepsInputs s t) (he : t.env = s.env) (hd : t.diag = s.diag) (hs : t.status = s.status) :
    FatalEnd s (complete c (raiseEnd t ⟨code, none⟩)) (resultWord code false) s.diag := by
  have := (Keeps.raiseEnd ⟨code, none⟩ hi he hd hs).fatalEnd hs hf c
  rwa [← hd]

/-- A raise that names a note, completed. -/
theorem raiseEnd_fatalEnd_note {s t : State} {code : ResultCode} (hf : isFatal code = true) (c : Config)
    (track : Half) (n : Nat) (hi : KeepsInputs s t) (he : t.env = s.env) (hd : t.diag = s.diag)
    (hs : t.status = s.status) :
    FatalEnd s (complete c (raiseEnd t ⟨code, some (track.toNat, n)⟩)) (resultWord code true) (diagOf track n) := by
  rw [← diagWord_half]
  exact (Keeps.raiseEnd ⟨code, some (track.toNat, n)⟩ hi he hd hs).fatalEnd hs hf c

/-! ### The Oscillator and the Quantizer -/

theorem oscOp_keeps (wave : Fl → Fl → Option Fl) (s : State) : Keeps s (oscOp wave s) :=
  .orRaise .rfl rfl rfl rfl fun v _ => .endOk (by constructor <;> simp) rfl rfl rfl

theorem oscOp_ok {wave : Fl → Fl → Option Fl} {s : State} {v : Fl} (hd : inDom s.oscT s.oscFreq = true)
    (hv : wave s.oscT s.oscFreq = some v) : oscOp wave s = endOk (s.setOscOut v) := by
  simp [oscOp, hd, hv]

theorem oscOp_error {wave : Fl → Fl → Option Fl} {s : State}
    (h : inDom s.oscT s.oscFreq = false ∨ wave s.oscT s.oscFreq = none) : oscOp wave s = ⟨.numeric, false, s⟩ := by
  rcases h with h | h
  · simp [oscOp, h]
  · rcases require_cases (inDom s.oscT s.oscFreq) ⟨.numeric, none⟩ with ⟨-, h'⟩ | ⟨-, h'⟩ <;> simp [oscOp, h, h']

theorem inDom_eq_true {t f : Fl} :
    inDom t f = true ↔ finite t = true ∧ fle Fl.zero t = true ∧ finite f = true ∧ flt Fl.zero f = true := by
  simp [inDom, and_assoc]

/-- How a body of the Oscillator ends. -/
theorem oscOp_cases (wave : Fl → Fl → Option Fl) (s : State) :
    (∃ v, inDom s.oscT s.oscFreq = true ∧ wave s.oscT s.oscFreq = some v ∧ oscOp wave s = endOk (s.setOscOut v)) ∨
      oscOp wave s = ⟨.numeric, false, s⟩ := by
  cases hd : inDom s.oscT s.oscFreq with
  | false => exact .inr (oscOp_error (.inl hd))
  | true =>
    cases hv : wave s.oscT s.oscFreq with
    | none => exact .inr (oscOp_error (.inr hv))
    | some v => exact .inl ⟨v, rfl, rfl, oscOp_ok hd hv⟩

/-- How QNT.S ends. -/
theorem qntOp_cases (c : Config) (s : State) :
    (∃ v, quantize c s.qntIn = some v ∧ qntOp c s = endOk (s.setQntOut ((BitVec.ofInt 16 v).signExtend 32))) ∨
      (quantize c s.qntIn = none ∧ qntOp c s = ⟨.numeric, false, s⟩) := by
  cases h : quantize c s.qntIn with
  | none => exact .inr ⟨rfl, by simp [qntOp, h]⟩
  | some v => exact .inl ⟨v, rfl, by simp [qntOp, h]⟩

theorem qntOp_keeps (c : Config) (s : State) : Keeps s (qntOp c s) := by
  rcases qntOp_cases c s with ⟨v, -, h⟩ | ⟨-, h⟩ <;> rw [h]
  · exact .endOk (by constructor <;> simp) rfl rfl rfl
  · exact .raiseEnd ⟨.numeric, none⟩ .rfl rfl rfl rfl

/-! ### The Mixer -/

theorem noteEnd_ok {s : State} {n : Nat} (hv : NoteValid s n) (hf : finite (endTime s n) = true) :
    noteEnd Config.this s n = .ok (endTime s n) := by
  change (validateNote Config.this s n >>= fun _ => require (finite (endTime s n)) _ >>= fun _ => .ok (endTime s n)) = _
  rw [validateNote_ok hv, require_of hf]; rfl

theorem noteEnd_invalid {s : State} {n : Nat} (hv : ¬ NoteValid s n) :
    noteEnd Config.this s n = .error ⟨.desc, some (trackOf Config.this s n, n)⟩ := by
  simp [noteEnd, validateNote_error hv]

theorem noteEnd_overflow {s : State} {n : Nat} (hv : NoteValid s n) (hf : finite (endTime s n) = false) :
    noteEnd Config.this s n = .error ⟨.numeric, some (trackOf Config.this s n, n)⟩ := by
  change (validateNote Config.this s n >>= fun _ => require (finite (endTime s n)) _ >>= fun _ => .ok (endTime s n)) = _
  rw [validateNote_ok hv, require_of_not hf]; rfl

/-- When the end of a note has a value. -/
theorem noteEnd_eq_ok {s : State} {n : Nat} {x : Fl} :
    noteEnd Config.this s n = .ok x ↔ NoteValid s n ∧ finite (endTime s n) = true ∧ x = endTime s n := by
  by_cases hv : NoteValid s n
  · cases hf : finite (endTime s n) with
    | false => simp [noteEnd_overflow hv hf]
    | true => simp [noteEnd_ok hv hf, hv, eq_comm]
  · simp [noteEnd_invalid hv, hv]

theorem foldl_ends (s : State) (ns : List Nat) (m : Fl) :
    (ns.map (endTime s)).foldl fmax m = ns.foldl (fun m n => fmax m (endTime s n)) m := by
  rw [List.foldl_map]

theorem totalDuration_ok {s : State} (hc : CountsOk s)
    (hn : ∀ n, n < s.nnotes.toNat → NoteValid s n ∧ finite (endTime s n) = true) :
    totalDuration Config.this s =
      .ok ((List.range s.nnotes.toNat).foldl (fun m n => fmax m (endTime s n)) Fl.zero) := by
  have h : mapRaise (noteEnd Config.this s) (songNotes s) = .ok ((songNotes s).map (endTime s)) :=
    mapRaise_of_ok fun n hn' => noteEnd_ok (hn n (by simpa [songNotes] using hn')).1 (hn n (by simpa [songNotes] using hn')).2
  rw [totalDuration, checkCounts_ok hc, bind_ok, h, bind_ok, foldl_ends]
  rfl

/-- When the total duration has a value, and which. -/
theorem totalDuration_eq_ok {s : State} {x : Fl} :
    totalDuration Config.this s = .ok x ↔ CountsOk s ∧
      (∀ n, n < s.nnotes.toNat → NoteValid s n ∧ finite (endTime s n) = true) ∧
      x = (List.range s.nnotes.toNat).foldl (fun m n => fmax m (endTime s n)) Fl.zero := by
  constructor
  · intro h
    by_cases hc : CountsOk s
    · have hn : ∀ n, n < s.nnotes.toNat → NoteValid s n ∧ finite (endTime s n) = true := by
        simp only [totalDuration, checkCounts_ok hc, bind_ok, bind_eq_ok] at h
        obtain ⟨as, has, -⟩ := h
        intro n hn
        obtain ⟨a, -, ha⟩ := (mapRaise_mem has).1 n (by simpa [songNotes] using hn)
        exact ⟨(noteEnd_eq_ok.1 ha).1, (noteEnd_eq_ok.1 ha).2.1⟩
      rw [totalDuration_ok hc hn] at h
      exact ⟨hc, hn, by cases h; rfl⟩
    · simp [totalDuration, checkCounts_error hc] at h
  · rintro ⟨hc, hn, rfl⟩
    exact totalDuration_ok hc hn

theorem mixDurOp_keeps (c : Config) (s : State) : Keeps s (mixDurOp c s) :=
  .orRaise (.enter s _) rfl rfl rfl fun _ _ => .endOk (by constructor <;> simp [State.enter]) rfl rfl rfl

theorem mixAllocOp_keeps (c : Config) (s : State) : Keeps s (mixAllocOp c s) :=
  .orRaise (.enter s _) rfl rfl rfl fun _ _ => .endOk (by constructor <;> simp [State.enter]) rfl rfl rfl

/-- When the length of the buffer has a value, and which. -/
theorem bufferLength_eq_ok {s : State} {n : Nat} {p : Fl}
    (hp : p = fmul Config.this.floatFmt s.totdur (toF Config.this.floatFmt s.srate.toNat)) :
    bufferLength Config.this s = .ok n ↔
      s.srate ≠ 0 ∧ finite p = true ∧ toNat (fceil p) ≤ Config.this.accMax ∧ n = toNat (fceil p) := by
  subst hp
  have hdef : bufferLength Config.this s = (checkRate s >>= fun _ => require (finite _) _ >>= fun _ =>
    require (decide (_ ≤ _)) _ >>= fun _ => .ok _) := rfl
  rw [hdef]
  simp only [bind_eq_ok, checkRate, require_eq_ok, decide_eq_true_eq, rateOf, Except.ok.injEq]
  constructor
  · rintro ⟨-, h1, -, h2, -, h3, rfl⟩; exact ⟨h1, h2, of_decide_eq_true h3, rfl⟩
  · rintro ⟨h1, h2, h3, rfl⟩; exact ⟨(), h1, (), h2, (), decide_eq_true h3, rfl⟩

theorem bufferLength_ok {s : State} {p : Fl} (hr : s.srate ≠ 0)
    (hp : p = fmul Config.this.floatFmt s.totdur (toF Config.this.floatFmt s.srate.toNat)) (hf : finite p = true)
    (hc : toNat (fceil p) ≤ Config.this.accMax) : bufferLength Config.this s = .ok (toNat (fceil p)) :=
  (bufferLength_eq_ok hp).2 ⟨hr, hf, hc, rfl⟩

theorem contrib_eq_ok {s : State} {n i : Nat} {x : Fl} :
    contrib Config.this s n i = .ok x ↔
      ∃ v, waveAt s n i = some v ∧ x = fmul Config.this.floatFmt (noteAt Config.this s n).vol v := by
  change (orElseRaise (waveAt s n i) _ >>= fun v => .ok (fmul Config.this.floatFmt (noteAt Config.this s n).vol v)) = _ ↔ _
  cases waveAt s n i <;> simp [eq_comm]

theorem contrib_error {s : State} {n i : Nat} (h : waveAt s n i = none) :
    contrib Config.this s n i = .error ⟨.numeric, some (trackOf Config.this s n, n)⟩ := by
  change (orElseRaise (waveAt s n i) _ >>= fun v => .ok (fmul Config.this.floatFmt (noteAt Config.this s n).vol v)) = _
  rw [h]; rfl

theorem contrib_congr {s t : State} (h : SameSong s t) (c : Config) (n i : Nat) : contrib c t n i = contrib c s n i := by
  simp [contrib, trkAt_congr h, trackOf_congr h, sampleTime_congr h, noteAt_congr h]

/-- A song generates the same samples in every state that holds it. -/
theorem localSamples_congr {s t : State} (h : SameSong s t) (c : Config) (n : Nat) :
    localSamples c t n = localSamples c s n := by
  have : contrib c t n = contrib c s n := funext (contrib_congr h c n)
  simp [localSamples, checkCounts_congr h, checkRate_congr h, h.nnotes, validateNote_congr h, trackOf_congr h,
    noteLen_congr h, this]

theorem localSamples_ok {s : State} {n : Nat} (h : GenOk s n) : localSamples Config.this s n = .ok (samplesOf s n) := by
  have hm : mapRaise (contrib Config.this s n) (List.range (lenOf s n)) = .ok (samplesOf s n) :=
    mapRaise_of_ok fun i hi => by
      obtain ⟨v, hv⟩ := Option.isSome_iff_exists.1 (h.waves i (List.mem_range.1 hi))
      exact contrib_eq_ok.2 ⟨v, hv, by rw [hv]; rfl⟩
  rw [localSamples, checkCounts_ok h.counts, bind_ok, checkRate_ok h.rate, bind_ok, require_of (decide_eq_true h.index),
    bind_ok, validateNote_ok h.valid, bind_ok, noteLen_ok h.lenFinite, bind_ok, require_of (decide_eq_true h.fits),
    bind_ok, hm]

/-- The faults of MIX.GEN n in their order (41_mixer R126): the counts and the rate. -/
theorem localSamples_config {s : State} {n : Nat} (h : ¬ CountsOk s ∨ s.srate = 0) :
    localSamples Config.this s n = .error ⟨.config, none⟩ := by
  by_cases hc : CountsOk s
  · rw [localSamples, checkCounts_ok hc, bind_ok, checkRate_error (h.resolve_left (not_not.2 hc)), bind_error]
  · rw [localSamples, checkCounts_error hc, bind_error]

/-- Then a note index past the last note. -/
theorem localSamples_index {s : State} {n : Nat} (hc : CountsOk s) (hr : s.srate ≠ 0) (hn : s.nnotes.toNat ≤ n) :
    localSamples Config.this s n = .error ⟨.desc, some (0, n)⟩ := by
  rw [localSamples, checkCounts_ok hc, bind_ok, checkRate_ok hr, bind_ok, require_of_not (decide_eq_false (by omega)),
    bind_error]

/-- Then a note that is not valid. -/
theorem localSamples_invalid {s : State} {n : Nat} (hc : CountsOk s) (hr : s.srate ≠ 0) (hn : n < s.nnotes.toNat)
    (hv : ¬ NoteValid s n) : localSamples Config.this s n = .error ⟨.desc, some (trackOf Config.this s n, n)⟩ := by
  rw [localSamples, checkCounts_ok hc, bind_ok, checkRate_ok hr, bind_ok, require_of (decide_eq_true hn), bind_ok,
    validateNote_error hv, bind_error]

/-- Then a length that is not finite. -/
theorem localSamples_overflow {s : State} {n : Nat} (hc : CountsOk s) (hr : s.srate ≠ 0) (hn : n < s.nnotes.toNat)
    (hv : NoteValid s n) (hf : finite (durProduct s n) = false) :
    localSamples Config.this s n = .error ⟨.numeric, some (trackOf Config.this s n, n)⟩ := by
  rw [localSamples, checkCounts_ok hc, bind_ok, checkRate_ok hr, bind_ok, require_of (decide_eq_true hn), bind_ok,
    validateNote_ok hv, bind_ok, noteLen_error hf, bind_error]

/-- Then a length above `LOC_MAX`. -/
theorem localSamples_capacity {s : State} {n : Nat} (hc : CountsOk s) (hr : s.srate ≠ 0) (hn : n < s.nnotes.toNat)
    (hv : NoteValid s n) (hf : finite (durProduct s n) = true) (hl : Config.this.locMax < lenOf s n) :
    localSamples Config.this s n = .error ⟨.capacity, some (trackOf Config.this s n, n)⟩ := by
  rw [localSamples, checkCounts_ok hc, bind_ok, checkRate_ok hr, bind_ok, require_of (decide_eq_true hn), bind_ok,
    validateNote_ok hv, bind_ok, noteLen_ok hf, bind_ok, require_of_not (decide_eq_false (by omega)), bind_error]

/-- Then a sample with no value. -/
theorem localSamples_no_value {s : State} {n : Nat} (hc : CountsOk s) (hr : s.srate ≠ 0) (hn : n < s.nnotes.toNat)
    (hv : NoteValid s n) (hf : finite (durProduct s n) = true) (hl : lenOf s n ≤ Config.this.locMax)
    (hw : ∃ i, i < lenOf s n ∧ waveAt s n i = none) :
    localSamples Config.this s n = .error ⟨.numeric, some (trackOf Config.this s n, n)⟩ := by
  obtain ⟨i, hi, h⟩ := hw
  rw [localSamples, checkCounts_ok hc, bind_ok, checkRate_ok hr, bind_ok, require_of (decide_eq_true hn), bind_ok,
    validateNote_ok hv, bind_ok, noteLen_ok hf, bind_ok, require_of (decide_eq_true hl), bind_ok]
  refine mapRaise_error_const (fun i _ => ?_) ⟨i, List.mem_range.2 hi, contrib_error h⟩
  cases hv : waveAt s n i with
  | none => exact .inr (contrib_error hv)
  | some v => exact .inl ⟨_, contrib_eq_ok.2 ⟨v, hv, rfl⟩⟩

/-- MIX.GEN ends well exactly on the notes of `GenOk`, with their samples. -/
theorem localSamples_eq_ok {s : State} {n : Nat} {l : List Fl} :
    localSamples Config.this s n = .ok l ↔ GenOk s n ∧ l = samplesOf s n := by
  constructor
  · intro h
    have hg : GenOk s n := by
      by_cases h1 : CountsOk s
      · by_cases h2 : s.srate = 0
        · simp [localSamples, checkCounts_ok h1, checkRate_error h2] at h
        · by_cases h3 : n < s.nnotes.toNat
          · by_cases h4 : NoteValid s n
            · cases h5 : finite (durProduct s n) with
              | false =>
                simp [localSamples, checkCounts_ok h1, checkRate_ok h2, h3, validateNote_ok h4, noteLen_error h5] at h
              | true =>
                by_cases h6 : lenOf s n ≤ Config.this.locMax
                · simp [localSamples, checkCounts_ok h1, checkRate_ok h2, h3, validateNote_ok h4, noteLen_ok h5, h6] at h
                  refine ⟨h1, h2, h3, h4, h5, h6, fun i hi => ?_⟩
                  obtain ⟨a, -, ha⟩ := (mapRaise_mem h).1 i (List.mem_range.2 hi)
                  obtain ⟨v, hv, -⟩ := contrib_eq_ok.1 ha
                  simp [hv]
                · simp [localSamples, checkCounts_ok h1, checkRate_ok h2, h3, validateNote_ok h4, noteLen_ok h5, h6] at h
            · simp [localSamples, checkCounts_ok h1, checkRate_ok h2, h3, validateNote_error h4] at h
          · simp [localSamples, checkCounts_ok h1, checkRate_ok h2, h3] at h
      · simp [localSamples, checkCounts_error h1] at h
    refine ⟨hg, ?_⟩
    rw [localSamples_ok hg] at h
    cases h; rfl
  · rintro ⟨h, rfl⟩
    exact localSamples_ok h

/-- MIX.GEN where it faults. -/
theorem mixGenOp_error {s : State} {n : Nat} {r : Raise} (h : localSamples Config.this s n = .error r) :
    mixGenOp Config.this s n = raiseEnd (s.enter .mix) r := by rw [mixGenOp, h, orRaise_error]

theorem mixGenOp_keeps (c : Config) (s : State) (n : Nat) : Keeps s (mixGenOp c s n) :=
  .orRaise (.enter s _) rfl rfl rfl fun _ _ => .endOk (by constructor <;> simp [State.enter]) rfl rfl rfl

/-- The one element of a merge is the combine rule of Safety's `combined`. -/
theorem memWrite_zipWith (f : Fl → Fl → Fl) (acc source : List Fl) (start len : Nat) (h : start + len ≤ acc.length)
    (hs : len ≤ source.length) :
    memWrite acc start (List.zipWith f (memRead acc start len) (memRead source 0 len)) =
      combined f acc source start len := by
  have hlen : (List.zipWith f (memRead acc start len) (memRead source 0 len)).length = len := by
    simp [memRead]; omega
  apply List.ext_getElem?
  intro i
  rw [memWrite_getElem? _ _ _ (by omega), hlen]
  simp only [combined, List.getElem?_mapIdx]
  split
  · next hi =>
    have h1 : i - start < len := by omega
    have h2 : i - start < source.length := by omega
    have h3 : start + (i - start) = i := by omega
    have h4 : i < acc.length := by omega
    simp [memRead, List.getElem?_zipWith, h1, h2, h3, h4]
  · simp

theorem combined_length (f : Fl → Fl → Fl) (acc source : List Fl) (start len : Nat) :
    (combined f acc source start len).length = acc.length := by simp [combined]

theorem combined_zero (f : Fl → Fl → Fl) (acc source : List Fl) (start : Nat) :
    combined f acc source start 0 = acc := by
  apply List.ext_getElem?
  intro i
  have h : ¬ (start ≤ i ∧ i < start + 0) := by omega
  simp only [combined, List.getElem?_mapIdx, h, if_false]
  exact Option.map_id'

/-- A merge leaves every element outside its window. -/
theorem combined_outside (f : Fl → Fl → Fl) (acc source : List Fl) {start len k : Nat}
    (h : ¬ (start ≤ k ∧ k < start + len)) : (combined f acc source start len)[k]? = acc[k]? := by
  simp only [combined, List.getElem?_mapIdx, h, if_false]
  exact Option.map_id'

theorem mergeOp_ok {c : Config} {s : State} {ds dl sl : Nat} (how : Combine) (h1 : ds + dl ≤ s.acc.length)
    (h2 : dl = sl) (h3 : dl ≤ s.loc.length) :
    mergeOp c s ds dl sl how = endOk (s.setAcc (combined (combineWith c how) s.acc s.loc ds dl)) := by
  rw [mergeOp, require_of (decide_eq_true h1), bind_ok, require_of (decide_eq_true h2), orRaise_ok,
    memWrite_zipWith _ _ _ _ _ h1 h3]

theorem mergeOp_bounds {c : Config} {s : State} {ds dl sl : Nat} (how : Combine) (h1 : s.acc.length < ds + dl) :
    mergeOp c s ds dl sl how = ⟨.bounds, true, s.setDiag (s.locTrack ++ s.locNote)⟩ := by
  rw [mergeOp, require_of_not (decide_eq_false (by omega))]
  simp [diagWord]

theorem mergeOp_length {c : Config} {s : State} {ds dl sl : Nat} (how : Combine) (h1 : ds + dl ≤ s.acc.length)
    (h2 : dl ≠ sl) :
    mergeOp c s ds dl sl how = ⟨.mergeLen, true, s.setDiag (s.locTrack ++ s.locNote)⟩ := by
  rw [mergeOp, require_of (decide_eq_true h1), bind_ok, require_of_not (decide_eq_false h2)]
  simp [diagWord]

theorem mergeOp_keeps (c : Config) (s : State) (ds dl sl : Nat) (how : Combine) : Keeps s (mergeOp c s ds dl sl how) :=
  .orRaise .rfl rfl rfl rfl fun _ _ => .endOk (by constructor <;> simp) rfl rfl rfl

theorem mixMergeOp_keeps (c : Config) (how : Combine) (s : State) : Keeps s (mixMergeOp c how s) :=
  .orRaise (.enter s _) rfl rfl rfl fun _ _ => .endOk (by constructor <;> simp [State.enter]) rfl rfl rfl

theorem clampRecord_keeps (s : State) (track n : Nat) : Keeps s (clampRecord s track n) where
  inputs := by constructor <;> simp [clampRecord, State.raiseFlag]
  env := rfl
  status := .inr rfl
  silent := by simp [clampRecord]

theorem placeOp_keeps (c : Config) (s : State) (n start : Nat) : Keeps s (placeOp c s n start) := by
  unfold placeOp
  have h : Keeps s (if keptSamples start s.loc.length s.acc.length < s.loc.length then
      clampRecord s (trackOf c s n) n else Machine.endOk s) := by
    split
    · exact clampRecord_keeps _ _ _
    · exact .endOk .rfl rfl rfl rfl
  refine h.trans ?_
  generalize CmdEnd.state _ = s'
  split
  · exact mergeOp_keeps _ _ _ _ _ _
  · exact .endOk .rfl rfl rfl rfl

theorem mixNoteOp_keeps (c : Config) (s : State) (n : Nat) : Keeps s (mixNoteOp c s n) :=
  .trans (mixGenOp_keeps c s n) (.orRaise .rfl rfl rfl rfl fun _ _ => placeOp_keeps _ _ _ _)

theorem mixNotes_keeps (c : Config) (ns : List Nat) (s : State) : Keeps s (mixNotes c ns s) := by
  induction ns generalizing s with
  | nil => exact .endOk .rfl rfl rfl rfl
  | cons n ns ih => exact .trans (mixNoteOp_keeps c s n) (ih _)

theorem Keeps.of_enter {s : State} {p : Phase} {e : CmdEnd} (h : Keeps (s.enter p) e) : Keeps s e where
  inputs := (KeepsInputs.enter s p).trans h.inputs
  env := h.env
  status := h.status
  silent := h.silent

theorem mixAllOp_keeps (c : Config) (s : State) : Keeps s (mixAllOp c s) :=
  .orRaise (.enter s _) rfl rfl rfl fun _ _ => .of_enter (mixNotes_keeps c _ _)

/-! ### Their faults are fatal -/

theorem oscOp_okOrFatal (wave : Fl → Fl → Option Fl) (s : State) : OkOrFatal (oscOp wave s) :=
  .orRaise (.bind (.require rfl) fun _ => .orElse rfl) fun _ => .endOk _

theorem qntOp_okOrFatal (c : Config) (s : State) : OkOrFatal (qntOp c s) := .orRaise (.orElse rfl) fun _ => .endOk _

theorem checkCounts_fatals (c : Config) (s : State) : Fatals (checkCounts c s) := .require rfl

theorem validateNote_fatals (c : Config) (s : State) (n : Nat) : Fatals (validateNote c s n) := .require rfl

theorem noteLen_fatals (c : Config) (s : State) (n : Nat) : Fatals (noteLen c s n) :=
  .bind (.require rfl) fun _ => .ok _

theorem noteStart_fatals (c : Config) (s : State) (n : Nat) : Fatals (noteStart c s n) :=
  .bind (.require rfl) fun _ => .ok _

theorem mixDurOp_okOrFatal (c : Config) (s : State) : OkOrFatal (mixDurOp c s) :=
  .orRaise (.bind (checkCounts_fatals c s) fun _ => .bind (.mapRaise (fun n => .bind (validateNote_fatals c s n) fun _ =>
    .bind (.require rfl) fun _ => .ok _) _) fun _ => .ok _) fun _ => .endOk _

theorem mixAllocOp_okOrFatal (c : Config) (s : State) : OkOrFatal (mixAllocOp c s) :=
  .orRaise (.bind (.require rfl) fun _ => .bind (.require rfl) fun _ => .bind (.require rfl) fun _ => .ok _)
    fun _ => .endOk _

theorem localSamples_fatals (c : Config) (s : State) (n : Nat) : Fatals (localSamples c s n) :=
  .bind (checkCounts_fatals c s) fun _ => .bind (.require rfl) fun _ => .bind (.require rfl) fun _ =>
    .bind (validateNote_fatals c s n) fun _ => .bind (noteLen_fatals c s n) fun _ => .bind (.require rfl) fun _ =>
    .mapRaise (fun _ => .bind (.orElse rfl) fun _ => .ok _) _

theorem mixGenOp_okOrFatal (c : Config) (s : State) (n : Nat) : OkOrFatal (mixGenOp c s n) :=
  .orRaise (localSamples_fatals c s n) fun _ => .endOk _

theorem mergeOp_okOrFatal (c : Config) (s : State) (ds dl sl : Nat) (how : Combine) :
    OkOrFatal (mergeOp c s ds dl sl how) :=
  .orRaise (.bind (.require rfl) fun _ => .require rfl) fun _ => .endOk _

theorem placeOp_okOrFatal (c : Config) (s : State) (n start : Nat) : OkOrFatal (placeOp c s n start) := by
  refine .andThen ?_ fun s' => ?_
  · split
    · exact .inl rfl
    · exact .endOk _
  · split
    · exact mergeOp_okOrFatal _ _ _ _ _ _
    · exact .endOk _

theorem mixNoteOp_okOrFatal (c : Config) (s : State) (n : Nat) : OkOrFatal (mixNoteOp c s n) :=
  .andThen (mixGenOp_okOrFatal c s n) fun _ => .orRaise (noteStart_fatals c _ n) fun _ => placeOp_okOrFatal _ _ _ _

theorem mixNotes_okOrFatal (c : Config) (ns : List Nat) (s : State) : OkOrFatal (mixNotes c ns s) := by
  induction ns generalizing s with
  | nil => exact .endOk _
  | cons n ns ih => exact .andThen (mixNoteOp_okOrFatal c s n) ih

theorem mixAllOp_okOrFatal (c : Config) (s : State) : OkOrFatal (mixAllOp c s) :=
  .orRaise (.bind (checkCounts_fatals c s) fun _ => .require rfl) fun _ => mixNotes_okOrFatal _ _ _

/-- A fatal raise is no good end. -/
theorem code_ne_ok_of_isFatal {code : ResultCode} (h : isFatal code = true) : code ≠ .ok := by
  rintro rfl; cases h

end Sys2Proof.Machine
end

