-- ==== Sys2Proof/Laws/Pipeline.lean ====
section
/-! SUPPORT. What the longer commands do: MIX.NOTE and MIX.ALL as folds over the song, SER.BUILD as one container,
SER.FLUSH, and RENDER. -/

namespace Sys2Proof.Machine

/-! ### MIX.NOTE and MIX.ALL -/

theorem samplesOf_length (s : State) (n : Nat) : (samplesOf s n).length = lenOf s n := by simp [samplesOf]

theorem keptOf_le (s : State) (n accLen : Nat) : keptOf s n accLen ≤ lenOf s n := by
  unfold keptOf; split <;> omega

theorem keptOf_fits (s : State) (n accLen : Nat) : keptOf s n accLen = 0 ∨ startOf s n + keptOf s n accLen ≤ accLen := by
  unfold keptOf; split <;> omega

theorem keptSamples_eq (s : State) (n accLen : Nat) : keptSamples (startOf s n) (lenOf s n) accLen = keptOf s n accLen := rfl

theorem mixGenOp_ok {s : State} {n : Nat} (h : GenOk s n) :
    mixGenOp Config.this s n =
      endOk ((s.enter .mix).setLoc (samplesOf s n) (BitVec.ofNat 16 n) (noteAt Config.this s n).track) := by
  rw [mixGenOp, localSamples_ok h, orRaise_ok]

/-- s after note n of the song of s0 has been generated and added. -/
def afterNote (s0 s : State) (n : Nat) : State :=
  { s with
    loc := samplesOf s0 n, locNote := BitVec.ofNat 16 n, locTrack := (noteAt Config.this s0 n).track,
    acc := withNote s0 s.acc n, pc := ⟨.mix, 0, 0⟩,
    status := if clampsAt s0 s.acc.length n then s.status ||| 0x4 else s.status,
    diag := if clampsAt s0 s.acc.length n then diagOf (noteAt Config.this s0 n).track n else s.diag }

theorem afterNote_congr {s0 s : State} (h : SameSong s0 s) (n : Nat) : afterNote s s n = afterNote s0 s n := by
  simp only [afterNote, samplesOf_congr h, noteAt_congr h, withNote_congr h, clampsAt_congr h]

/-- What MIX.NOTE leaves where it comes to its end: the generated note in LOC, its first samples added into ACC, and the
record of a clamp where some were cut off (41_mixer R131). -/
theorem mixNoteOp_ok {s : State} {n : Nat} (h : GenOk s n) (hs : finite (startProduct s n) = true) :
    mixNoteOp Config.this s n = ⟨.ok, clampsAt s s.acc.length n, afterNote s s n⟩ := by
  set g := (s.enter .mix).setLoc (samplesOf s n) (BitVec.ofNat 16 n) (noteAt Config.this s n).track with hg
  have hsame : SameSong s g := ⟨rfl, rfl, rfl, rfl, rfl⟩
  rw [mixNoteOp, mixGenOp_ok h, andThen_endOk, ← hg, noteStart_congr hsame, noteStart_ok hs, orRaise_ok]
  have hloc : g.loc = samplesOf s n := rfl
  have hacc : g.acc = s.acc := rfl
  have hkept : keptSamples (startOf s n) g.loc.length g.acc.length = keptOf s n s.acc.length := by
    rw [hloc, hacc, samplesOf_length, keptSamples_eq]
  rw [placeOp]
  simp only [hkept]
  have hmerge : ∀ s' : State, s'.acc = s.acc → s'.loc = samplesOf s n →
      (if 0 < keptOf s n s.acc.length then
        mergeOp Config.this s' (startOf s n) (keptOf s n s.acc.length) (keptOf s n s.acc.length) .add
        else endOk s') = endOk (s'.setAcc (withNote s s.acc n)) := by
    intro s' ha hl
    split
    · next hk =>
      rw [mergeOp_ok]
      · rw [ha, hl]; rfl
      · rw [ha]; rcases keptOf_fits s n s.acc.length with h0 | h0 <;> omega
      · rfl
      · rw [hl, samplesOf_length]; exact keptOf_le _ _ _
    · next hk =>
      have h0 : keptOf s n s.acc.length = 0 := by omega
      rw [withNote, h0, combined_zero, ← ha]; rfl
  rw [hloc, samplesOf_length]
  by_cases hc : keptOf s n s.acc.length < lenOf s n
  · have hcl : clampsAt s s.acc.length n = true := by simp [clampsAt, hc]
    rw [if_pos hc, clampRecord, andThen_mk_ok,
      hmerge ((g.raiseFlag flagClamped).setDiag (diagWord (trackOf Config.this g n) n)) rfl rfl, trackOf_congr hsame]
    simp only [hcl]
    simp [afterNote, hcl, endOk, hg, State.setAcc, State.setDiag, State.raiseFlag, State.setStatus, State.setLoc, State.enter,
      State.setPc, flagClamped, trackOf, diagWord_half]
  · have hcl : clampsAt s s.acc.length n = false := by simp [clampsAt, hc]
    rw [if_neg hc, andThen_endOk, hmerge g rfl rfl]
    simp only [hcl]
    simp [afterNote, hcl, endOk, hg, State.setAcc, State.setLoc, State.enter, State.setPc]

/-- MIX.NOTE ends well exactly on the notes it can place. -/
theorem mixNoteOp_code_ok {s : State} {n : Nat} :
    (mixNoteOp Config.this s n).code = .ok → GenOk s n ∧ finite (startProduct s n) = true := by
  intro h
  by_cases hg : GenOk s n
  · refine ⟨hg, ?_⟩
    rw [mixNoteOp, mixGenOp_ok hg, andThen_endOk] at h
    set g := (s.enter .mix).setLoc (samplesOf s n) (BitVec.ofNat 16 n) (noteAt Config.this s n).track with hgd
    have hsame : SameSong s g := ⟨rfl, rfl, rfl, rfl, rfl⟩
    rw [noteStart_congr hsame] at h
    cases hf : finite (startProduct s n) with
    | true => rfl
    | false => rw [noteStart_error hf] at h; simp at h
  · exfalso
    cases hl : localSamples Config.this s n with
    | ok l => exact hg (localSamples_eq_ok.1 hl).1
    | error r =>
      have h1 := (andThen_code_ok.1 h).1
      rw [mixGenOp, hl, orRaise_error, raiseEnd_code] at h1
      exact code_ne_ok_of_isFatal (localSamples_fatals _ _ _ r hl) h1

theorem withNote_length (s : State) (acc : List Fl) (n : Nat) : (withNote s acc n).length = acc.length :=
  combined_length _ _ _ _ _

theorem foldl_withNote_length (s : State) (ns : List Nat) (acc : List Fl) :
    (ns.foldl (withNote s) acc).length = acc.length := by
  induction ns generalizing acc with
  | nil => rfl
  | cons n ns ih => rw [List.foldl_cons, ih, withNote_length]

/-- Notes added one after the other leave every element outside all their windows. -/
theorem foldl_withNote_outside (s : State) {ns : List Nat} {acc : List Fl} {k : Nat}
    (h : ∀ n ∈ ns, ¬ (startOf s n ≤ k ∧ k < startOf s n + keptOf s n acc.length)) :
    (ns.foldl (withNote s) acc)[k]? = acc[k]? := by
  induction ns generalizing acc with
  | nil => rfl
  | cons n ns ih =>
    rw [List.foldl_cons, ih fun m hm => by rw [withNote_length]; exact h m (by simp [hm])]
    exact combined_outside _ _ _ (h n (by simp))

/-- A run of MIX.NOTE over two lists is one run after the other. -/
theorem mixNotes_append (c : Config) (ns ms : List Nat) (s : State) :
    mixNotes c (ns ++ ms) s = andThen (mixNotes c ns s) (mixNotes c ms) := by
  induction ns generalizing s with
  | nil => rw [List.nil_append, mixNotes, andThen_endOk]
  | cons n ns ih =>
    rw [List.cons_append, mixNotes, mixNotes]
    by_cases h : (mixNoteOp c s n).code = .ok
    · simp only [andThen_of_ok h, ih]
      by_cases h' : (mixNotes c ns (mixNoteOp c s n).state).code = .ok
      · simp [andThen, h', Bool.or_assoc]
      · rw [andThen_of_fault h', andThen_of_fault (by exact h')]
    · simp only [andThen_of_fault h]

/-- What a run of MIX.NOTE over a list of notes leaves where each comes to its end. -/
def placed (s0 s : State) (ns : List Nat) : State :=
  { s with
    acc := ns.foldl (withNote s0) s.acc
    loc := (ns.getLast?.map (samplesOf s0)).getD s.loc
    locNote := (ns.getLast?.map (BitVec.ofNat 16)).getD s.locNote
    locTrack := (ns.getLast?.map (fun n => (noteAt Config.this s0 n).track)).getD s.locTrack
    status := if ns.filter (clampsAt s0 s.acc.length) = [] then s.status else s.status ||| 0x4
    diag := ((ns.filter (clampsAt s0 s.acc.length)).getLast?.map
      (fun n => diagOf (noteAt Config.this s0 n).track n)).getD s.diag
    pc := if ns = [] then s.pc else ⟨.mix, 0, 0⟩ }

/-- MIX.NOTE over a list of notes, each of which comes to its end (41_mixer R133). -/
theorem mixNotes_ok (s0 : State) {ns : List Nat} {s : State} (h : SameSong s0 s)
    (hn : ∀ n ∈ ns, GenOk s0 n ∧ finite (startProduct s0 n) = true) :
    mixNotes Config.this ns s =
      ⟨.ok, decide (ns.filter (clampsAt s0 s.acc.length) ≠ []), placed s0 s ns⟩ := by
  induction ns generalizing s with
  | nil => rfl
  | cons n ns ih =>
    obtain ⟨hg, hf⟩ := hn n (by simp)
    rw [mixNotes, mixNoteOp_ok (genOk_congr h hg) (by rw [startProduct_congr h]; exact hf), andThen_mk_ok]
    have h' : SameSong s0 (afterNote s0 s n) := ⟨h.song, h.epoch, h.ntracks, h.nnotes, h.srate⟩
    have hlen : (afterNote s0 s n).acc.length = s.acc.length := withNote_length _ _ _
    rw [clampsAt_congr h, afterNote_congr h, ih h' (fun m hm => hn m (by simp [hm])), hlen]
    congr 1
    · cases hc : clampsAt s0 s.acc.length n <;> simp [hc]
    · unfold placed
      rw [hlen]
      unfold afterNote
      dsimp only
      congr 1
      · cases hc : clampsAt s0 s.acc.length n
        · simp [hc]
        · simp only [hc, List.filter_cons_of_pos, if_true, reduceCtorEq, if_false]
          split
          · rfl
          · rw [BitVec.or_assoc]; rfl
      · cases hc : clampsAt s0 s.acc.length n
        · simp [hc]
        · simp only [hc, List.filter_cons_of_pos, if_true, List.getLast?_cons, Option.map_some, Option.getD_some]
          cases (ns.filter (clampsAt s0 s.acc.length)).getLast? <;> rfl
      · cases hl : ns.getLast? <;> simp [List.getLast?_cons, hl]
      · cases hl : ns.getLast? <;> simp [List.getLast?_cons, hl]
      · cases hl : ns.getLast? <;> simp [List.getLast?_cons, hl]
      · simp

/-- Where a run of MIX.NOTE ends well, each note came to its end. -/
theorem mixNotes_code_ok (s0 : State) {ns : List Nat} {s : State} (h : SameSong s0 s)
    (hk : (mixNotes Config.this ns s).code = .ok) : ∀ n ∈ ns, GenOk s0 n ∧ finite (startProduct s0 n) = true := by
  induction ns generalizing s with
  | nil => simp
  | cons n ns ih =>
    obtain ⟨h1, h2⟩ := andThen_code_ok.1 hk
    obtain ⟨hg, hf⟩ := mixNoteOp_code_ok h1
    have hs := (mixNoteOp_keeps Config.this s n).sameSong
    intro m hm
    rcases List.mem_cons.1 hm with rfl | hm
    · exact ⟨genOk_congr h.symm hg, by rw [← startProduct_congr h]; exact hf⟩
    · exact ih (h.trans hs) h2 m hm

theorem enter_sameSong (s : State) (p : Phase) : SameSong s (s.enter p) := ⟨rfl, rfl, rfl, rfl, rfl⟩

theorem songNotes_getLast? (s : State) :
    (songNotes s).getLast? = if s.nnotes = 0 then none else some (s.nnotes.toNat - 1) := by
  unfold songNotes
  split
  · next h => simp [h]
  · next h =>
    have h' : s.nnotes.toNat ≠ 0 := by
      intro h0; exact h (BitVec.eq_of_toNat_eq h0)
    obtain ⟨k, hk⟩ := Nat.exists_eq_succ_of_ne_zero h'
    rw [hk, List.range_succ]; simp

theorem mixAllOp_ok {s : State} (hc : CountsOk s) (hr : s.srate ≠ 0)
    (hn : ∀ n, n < s.nnotes.toNat → GenOk s n ∧ finite (startProduct s n) = true) :
    mixAllOp Config.this s = ⟨.ok, decide ((songNotes s).filter (clampsAt s s.acc.length) ≠ []),
      placed s (s.enter .mix) (songNotes s)⟩ := by
  rw [mixAllOp, checkCounts_ok hc, bind_ok, checkRate_ok hr, orRaise_ok,
    mixNotes_ok s (enter_sameSong s _) (fun n hm => hn n (by simpa [songNotes] using hm))]
  rfl

theorem mixAllOp_code_ok {s : State} (h : (mixAllOp Config.this s).code = .ok) :
    CountsOk s ∧ s.srate ≠ 0 ∧ ∀ n, n < s.nnotes.toNat → GenOk s n ∧ finite (startProduct s n) = true := by
  by_cases hc : CountsOk s
  · by_cases hr : s.srate = 0
    · simp [mixAllOp, checkCounts_ok hc, checkRate_error hr] at h
    · rw [mixAllOp, checkCounts_ok hc, bind_ok, checkRate_ok hr, orRaise_ok] at h
      refine ⟨hc, hr, fun n hn => mixNotes_code_ok s (enter_sameSong s _) h n (by simpa [songNotes] using hn)⟩
  · simp [mixAllOp, checkCounts_error hc] at h

/-! ### The container -/

/-- The values the six checks bound, in the words of Safety.lean. -/
theorem header_values (s : State) : blockAlign s = countOf s * 2 ∧ byteRate s = s.srate.toNat * (countOf s * 2) ∧
    dataSize s = s.acc.length * countOf s * 2 ∧ padSize s = 0 ∧ chunkSize s = 36 + s.acc.length * countOf s * 2 ∧
    totalSize s = 44 + s.acc.length * countOf s * 2 := by
  have hb : blockAlign s = countOf s * 2 := by rw [blockAlign, channels_eq]
  have hd : dataSize s = s.acc.length * countOf s * 2 := by rw [dataSize, channels_eq]
  have hp : padSize s = 0 := by rw [padSize, hd, Nat.mul_mod_left]
  have hc : chunkSize s = 36 + s.acc.length * countOf s * 2 := by rw [chunkSize, hp, hd]; omega
  exact ⟨hb, by rw [byteRate, hb], hd, hp, hc, by rw [totalSize, hc]; omega⟩

theorem chmode_high_zero (v : Word) : v.extractLsb' 1 31 = 0 ↔ v.toNat < 2 := by
  rw [← BitVec.toNat_inj, BitVec.extractLsb'_toNat]
  have := v.isLt
  rw [Nat.shiftRight_eq_div_pow]
  change v.toNat / 2 ^ 1 % 2 ^ 31 = 0 ↔ _
  omega

/-- When the six checks pass (43_serializer R162). -/
theorem buildChecks_eq_ok {s : State} : buildChecks Config.this s = .ok () ↔
    s.fmt = 0 ∧ s.chmode.toNat < 2 ∧ s.srate ≠ 0 ∧ s.srate.toNat * (countOf s * 2) < 2 ^ 32 ∧
    36 + s.acc.length * countOf s * 2 < 2 ^ 32 ∧ 44 + s.acc.length * countOf s * 2 ≤ Config.this.outMax := by
  obtain ⟨-, hb, -, -, hc, ht⟩ := header_values s
  rw [buildChecks, hb, hc, ht]
  simp only [bind_eq_ok, require_eq_ok, chmode_high_zero]
  constructor
  · rintro ⟨-, h1, -, h2, -, h3, -, h4, -, h5, h6⟩
    have h1 := of_decide_eq_true h1
    have h2 := of_decide_eq_true h2
    have h3 := of_decide_eq_true h3
    have h4 := of_decide_eq_true h4
    have h5 := of_decide_eq_true h5
    have h6 := of_decide_eq_true h6
    exact ⟨h1, h2, h3, by omega, by omega, h6⟩
  · rintro ⟨h1, h2, h3, h4, h5, h6⟩
    exact ⟨(), decide_eq_true h1, (), decide_eq_true h2, (), decide_eq_true h3, (), decide_eq_true (by omega), (),
      decide_eq_true (by omega), decide_eq_true h6⟩

theorem buildChecks_fatals (c : Config) (s : State) : Fatals (buildChecks c s) :=
  .bind (.require rfl) fun _ => .bind (.require rfl) fun _ => .bind (.require rfl) fun _ =>
    .bind (.require rfl) fun _ => .bind (.require rfl) fun _ => .require rfl

theorem quantize_eq_some {c : Config} {x : Fl} (h : isnan x = false) : ∃ v, quantize c x = some v := by
  simp [quantize, h]

/-- The frames of ACC where no element is NaN. -/
theorem frames_ok {s : State} (h : ∀ x ∈ s.acc, isnan x = false) :
    frames Config.this s = .ok (s.acc.map (frameOf (countOf s))) := by
  refine mapRaise_of_ok fun x hx => ?_
  obtain ⟨v, hv⟩ := quantize_eq_some (c := Config.this) (h x hx)
  simp [frameBytes, frameOf, hv, channels_eq]

theorem frames_error {s : State} (h : ∃ x ∈ s.acc, isnan x = true) :
    frames Config.this s = .error ⟨.numeric, none⟩ := by
  refine mapRaise_error_const (fun x _ => ?_) ?_
  · cases hx : isnan x with
    | true => right; simp [frameBytes, quantize, hx]
    | false =>
      obtain ⟨v, hv⟩ := quantize_eq_some (c := Config.this) hx
      left; simp [frameBytes, hv]
  · obtain ⟨x, hx, hn⟩ := h
    exact ⟨x, hx, by simp [frameBytes, quantize, hn]⟩

theorem frames_eq_ok {s : State} {l : List (List Byte)} : frames Config.this s = .ok l ↔
    (∀ x ∈ s.acc, isnan x = false) ∧ l = s.acc.map (frameOf (countOf s)) := by
  by_cases h : ∀ x ∈ s.acc, isnan x = false
  · rw [frames_ok h, Except.ok.injEq]
    exact ⟨fun e => ⟨h, e.symm⟩, fun e => e.2.symm⟩
  · have h' : ∃ x ∈ s.acc, isnan x = true := by
      push Not at h
      simpa using h
    simp [frames_error h', h]

/-- Appends that fit write all their bytes at the cursor (43_serializer R161). -/
theorem appendAll_ok (c : Config) {l : List (List Byte)} {s : State} (h : s.out.length + l.flatten.length ≤ c.outMax) :
    appendAll c l s = endOk (s.setOut (s.out ++ l.flatten)) := by
  induction l generalizing s with
  | nil => simp [appendAll, State.setOut]
  | cons b l ih =>
    rw [List.flatten_cons, List.length_append] at h
    rw [appendAll, appendOp, require_of (decide_eq_true (by omega)), orRaise_ok, andThen_endOk, memWrite_end, ih]
    · simp [State.setOut]
    · change (s.out ++ b).length + _ ≤ _
      rw [List.length_append]; omega

theorem headerFields_flatten (s : State) : (headerFields s).flatten = headerOf s (countOf s) s.acc.length := by
  obtain ⟨hb, hr, hd, -, hc, -⟩ := header_values s
  simp only [headerFields, hb, hr, hd, hc, channels_eq, headerOf, tagRIFF, tagWAVE, tagFmt, tagData,
    List.flatten_cons, List.flatten_nil, List.append_nil, List.append_assoc]
  rfl

theorem headerOf_length (s : State) (count frames : Nat) : (headerOf s count frames).length = 44 := rfl

theorem frameOf_length (count : Nat) (x : Fl) : (frameOf count x).length = count * 2 := by
  simp [frameOf]

theorem flatMap_frameOf_length (count : Nat) (l : List Fl) : (l.flatMap (frameOf count)).length = l.length * count * 2 := by
  induction l with
  | nil => simp
  | cons x l ih => rw [List.flatMap_cons, List.length_append, ih, frameOf_length, List.length_cons]; ring

theorem containerOf_length (s : State) (count : Nat) :
    (containerOf s count).length = 44 + s.acc.length * count * 2 := by
  rw [containerOf, List.length_append, headerOf_length, flatMap_frameOf_length]

/-- SER.BUILD where it comes to its end. -/
theorem serBuildOp_ok {s : State} (hc : buildChecks Config.this s = .ok ()) (hn : ∀ x ∈ s.acc, isnan x = false) :
    serBuildOp Config.this s = endOk ((s.enter .build).setOut (containerOf s (countOf s))) := by
  have hpad : padField s = [] := by rw [padField, (header_values s).2.2.2.1]; rfl
  have hflat : (headerFields s ++ s.acc.map (frameOf (countOf s)) ++ []).flatten = containerOf s (countOf s) := by
    rw [List.append_nil, List.flatten_append, headerFields_flatten, containerOf, List.flatMap_def]
  rw [serBuildOp, hc, bind_ok, frames_ok hn, orRaise_ok, hpad, appendAll_ok]
  · rw [hflat]; simp [State.setOut, State.enter, State.setPc]
  · rw [hflat, containerOf_length]
    have := (buildChecks_eq_ok.1 hc).2.2.2.2.2
    simpa [State.setOut] using this

theorem serBuildOp_code_ok {s : State} (h : (serBuildOp Config.this s).code = .ok) :
    buildChecks Config.this s = .ok () ∧ ∀ x ∈ s.acc, isnan x = false := by
  cases hc : buildChecks Config.this s with
  | error r =>
    have hf := buildChecks_fatals Config.this s
    rw [serBuildOp, hc, bind_error, orRaise_error, raiseEnd_code] at h
    exact absurd h (code_ne_ok_of_isFatal (hf r hc))
  | ok u =>
    refine ⟨rfl, ?_⟩
    by_contra hn
    have h' : ∃ x ∈ s.acc, isnan x = true := by push Not at hn; simpa using hn
    rw [serBuildOp, hc, bind_ok, frames_error h', orRaise_error] at h
    cases h

theorem serBuildOp_fault {s : State} {r : Raise}
    (h : (buildChecks Config.this s >>= fun _ => frames Config.this s) = .error r) :
    serBuildOp Config.this s = raiseEnd (s.enter .build) r := by
  rw [serBuildOp, h, orRaise_error]

theorem appendAll_keeps (c : Config) (l : List (List Byte)) (s : State) : Keeps s (appendAll c l s) := by
  induction l generalizing s with
  | nil => exact .endOk .rfl rfl rfl rfl
  | cons b l ih =>
    exact .trans (.orRaise .rfl rfl rfl rfl fun _ _ => .endOk (by constructor <;> simp) rfl rfl rfl) (ih _)

theorem appendAll_okOrFatal (c : Config) (l : List (List Byte)) (s : State) : OkOrFatal (appendAll c l s) := by
  induction l generalizing s with
  | nil => exact .endOk _
  | cons b l ih => exact .andThen (.orRaise (.require rfl) fun _ => .endOk _) ih

theorem serBuildOp_keeps (c : Config) (s : State) : Keeps s (serBuildOp c s) :=
  .orRaise (.enter s _) rfl rfl rfl fun _ _ =>
    .of_enter (p := .build) (by
      have h := appendAll_keeps c (headerFields s ++ ‹List (List Byte)› ++ padField s) ((s.enter .build).setOut [])
      exact ⟨.trans (by constructor <;> simp) h.inputs, h.env, h.status, h.silent⟩)

theorem serBuildOp_okOrFatal (c : Config) (s : State) : OkOrFatal (serBuildOp c s) :=
  .orRaise (.bind (buildChecks_fatals c s) fun _ => .mapRaise (fun _ => .orElse rfl) _)
    fun _ => appendAll_okOrFatal _ _ _

/-! ### The sink -/

/-- What SER.FLUSH does: one write of OUT, whatever the sink answers (43_serializer R176). -/
theorem serFlushOp_eq (s : State) :
    serFlushOp s = ⟨if nextAnswer s then .ok else .io, false, { s with
      pc := ⟨.flush, 0, 0⟩
      env := { s.env with sinkAnswers := s.env.sinkAnswers.tail
                          sinkLog := s.env.sinkLog ++ [⟨s.out, nextAnswer s⟩] } }⟩ := by
  have ha : nextAnswer (s.enter .flush) = nextAnswer s := rfl
  have hs : sinkWrite (s.enter .flush) s.out = { s with
      pc := ⟨.flush, 0, 0⟩
      env := { s.env with sinkAnswers := s.env.sinkAnswers.tail
                          sinkLog := s.env.sinkLog ++ [⟨s.out, nextAnswer s⟩] } } := by
    simp [sinkWrite, State.setEnv, State.enter, State.setPc, nextAnswer]
  rw [serFlushOp, memRead_all]
  simp only [hs]
  cases nextAnswer s <;> rfl

/-! ### RENDER -/

/-- The four phases before the flush. -/
def frontOp (c : Config) (s : State) : CmdEnd :=
  andThen (andThen (andThen (mixDurOp c s) (mixAllocOp c)) (mixAllOp c)) (serBuildOp c)

theorem renderOp_eq (c : Config) (s : State) : renderOp c s = andThen (frontOp c s) serFlushOp := rfl

theorem frontOp_keeps (c : Config) (s : State) : Keeps s (frontOp c s) :=
  .trans (.trans (.trans (mixDurOp_keeps c s) (mixAllocOp_keeps c _)) (mixAllOp_keeps c _)) (serBuildOp_keeps c _)

theorem frontOp_okOrFatal (c : Config) (s : State) : OkOrFatal (frontOp c s) :=
  .andThen (.andThen (.andThen (mixDurOp_okOrFatal c s) (mixAllocOp_okOrFatal c)) (mixAllOp_okOrFatal c))
    (serBuildOp_okOrFatal c)

/-! ### Every command -/

/-- The pseudocode of every command. -/
def bodyOf (c : Config) (i : Instr) (s : State) : CmdEnd :=
  match i with
  | .oscSine => oscOp (oscSine c) s
  | .oscSquare => oscOp (oscSquare c) s
  | .oscSaw => oscOp (oscSaw c) s
  | .mixDur => mixDurOp c s
  | .mixAlloc => mixAllocOp c s
  | .mixGen n => mixGenOp c s n
  | .mixMergeAdd => mixMergeOp c .add s
  | .mixMergeOvr => mixMergeOp c .overwrite s
  | .mixNote n => mixNoteOp c s n
  | .mixAll => mixAllOp c s
  | .qntS => qntOp c s
  | .serBuild => serBuildOp c s
  | .serFlush => serFlushOp s
  | .render => renderOp c s

/-- Every command is its body and one completion (60_exceptions R204). -/
theorem exec_eq (i : Instr) (s : State) : exec i s = .next (complete Config.this (bodyOf Config.this i s)) := by
  cases i <;> rfl

/-- The bodies that end in the flush change the surroundings; the others do not. -/
theorem bodyOf_keeps (c : Config) {i : Instr} (s : State) (h1 : i ≠ .serFlush) (h2 : i ≠ .render) :
    Keeps s (bodyOf c i s) := by
  cases i with
  | oscSine => exact oscOp_keeps _ s
  | oscSquare => exact oscOp_keeps _ s
  | oscSaw => exact oscOp_keeps _ s
  | mixDur => exact mixDurOp_keeps c s
  | mixAlloc => exact mixAllocOp_keeps c s
  | mixGen n => exact mixGenOp_keeps c s n
  | mixMergeAdd => exact mixMergeOp_keeps c _ s
  | mixMergeOvr => exact mixMergeOp_keeps c _ s
  | mixNote n => exact mixNoteOp_keeps c s n
  | mixAll => exact mixAllOp_keeps c s
  | qntS => exact qntOp_keeps c s
  | serBuild => exact serBuildOp_keeps c s
  | serFlush => exact absurd rfl h1
  | render => exact absurd rfl h2

theorem bodyOf_okOrFatal (c : Config) {i : Instr} (s : State) (h1 : i ≠ .serFlush) (h2 : i ≠ .render) :
    OkOrFatal (bodyOf c i s) := by
  cases i with
  | oscSine => exact oscOp_okOrFatal _ s
  | oscSquare => exact oscOp_okOrFatal _ s
  | oscSaw => exact oscOp_okOrFatal _ s
  | mixDur => exact mixDurOp_okOrFatal c s
  | mixAlloc => exact mixAllocOp_okOrFatal c s
  | mixGen n => exact mixGenOp_okOrFatal c s n
  | mixMergeAdd => exact mergeOp_okOrFatal c _ _ _ _ _
  | mixMergeOvr => exact mergeOp_okOrFatal c _ _ _ _ _
  | mixNote n => exact mixNoteOp_okOrFatal c s n
  | mixAll => exact mixAllOp_okOrFatal c s
  | qntS => exact qntOp_okOrFatal c s
  | serBuild => exact serBuildOp_okOrFatal c s
  | serFlush => exact absurd rfl h1
  | render => exact absurd rfl h2

/-- A body ends well, in a fatal fault, or in `E_IO` (60_exceptions R200). -/
theorem bodyOf_code (c : Config) (i : Instr) (s : State) :
    (bodyOf c i s).code = .ok ∨ (bodyOf c i s).code = .io ∨ isFatal (bodyOf c i s).code = true := by
  have hf : ∀ s', (serFlushOp s').code = .ok ∨ (serFlushOp s').code = .io ∨ isFatal (serFlushOp s').code = true := by
    intro s'; rw [serFlushOp_eq]; cases nextAnswer s' <;> simp
  by_cases h1 : i = .serFlush
  · subst h1; exact hf s
  · by_cases h2 : i = .render
    · subst h2
      change (andThen (frontOp c s) serFlushOp).code = _ ∨ _
      by_cases hc : (frontOp c s).code = .ok
      · simp only [bodyOf, renderOp_eq, andThen_of_ok hc]; exact hf _
      · simp only [bodyOf, renderOp_eq, andThen_of_fault hc]
        exact (frontOp_okOrFatal c s).imp_right .inr
    · exact (bodyOf_okOrFatal c s h1 h2).imp_right .inr

/-- No body touches an input of the host, or a flag but CLAMPED (20_memory R65, 60_exceptions R203). -/
theorem bodyOf_inputs (c : Config) (i : Instr) (s : State) : KeepsInputs s (bodyOf c i s).state ∧
    ((bodyOf c i s).state.status = s.status ∨ (bodyOf c i s).state.status = s.status ||| 0x4) := by
  have hf : ∀ s', KeepsInputs s' (serFlushOp s').state ∧ (serFlushOp s').state.status = s'.status := by
    intro s'; rw [serFlushOp_eq]; exact ⟨by constructor <;> rfl, rfl⟩
  by_cases h1 : i = .serFlush
  · subst h1; exact ⟨(hf s).1, .inl (hf s).2⟩
  · by_cases h2 : i = .render
    · subst h2
      have hk := frontOp_keeps c s
      by_cases hc : (frontOp c s).code = .ok
      · simp only [bodyOf, renderOp_eq, andThen_of_ok hc]
        exact ⟨hk.inputs.trans (hf _).1, by rw [(hf _).2]; exact hk.status⟩
      · simp only [bodyOf, renderOp_eq, andThen_of_fault hc]
        exact ⟨hk.inputs, hk.status⟩
    · exact ⟨(bodyOf_keeps c s h1 h2).inputs, (bodyOf_keeps c s h1 h2).status⟩

/-- RESULT after completion. -/
theorem complete_result (c : Config) (e : CmdEnd) : (complete c e).result = resultWord e.code e.wroteDiag := by
  unfold complete
  by_cases h : isFatal e.code <;> simp [h]

/-- The fields of RESULT. -/
theorem resultWord_fields (code : ResultCode) (dv : Bool) :
    ((resultWord code dv).extractLsb' 0 8).toNat = (codeBits code).toNat ∧ (resultWord code dv).getLsbD 8 = dv := by
  cases code <;> cases dv <;> decide

/-- The code a command completes with. -/
theorem complete_code (c : Config) (e : CmdEnd) : (complete c e).code = (codeBits e.code).toNat := by
  rw [State.code, complete_result, (resultWord_fields _ _).1]

theorem complete_dv (c : Config) (e : CmdEnd) : (complete c e).dv = e.wroteDiag := by
  rw [State.dv, complete_result, (resultWord_fields _ _).2]

theorem codeBits_eq_zero {code : ResultCode} : (codeBits code).toNat = 0 ↔ code = .ok := by cases code <;> decide

/-- A command that completed with code 0 came to the end of its body, and only `done` was added. -/
theorem exec_code_ok {i : Instr} {s t : State} (h : exec i s = .next t) (hc : t.code = 0) :
    (bodyOf Config.this i s).code = .ok ∧ t = (bodyOf Config.this i s).state.done (bodyOf Config.this i s).wroteDiag := by
  rw [exec_eq] at h
  cases h
  rw [complete_code, codeBits_eq_zero] at hc
  generalize bodyOf Config.this i s = e at *
  obtain ⟨c, d, st⟩ := e
  cases hc
  exact ⟨rfl, complete_ok _ _ _⟩

/-- A command that ended without a fatal fault completes with RESULT, RV and the sequencer, and nothing else. -/
theorem complete_not_fatal (c : Config) (e : CmdEnd) (h : isFatal e.code = false) :
    complete c e = { e.state with
      result := resultWord e.code e.wroteDiag, status := e.state.status ||| 0x1, pc := ⟨.idle, 0, 0⟩ } := by
  simp [complete, h, statusAfter, flagRV, State.setResult, State.setStatus, State.setPc, SeqPos.idle]

/-- STATUS after completion. -/
theorem complete_status (c : Config) (e : CmdEnd) : (complete c e).status = statusAfter e.state.status e.code := by
  unfold complete
  by_cases h : isFatal e.code <;> simp [h]

/-- Completion touches neither the sink nor the epoch. -/
theorem complete_env (c : Config) (e : CmdEnd) : (complete c e).env.sinkLog = e.state.env.sinkLog ∧
    (complete c e).env.sinkAnswers = e.state.env.sinkAnswers ∧ (complete c e).env.epoch = e.state.env.epoch := by
  unfold complete
  by_cases h : isFatal e.code <;> simp [h]

/-- SER.FLUSH has no fatal fault (43_serializer R176). -/
theorem serFlushOp_not_fatal (s : State) : isFatal (serFlushOp s).code = false := by
  rw [serFlushOp_eq]
  cases nextAnswer s <;> rfl

theorem totalDuration_fatals (c : Config) (s : State) : Fatals (totalDuration c s) :=
  .bind (checkCounts_fatals c s) fun _ => .bind (.mapRaise (fun n => .bind (validateNote_fatals c s n) fun _ =>
    .bind (.require rfl) fun _ => .ok _) _) fun _ => .ok _

theorem bufferLength_fatals (c : Config) (s : State) : Fatals (bufferLength c s) :=
  .bind (.require rfl) fun _ => .bind (.require rfl) fun _ => .bind (.require rfl) fun _ => .ok _

/-- Where MIX.DUR comes to its end. -/
theorem mixDurOp_of_code {s : State} (h : (mixDurOp Config.this s).code = .ok) :
    ∃ x, totalDuration Config.this s = .ok x ∧ mixDurOp Config.this s = endOk ((s.enter .dur).setTotdur x) := by
  cases hx : totalDuration Config.this s with
  | ok x => exact ⟨x, rfl, by rw [mixDurOp, hx, orRaise_ok]⟩
  | error r =>
    rw [mixDurOp, hx, orRaise_error, raiseEnd_code] at h
    exact absurd h (code_ne_ok_of_isFatal (totalDuration_fatals _ _ r hx))

/-- Where MIX.ALLOC comes to its end. -/
theorem mixAllocOp_of_code {s : State} (h : (mixAllocOp Config.this s).code = .ok) :
    ∃ n, bufferLength Config.this s = .ok n ∧
      mixAllocOp Config.this s = endOk ((s.enter .alloc).setAcc (List.replicate n Fl.zero)) := by
  cases hx : bufferLength Config.this s with
  | ok x => exact ⟨x, rfl, by rw [mixAllocOp, hx, orRaise_ok]⟩
  | error r =>
    rw [mixAllocOp, hx, orRaise_error, raiseEnd_code] at h
    exact absurd h (code_ne_ok_of_isFatal (bufferLength_fatals _ _ r hx))

/-- Where a merge comes to its end. -/
theorem mixMergeOp_of_code {how : Combine} {s : State} (h : (mixMergeOp Config.this how s).code = .ok) :
    s.mrgStart.toNat + s.mrgLen.toNat ≤ s.acc.length ∧ s.mrgLen.toNat = s.loc.length ∧
    mixMergeOp Config.this how s = endOk ((s.enter .mix).setAcc
      (combined (combineWith Config.this how) s.acc s.loc s.mrgStart.toNat s.mrgLen.toNat)) := by
  have ha : s.mrgStart.toNat + s.mrgLen.toNat ≤ s.acc.length := by
    by_contra hn
    rw [mixMergeOp, mergeOp_bounds (s := s.enter .mix) how (by change s.acc.length < _; omega)] at h
    cases h
  have hb : s.mrgLen.toNat = s.loc.length := by
    by_contra hn
    rw [mixMergeOp, mergeOp_length (s := s.enter .mix) how ha hn] at h
    cases h
  exact ⟨ha, hb, mergeOp_ok (s := s.enter .mix) how ha hb (by rw [hb]; exact le_rfl)⟩

/-! ### DIAG: who writes it -/

/-- The codes that always come with a note in DIAG (60_exceptions R200): the two of the merge, and `E_DESC`. -/
def namesNote : ResultCode → Bool
  | .mergeLen => true
  | .bounds => true
  | .desc => true
  | .ok => false
  | .io => false
  | .illegal => false
  | .config => false
  | .capacity => false
  | .numeric => false

/-- Every raise with such a code names a note. -/
def NotesNamed {α : Type} (x : Except Raise α) : Prop := ∀ r, x = .error r → namesNote r.code = true → r.diag ≠ none

/-- A body that ended with such a code wrote DIAG. -/
def Named (e : CmdEnd) : Prop := namesNote e.code = true → e.wroteDiag = true

theorem NotesNamed.ok {α : Type} (a : α) : NotesNamed (.ok a : Except Raise α) := by intro r h; cases h

theorem NotesNamed.require {b : Bool} {r : Raise} (h : namesNote r.code = true → r.diag ≠ none) :
    NotesNamed (require b r) := by
  intro q hq; cases b
  · cases hq; exact h
  · cases hq

theorem NotesNamed.orElse {α : Type} {x : Option α} {r : Raise} (h : namesNote r.code = true → r.diag ≠ none) :
    NotesNamed (orElseRaise x r) := by
  intro q hq; cases x
  · cases hq; exact h
  · cases hq

theorem NotesNamed.bind {α β : Type} {x : Except Raise α} {g : α → Except Raise β} (hx : NotesNamed x)
    (hg : ∀ a, NotesNamed (g a)) : NotesNamed (x >>= g) := by
  cases x with
  | ok a => exact hg a
  | error r => intro q hq; cases hq; exact hx _ rfl

theorem NotesNamed.mapRaise {α β : Type} {g : β → Except Raise α} (hg : ∀ b, NotesNamed (g b)) (l : List β) :
    NotesNamed (mapRaise g l) := by
  induction l with
  | nil => exact .ok _
  | cons b l ih => exact .bind (hg b) fun _ => .bind ih fun _ => .ok _

theorem Named.endOk (s : State) : Named (endOk s) := fun h => nomatch h

theorem Named.orRaise {α : Type} {s : State} {x : Except Raise α} {k : α → CmdEnd} (hx : NotesNamed x)
    (hk : ∀ a, Named (k a)) : Named (orRaise s x k) := by
  cases x with
  | ok a => exact hk a
  | error r =>
    obtain ⟨c, _ | d⟩ := r
    · intro h; exact absurd rfl (hx _ rfl h)
    · exact fun _ => rfl

theorem Named.andThen {e : CmdEnd} {k : State → CmdEnd} (h : Named e) (hk : ∀ s, Named (k s)) : Named (andThen e k) := by
  by_cases hc : e.code = .ok
  · rw [andThen_of_ok hc]
    intro hn
    exact Bool.or_eq_true_iff.2 (.inr (hk _ hn))
  · rw [andThen_of_fault hc]; exact h

theorem totalDuration_named (c : Config) (s : State) : NotesNamed (totalDuration c s) :=
  .bind (.require (fun h => nomatch h)) fun _ => .bind (.mapRaise (fun n => .bind (.require (by simp)) fun _ =>
    .bind (.require (by simp)) fun _ => .ok _) _) fun _ => .ok _

theorem localSamples_named (c : Config) (s : State) (n : Nat) : NotesNamed (localSamples c s n) :=
  .bind (.require (fun h => nomatch h)) fun _ => .bind (.require (fun h => nomatch h)) fun _ =>
    .bind (.require (by simp)) fun _ => .bind (.require (by simp)) fun _ =>
    .bind (.bind (.require (by simp)) fun _ => .ok _) fun _ => .bind (.require (by simp)) fun _ =>
    .mapRaise (fun _ => .bind (.orElse (by simp)) fun _ => .ok _) _

theorem mixNoteOp_named (c : Config) (s : State) (n : Nat) : Named (mixNoteOp c s n) := by
  have hm : ∀ s' ds dl sl how, Named (mergeOp c s' ds dl sl how) := fun s' ds dl sl how =>
    .orRaise (.bind (.require (by simp)) fun _ => .require (by simp)) fun _ => .endOk _
  refine .andThen (.orRaise (localSamples_named c s n) fun _ => .endOk _) fun s' =>
    .orRaise (.bind (.require (by simp)) fun _ => .ok _) fun start => .andThen ?_ fun s'' => ?_
  · split
    · exact fun h => nomatch h
    · exact .endOk _
  · split
    · exact hm _ _ _ _ _
    · exact .endOk _

theorem mixAllOp_named (c : Config) (s : State) : Named (mixAllOp c s) := by
  refine .orRaise (.bind (.require (fun h => nomatch h)) fun _ => .require (fun h => nomatch h)) fun _ => ?_
  generalize s.enter .mix = s'
  induction songNotes s generalizing s' with
  | nil => exact .endOk _
  | cons n ns ih => exact .andThen (mixNoteOp_named c s' n) ih

theorem serBuildOp_named (c : Config) (s : State) : Named (serBuildOp c s) := by
  have hr : ∀ {b : Bool} {code : ResultCode}, namesNote code = false → NotesNamed (require b ⟨code, none⟩) :=
    fun h => .require (fun h' => absurd (h.symm.trans h') Bool.false_ne_true)
  refine .orRaise (.bind (.bind (hr rfl) fun _ => .bind (hr rfl) fun _ => .bind (hr rfl) fun _ => .bind (hr rfl) fun _ =>
    .bind (hr rfl) fun _ => hr rfl) fun _ => .mapRaise (fun _ => .orElse (by simp [namesNote])) _) fun l => ?_
  generalize (s.enter .build).setOut [] = s'
  induction headerFields s ++ l ++ padField s generalizing s' with
  | nil => exact .endOk _
  | cons b bs ih => exact .andThen (.orRaise (hr rfl) fun _ => .endOk _) ih

theorem serFlushOp_named (s : State) : Named (serFlushOp s) := by
  rw [serFlushOp_eq]
  cases nextAnswer s <;> exact fun h => nomatch h

/-- Whatever the command, a merge fault or `E_DESC` has its note in DIAG. -/
theorem bodyOf_named (c : Config) (i : Instr) (s : State) : Named (bodyOf c i s) := by
  have hosc : ∀ wave, Named (oscOp wave s) := fun wave =>
    .orRaise (.bind (.require (fun h => nomatch h)) fun _ => .orElse (fun h => nomatch h)) fun _ => .endOk _
  have hmerge : ∀ how, Named (mixMergeOp c how s) := fun how =>
    .orRaise (.bind (.require (by simp)) fun _ => .require (by simp)) fun _ => .endOk _
  have hdur : Named (mixDurOp c s) := .orRaise (totalDuration_named c s) fun _ => .endOk _
  have halloc : ∀ s', Named (mixAllocOp c s') := fun s' =>
    .orRaise (.bind (.require (fun h => nomatch h)) fun _ => .bind (.require (fun h => nomatch h)) fun _ =>
      .bind (.require (fun h => nomatch h)) fun _ => .ok _) fun _ => .endOk _
  cases i with
  | oscSine => exact hosc _
  | oscSquare => exact hosc _
  | oscSaw => exact hosc _
  | mixDur => exact hdur
  | mixAlloc => exact halloc s
  | mixGen n => exact .orRaise (localSamples_named c s n) fun _ => .endOk _
  | mixMergeAdd => exact hmerge _
  | mixMergeOvr => exact hmerge _
  | mixNote n => exact mixNoteOp_named c s n
  | mixAll => exact mixAllOp_named c s
  | qntS => exact .orRaise (.orElse (fun h => nomatch h)) fun _ => .endOk _
  | serBuild => exact serBuildOp_named c s
  | serFlush => exact serFlushOp_named s
  | render =>
    exact .andThen (.andThen (.andThen (.andThen hdur halloc) (mixAllOp_named c)) (serBuildOp_named c)) serFlushOp_named

/-- A body all of whose raises are without a note writes no DIAG. -/
theorem orRaise_silent {α : Type} {s : State} {x : Except Raise α} {k : α → CmdEnd}
    (hx : ∀ r, x = .error r → r.diag = none) (hk : ∀ a, (k a).wroteDiag = false) : (orRaise s x k).wroteDiag = false := by
  cases x with
  | ok a => exact hk a
  | error r =>
    obtain ⟨c, d⟩ := r
    have h := hx _ rfl
    simp only at h
    subst h
    rfl

/-- A test that raises without a note, and what follows it. -/
theorem require_bind_silent {α : Type} {b : Bool} {c : ResultCode} {g : Unit → Except Raise α} {r : Raise}
    (h : (require b ⟨c, none⟩ >>= g) = .error r) : r.diag = none ∨ g () = .error r := by
  cases b
  · cases h; exact .inl rfl
  · exact .inr h

theorem bufferLength_silent {c : Config} {s : State} {r : Raise} (h : bufferLength c s = .error r) : r.diag = none := by
  rcases require_bind_silent h with h | h
  · exact h
  rcases require_bind_silent h with h | h
  · exact h
  rcases require_bind_silent h with h | h
  · exact h
  cases h

theorem buildChecks_silent {c : Config} {s : State} {r : Raise} (h : buildChecks c s = .error r) : r.diag = none := by
  rcases require_bind_silent h with h | h
  · exact h
  rcases require_bind_silent h with h | h
  · exact h
  rcases require_bind_silent h with h | h
  · exact h
  rcases require_bind_silent h with h | h
  · exact h
  rcases require_bind_silent h with h | h
  · exact h
  have h' : (require (decide (totalSize s ≤ c.outMax)) ⟨.capacity, none⟩ >>= fun u => .ok u) = .error r := by
    rw [show require (decide (totalSize s ≤ c.outMax)) ⟨.capacity, none⟩ = .error r from h]; rfl
  rcases require_bind_silent h' with h | h
  · exact h
  cases h

/-- MIX.ALLOC never writes DIAG. -/
theorem mixAllocOp_silent (c : Config) (s : State) : (mixAllocOp c s).wroteDiag = false :=
  orRaise_silent (fun _ => bufferLength_silent) fun _ => rfl

theorem appendAll_silent (c : Config) (l : List (List Byte)) (s : State) : (appendAll c l s).wroteDiag = false := by
  have one : ∀ b s', (appendOp c b s').wroteDiag = false := fun b s' =>
    orRaise_silent (fun r hr => by
      rcases require_cases (decide (s'.out.length + b.length ≤ c.outMax)) ⟨.capacity, none⟩ with ⟨-, h⟩ | ⟨-, h⟩
      · rw [h] at hr; cases hr
      · rw [h] at hr; cases hr; rfl) fun _ => rfl
  induction l generalizing s with
  | nil => rfl
  | cons b l ih =>
    rw [appendAll]
    unfold andThen
    split
    · simp [one, ih]
    · exact one _ _

/-- SER.BUILD never writes DIAG. -/
theorem serBuildOp_silent (s : State) : (serBuildOp Config.this s).wroteDiag = false := by
  refine orRaise_silent (fun r hr => ?_) fun _ => appendAll_silent _ _ _
  cases hb : buildChecks Config.this s with
  | error q => rw [hb, bind_error] at hr; cases hr; exact buildChecks_silent hb
  | ok u =>
    rw [hb, bind_ok] at hr
    by_cases h : ∀ x ∈ s.acc, isnan x = false
    · rw [frames_ok h] at hr; cases hr
    · have h' : ∃ x ∈ s.acc, isnan x = true := by push Not at h; simpa using h
      rw [frames_error h'] at hr; cases hr; rfl

/-! ### CLAMPED and DIAG beside `OK` -/

/-- A body that came to its end has CLAMPED raised exactly where it wrote DIAG, and STATUS otherwise as before. -/
def ClampEnd (s : State) (e : CmdEnd) : Prop :=
  e.code = .ok → e.state.status = if e.wroteDiag then s.status ||| 0x4 else s.status

theorem ClampEnd.silent {s : State} {e : CmdEnd} (hk : Keeps s e) (h : e.code = .ok → e.wroteDiag = false) :
    ClampEnd s e := by
  intro hc; rw [h hc]; exact (hk.silent (h hc)).2

theorem ClampEnd.trans {s : State} {e : CmdEnd} {k : State → CmdEnd} (h : ClampEnd s e)
    (hk : ClampEnd e.state (k e.state)) : ClampEnd s (andThen e k) := by
  intro hc
  obtain ⟨h1, h2⟩ := andThen_code_ok.1 hc
  rw [andThen_of_ok h1]
  simp only
  rw [hk h2, h h1]
  cases e.wroteDiag <;> cases (k e.state).wroteDiag <;> simp [BitVec.or_assoc]

theorem serFlushOp_clamp (s : State) : ClampEnd s (serFlushOp s) := by intro _; rw [serFlushOp_eq]; rfl

theorem mixDurOp_clamp (s : State) : ClampEnd s (mixDurOp Config.this s) :=
  .silent (mixDurOp_keeps _ s) fun h => by obtain ⟨x, -, e⟩ := mixDurOp_of_code h; rw [e]; rfl

theorem mixAllocOp_clamp (s : State) : ClampEnd s (mixAllocOp Config.this s) :=
  .silent (mixAllocOp_keeps _ s) fun _ => mixAllocOp_silent _ s

theorem serBuildOp_clamp (s : State) : ClampEnd s (serBuildOp Config.this s) :=
  .silent (serBuildOp_keeps _ s) fun _ => serBuildOp_silent s

theorem mixAllOp_clamp (s : State) : ClampEnd s (mixAllOp Config.this s) := by
  intro hc
  obtain ⟨a, b, c⟩ := mixAllOp_code_ok hc
  rw [mixAllOp_ok a b c]
  change (if (songNotes s).filter (clampsAt s s.acc.length) = [] then s.status else s.status ||| 0x4) = _
  by_cases h : (songNotes s).filter (clampsAt s s.acc.length) = []
  · rw [if_pos h]; simp [h]
  · rw [if_neg h, if_pos (by simpa using h)]

/-- Whatever the command: beside `OK`, DIAG was written exactly where CLAMPED was raised (41_mixer R131). -/
theorem bodyOf_clamp (i : Instr) (s : State) : ClampEnd s (bodyOf Config.this i s) := by
  have hosc : ∀ w, ClampEnd s (oscOp w s) := fun w => .silent (oscOp_keeps _ s) fun _ => by
    rcases oscOp_cases w s with ⟨v, -, -, e⟩ | e <;> rw [e]; rfl
  have hmerge : ∀ how, ClampEnd s (mixMergeOp Config.this how s) := fun how => .silent (mixMergeOp_keeps _ _ s) fun h => by
    obtain ⟨-, -, e⟩ := mixMergeOp_of_code h; rw [e]; rfl
  cases i with
  | oscSine => exact hosc _
  | oscSquare => exact hosc _
  | oscSaw => exact hosc _
  | mixDur => exact mixDurOp_clamp s
  | mixAlloc => exact mixAllocOp_clamp s
  | mixGen n =>
    refine .silent (mixGenOp_keeps _ s n) fun h => ?_
    cases hx : localSamples Config.this s n with
    | ok l => simp [bodyOf, mixGenOp, hx]
    | error r =>
      change (mixGenOp Config.this s n).code = _ at h
      rw [mixGenOp_error hx, raiseEnd_code] at h
      exact absurd h (code_ne_ok_of_isFatal (localSamples_fatals _ _ _ r hx))
  | mixMergeAdd => exact hmerge _
  | mixMergeOvr => exact hmerge _
  | mixNote n =>
    intro h
    obtain ⟨hg, hf⟩ := mixNoteOp_code_ok h
    rw [show bodyOf Config.this (.mixNote n) s = _ from mixNoteOp_ok hg hf]; rfl
  | mixAll => exact mixAllOp_clamp s
  | qntS =>
    refine .silent (qntOp_keeps _ s) fun _ => ?_
    change (qntOp Config.this s).wroteDiag = false
    rcases qntOp_cases Config.this s with ⟨v, -, e⟩ | ⟨-, e⟩ <;> rw [e]; rfl
  | serBuild => exact serBuildOp_clamp s
  | serFlush => exact serFlushOp_clamp s
  | render =>
    exact .trans (.trans (.trans (.trans (mixDurOp_clamp s) (mixAllocOp_clamp _)) (mixAllOp_clamp _))
      (serBuildOp_clamp _)) (serFlushOp_clamp _)

/-- DIAG is as before where the body did not write it. -/
theorem bodyOf_diag (i : Instr) (s : State) (h : (bodyOf Config.this i s).wroteDiag = false) :
    (bodyOf Config.this i s).state.diag = s.diag := by
  by_cases h1 : i = .serFlush
  · subst h1; rw [show bodyOf Config.this .serFlush s = _ from serFlushOp_eq s]
  · by_cases h2 : i = .render
    · subst h2
      by_cases hc : (frontOp Config.this s).code = .ok
      · simp only [bodyOf, renderOp_eq, andThen_of_ok hc] at h ⊢
        rw [Bool.or_eq_false_iff] at h
        rw [serFlushOp_eq]
        exact ((frontOp_keeps _ s).silent h.1).1
      · simp only [bodyOf, renderOp_eq, andThen_of_fault hc] at h ⊢
        exact ((frontOp_keeps _ s).silent h).1
    · exact ((bodyOf_keeps _ s h1 h2).silent h).1

theorem complete_diag (c : Config) (e : CmdEnd) : (complete c e).diag = e.state.diag := by
  unfold complete; by_cases h : isFatal e.code <;> simp [h]

end Sys2Proof.Machine
end

