-- ==== Sys2Proof/Laws/Blind.lean ====
section
/-! SUPPORT. No body reads RESULT or the sequencer: in two states that differ in these alone it ends the same way. RENDER
and the unit commands are compared through this (44_render R192). -/

namespace Sys2Proof.Machine

/-- t is s but for RESULT and the sequencer. -/
def Twin (s t : State) : Prop := ∃ r p, t = { s with result := r, pc := p }

/-- Two ends are the same but for RESULT and the sequencer. -/
def TwinEnd (d e : CmdEnd) : Prop := e.code = d.code ∧ e.wroteDiag = d.wroteDiag ∧ Twin d.state e.state

theorem Twin.refl (s : State) : Twin s s := ⟨s.result, s.pc, rfl⟩

theorem Twin.enter {s t : State} (h : Twin s t) (p : Phase) : Twin (s.enter p) (t.enter p) := by
  obtain ⟨r, q, rfl⟩ := h
  exact ⟨r, ⟨p, 0, 0⟩, rfl⟩

theorem TwinEnd.endOk {s t : State} (h : Twin s t) : TwinEnd (endOk s) (endOk t) := ⟨rfl, rfl, h⟩

theorem TwinEnd.orRaise {α : Type} {s t : State} {x : Except Raise α} {k l : α → CmdEnd} (h : Twin s t)
    (hk : ∀ a, TwinEnd (k a) (l a)) : TwinEnd (orRaise s x k) (orRaise t x l) := by
  cases x with
  | ok a => exact hk a
  | error r =>
    obtain ⟨r', q, rfl⟩ := h
    obtain ⟨c, _ | d⟩ := r
    · exact ⟨rfl, rfl, r', q, rfl⟩
    · exact ⟨rfl, rfl, r', q, rfl⟩

theorem TwinEnd.andThen {d e : CmdEnd} {k l : State → CmdEnd} (h : TwinEnd d e)
    (hk : ∀ s t, Twin s t → TwinEnd (k s) (l t)) : TwinEnd (andThen d k) (andThen e l) := by
  by_cases hc : d.code = .ok
  · obtain ⟨h1, h2, h3⟩ := h
    obtain ⟨k1, k2, k3⟩ := hk _ _ h3
    rw [andThen_of_ok hc, andThen_of_ok (h1.trans hc)]
    exact ⟨k1, by rw [h2, k2], k3⟩
  · rw [andThen_of_fault hc, andThen_of_fault (by rw [h.1]; exact hc)]
    exact h

variable {s t : State}

theorem Twin.sameSong (h : Twin s t) : SameSong s t := by obtain ⟨r, q, rfl⟩ := h; exact ⟨rfl, rfl, rfl, rfl, rfl⟩

theorem mixDurOp_twin (c : Config) (h : Twin s t) : TwinEnd (mixDurOp c s) (mixDurOp c t) := by
  obtain ⟨r, q, rfl⟩ := h
  have : totalDuration c { s with result := r, pc := q } = totalDuration c s := rfl
  rw [mixDurOp, mixDurOp, this]
  exact .orRaise ⟨r, _, rfl⟩ fun a => .endOk ⟨r, _, rfl⟩

theorem mixAllocOp_twin (c : Config) (h : Twin s t) : TwinEnd (mixAllocOp c s) (mixAllocOp c t) := by
  obtain ⟨r, q, rfl⟩ := h
  have : bufferLength c { s with result := r, pc := q } = bufferLength c s := rfl
  rw [mixAllocOp, mixAllocOp, this]
  exact .orRaise ⟨r, _, rfl⟩ fun a => .endOk ⟨r, _, rfl⟩

theorem mixGenOp_twin (c : Config) (h : Twin s t) (n : Nat) : TwinEnd (mixGenOp c s n) (mixGenOp c t n) := by
  have hl := localSamples_congr h.sameSong c n
  have hn := noteAt_congr h.sameSong c n
  obtain ⟨r, q, rfl⟩ := h
  rw [mixGenOp, mixGenOp, hl]
  exact .orRaise ⟨r, _, rfl⟩ fun a => .endOk ⟨r, _, rfl⟩

theorem mergeOp_twin (c : Config) (h : Twin s t) (ds dl sl : Nat) (how : Combine) :
    TwinEnd (mergeOp c s ds dl sl how) (mergeOp c t ds dl sl how) := by
  obtain ⟨r, q, rfl⟩ := h
  exact .orRaise ⟨r, _, rfl⟩ fun a => .endOk ⟨r, _, rfl⟩

theorem placeOp_twin (c : Config) (h : Twin s t) (n start : Nat) : TwinEnd (placeOp c s n start) (placeOp c t n start) := by
  have hl : t.loc = s.loc := by obtain ⟨r, q, rfl⟩ := h; rfl
  have ha : t.acc = s.acc := by obtain ⟨r, q, rfl⟩ := h; rfl
  unfold placeOp
  simp only [hl, ha, trackOf_congr h.sameSong]
  refine .andThen ?_ fun u v k => ?_
  · split
    · obtain ⟨r, q, rfl⟩ := h; exact ⟨rfl, rfl, r, _, rfl⟩
    · exact .endOk h
  · split
    · exact mergeOp_twin c k _ _ _ _
    · exact .endOk k

theorem mixNoteOp_twin (c : Config) (h : Twin s t) (n : Nat) : TwinEnd (mixNoteOp c s n) (mixNoteOp c t n) :=
  .andThen (mixGenOp_twin c h n) fun u v k => by
    rw [noteStart_congr k.sameSong]
    exact .orRaise k fun a => placeOp_twin c k n a

theorem mixNotes_twin (c : Config) (ns : List Nat) (h : Twin s t) : TwinEnd (mixNotes c ns s) (mixNotes c ns t) := by
  induction ns generalizing s t with
  | nil => exact .endOk h
  | cons n ns ih => exact .andThen (mixNoteOp_twin c h n) fun u v k => ih k

theorem mixAllOp_twin (c : Config) (h : Twin s t) : TwinEnd (mixAllOp c s) (mixAllOp c t) := by
  rw [mixAllOp, mixAllOp, checkCounts_congr h.sameSong, checkRate_congr h.sameSong]
  have hs : songNotes t = songNotes s := by unfold songNotes; rw [h.sameSong.nnotes]
  rw [hs]
  exact .orRaise (h.enter _) fun _ => mixNotes_twin c _ (h.enter _)

theorem appendAll_twin (c : Config) (l : List (List Byte)) (h : Twin s t) : TwinEnd (appendAll c l s) (appendAll c l t) := by
  induction l generalizing s t with
  | nil => exact .endOk h
  | cons b l ih =>
    refine .andThen ?_ fun u v k => ih k
    obtain ⟨r, q, rfl⟩ := h
    exact .orRaise ⟨r, _, rfl⟩ fun a => .endOk ⟨r, _, rfl⟩

theorem serBuildOp_twin (c : Config) (h : Twin s t) : TwinEnd (serBuildOp c s) (serBuildOp c t) := by
  obtain ⟨r, q, rfl⟩ := h
  have h1 : (buildChecks c { s with result := r, pc := q } >>= fun _ => frames c { s with result := r, pc := q }) =
    (buildChecks c s >>= fun _ => frames c s) := rfl
  have h2 : headerFields { s with result := r, pc := q } = headerFields s := rfl
  have h3 : padField { s with result := r, pc := q } = padField s := rfl
  rw [serBuildOp, serBuildOp, h1, h2, h3]
  exact .orRaise ⟨r, _, rfl⟩ fun a => appendAll_twin c _ ⟨r, _, rfl⟩

theorem serFlushOp_twin (h : Twin s t) : TwinEnd (serFlushOp s) (serFlushOp t) := by
  obtain ⟨r, q, rfl⟩ := h
  rw [serFlushOp_eq, serFlushOp_eq]
  exact ⟨rfl, rfl, r, _, rfl⟩

/-- Setting and clearing bit 0 of a word in which it is clear. -/
theorem or_one_and_not_one {v : Word} (h : v.getLsbD 0 = false) : (v ||| 0x1) &&& ~~~0x1 = v := by
  have h1 : ∀ k, (0x1 : Word).getLsbD k = decide (k = 0) := by
    intro k
    rw [show (0x1 : Word) = BitVec.twoPow 32 0 from rfl, BitVec.getLsbD_twoPow]
    simp [eq_comm]
  apply BitVec.eq_of_getLsbD_eq
  intro k hk
  rw [BitVec.getLsbD_and, BitVec.getLsbD_or, BitVec.getLsbD_not, h1]
  by_cases h0 : k = 0
  · subst h0; rw [h]; rfl
  · simp [h0, hk]

/-- An acknowledged OK result is a twin of the state the body left, where RV was clear before (60_exceptions R207). -/
theorem done_ack_twin (s : State) (dv : Bool) (h : s.rv = false) : Twin s (s.done dv).ack := by
  refine ⟨if dv then 0x100 else 0x000, ⟨.idle, 0, 0⟩, ?_⟩
  unfold State.done State.ack
  rw [or_one_and_not_one h]

end Sys2Proof.Machine
end

