-- ==== Sys2Proof/Laws/Decode.lean ====
section
/-! SUPPORT. Command words as their three fields (30_encoding R80), and the decoder told by the fields. -/

namespace Sys2Proof

/-- The fields of a word put together from fields. -/
theorem fields_of_append (op sub : BitVec 8) (idx : Half) :
    opField (op ++ sub ++ idx : Word) = op ∧ subField (op ++ sub ++ idx : Word) = sub ∧
      idxField (op ++ sub ++ idx : Word) = idx := by
  refine ⟨?_, ?_, ?_⟩ <;> ext i hi <;> simp [opField, subField, idxField, BitVec.getElem_extractLsb'] <;> grind

/-- A word is its three fields. -/
theorem append_of_fields (w : Word) : (opField w ++ subField w ++ idxField w : Word) = w := by
  ext i hi
  simp [opField, subField, idxField]
  grind

/-- Words are equal when their fields are. -/
theorem append_eq_iff (op sub op' sub' : BitVec 8) (idx idx' : Half) :
    (op ++ sub ++ idx : Word) = op' ++ sub' ++ idx' ↔ op = op' ∧ sub = sub' ∧ idx = idx' := by
  constructor
  · intro h
    have a := fields_of_append op sub idx
    rw [h] at a
    have b := fields_of_append op' sub' idx'
    exact ⟨a.1.symm.trans b.1, a.2.1.symm.trans b.2.1, a.2.2.symm.trans b.2.2⟩
  · rintro ⟨rfl, rfl, rfl⟩
    rfl

/-- The mask of a CI row drops the note index. -/
theorem and_mask_CI (op sub : BitVec 8) (idx : Half) :
    (op ++ sub ++ idx : Word) &&& 0xFFFF0000 = op ++ sub ++ (0 : Half) := by
  have h : (0xFFFF0000 : Word) = BitVec.allOnes 8 ++ BitVec.allOnes 8 ++ (0 : Half) := by decide
  rw [h, BitVec.and_append, BitVec.and_append, BitVec.and_allOnes, BitVec.and_allOnes,
    show idx &&& (0 : Half) = 0 from BitVec.and_zero]

/-- The mask of the other rows keeps the whole word. -/
theorem and_mask_all (w : Word) : w &&& 0xFFFFFFFF = w := by
  have h : (0xFFFFFFFF : Word) = BitVec.allOnes 32 := by decide
  rw [h, BitVec.and_allOnes]

/-- The decoder by fields: the columns OP, SUB and IDX of 30_encoding R83. -/
theorem decode_append (op sub : BitVec 8) (idx : Half) :
    decode (op ++ sub ++ idx) =
      if op = 0x10 ∧ sub = 0 ∧ idx = 0 then .ok .oscSine
      else if op = 0x10 ∧ sub = 1 ∧ idx = 0 then .ok .oscSquare
      else if op = 0x10 ∧ sub = 2 ∧ idx = 0 then .ok .oscSaw
      else if op = 0x20 ∧ sub = 0 ∧ idx = 0 then .ok .mixDur
      else if op = 0x21 ∧ sub = 0 ∧ idx = 0 then .ok .mixAlloc
      else if op = 0x22 ∧ sub = 0 then .ok (.mixGen idx.toNat)
      else if op = 0x23 ∧ sub = 0 ∧ idx = 0 then .ok .mixMergeAdd
      else if op = 0x23 ∧ sub = 1 ∧ idx = 0 then .ok .mixMergeOvr
      else if op = 0x24 ∧ sub = 0 then .ok (.mixNote idx.toNat)
      else if op = 0x25 ∧ sub = 0 ∧ idx = 0 then .ok .mixAll
      else if op = 0x30 ∧ sub = 0 ∧ idx = 0 then .ok .qntS
      else if op = 0x40 ∧ sub = 0 ∧ idx = 0 then .ok .serBuild
      else if op = 0x41 ∧ sub = 0 ∧ idx = 0 then .ok .serFlush
      else if op = 0x50 ∧ sub = 0 ∧ idx = 0 then .ok .render
      else .error (whyIllegal (op ++ sub ++ idx)) := by
  have hAll : ∀ (a b : BitVec 8) (v : Word), v = a ++ b ++ (0 : Half) →
      ((op ++ sub ++ idx : Word) == v) = decide (op = a ∧ sub = b ∧ idx = 0) := by
    rintro a b v rfl
    rw [Bool.eq_iff_iff, beq_iff_eq, append_eq_iff, decide_eq_true_iff]
  have hCI : ∀ (a : BitVec 8) (v : Word), v = a ++ (0 : BitVec 8) ++ (0 : Half) →
      ((op ++ sub ++ (0 : Half) : Word) == v) = decide (op = a ∧ sub = 0) := by
    rintro a v rfl
    rw [Bool.eq_iff_iff, beq_iff_eq, append_eq_iff, decide_eq_true_iff]
    simp
  have step : ∀ (P : Prop) [Decidable P] (r : OpRow) (rest : List OpRow) (x y : Except Illegal Instr),
      r.selects (op ++ sub ++ idx) = decide P → r.build (idxField (op ++ sub ++ idx : Word)) = x.toOption.getD .render →
      x = .ok (x.toOption.getD .render) →
      (match rest.find? (fun r => r.selects (op ++ sub ++ idx)) with
        | some r => Except.ok (r.build (idxField (op ++ sub ++ idx : Word)))
        | none => .error (whyIllegal (op ++ sub ++ idx))) = y →
      (match (r :: rest).find? (fun r => r.selects (op ++ sub ++ idx)) with
        | some r => Except.ok (r.build (idxField (op ++ sub ++ idx : Word)))
        | none => .error (whyIllegal (op ++ sub ++ idx))) = if P then x else y := by
    intro P _ r rest x y hr hb hx hy
    rw [List.find?_cons, hr]
    by_cases hP : P
    · simp only [hP, decide_true, if_true, hb]
      exact hx.symm
    · simp only [hP, decide_false, if_false]
      exact hy
  have sAll : ∀ r : OpRow, r.mask = 0xFFFFFFFF →
      r.selects (op ++ sub ++ idx) = ((op ++ sub ++ idx : Word) == r.bits) := by
    intro r h
    rw [OpRow.selects, h, and_mask_all]
  have sCI : ∀ r : OpRow, r.mask = 0xFFFF0000 →
      r.selects (op ++ sub ++ idx) = ((op ++ sub ++ (0 : Half) : Word) == r.bits) := by
    intro r h
    rw [OpRow.selects, h, and_mask_CI]
  have hidx : idxField (op ++ sub ++ idx : Word) = idx := (fields_of_append op sub idx).2.2
  unfold decode opRows
  refine step _ _ _ _ _ ((sAll _ rfl).trans (hAll 0x10 0 _ (by decide))) rfl rfl ?_
  refine step _ _ _ _ _ ((sAll _ rfl).trans (hAll 0x10 1 _ (by decide))) rfl rfl ?_
  refine step _ _ _ _ _ ((sAll _ rfl).trans (hAll 0x10 2 _ (by decide))) rfl rfl ?_
  refine step _ _ _ _ _ ((sAll _ rfl).trans (hAll 0x20 0 _ (by decide))) rfl rfl ?_
  refine step _ _ _ _ _ ((sAll _ rfl).trans (hAll 0x21 0 _ (by decide))) rfl rfl ?_
  refine step _ _ _ _ _ ((sCI _ rfl).trans (hCI 0x22 _ (by decide))) (by rw [hidx]; rfl) rfl ?_
  refine step _ _ _ _ _ ((sAll _ rfl).trans (hAll 0x23 0 _ (by decide))) rfl rfl ?_
  refine step _ _ _ _ _ ((sAll _ rfl).trans (hAll 0x23 1 _ (by decide))) rfl rfl ?_
  refine step _ _ _ _ _ ((sCI _ rfl).trans (hCI 0x24 _ (by decide))) (by rw [hidx]; rfl) rfl ?_
  refine step _ _ _ _ _ ((sAll _ rfl).trans (hAll 0x25 0 _ (by decide))) rfl rfl ?_
  refine step _ _ _ _ _ ((sAll _ rfl).trans (hAll 0x30 0 _ (by decide))) rfl rfl ?_
  refine step _ _ _ _ _ ((sAll _ rfl).trans (hAll 0x40 0 _ (by decide))) rfl rfl ?_
  refine step _ _ _ _ _ ((sAll _ rfl).trans (hAll 0x41 0 _ (by decide))) rfl rfl ?_
  exact step _ _ _ _ _ ((sAll _ rfl).trans (hAll 0x50 0 _ (by decide))) rfl rfl rfl

end Sys2Proof
end

