-- ==== Sys2Proof/Laws/PerInstr.lean ====
section
/-! SUPPORT. One statement about every command as syntax: its word carries its row's fields (30_encoding R80, R83). -/

namespace Sys2Proof.Laws.EncodingFields

/-- The word of a well-formed command has its `OP`, `SUB` and `IDX`, and the index field gives back the note index. -/
def Statement (i : Instr) : Prop :=
  i.wellFormed = true → opField (encode i) = opOf i ∧ subField (encode i) = subOf i ∧ idxField (encode i) = idxOf i ∧
    (∀ n, i = .mixGen n ∨ i = .mixNote n → (idxField (encode i)).toNat = n)

/-- The fields of any command's word. -/
theorem fields (i : Instr) :
    opField (encode i) = opOf i ∧ subField (encode i) = subOf i ∧ idxField (encode i) = idxOf i :=
  fields_of_append _ _ _

theorem oscSine : Statement .oscSine := fun _ => ⟨(fields _).1, (fields _).2.1, (fields _).2.2, by simp⟩
theorem oscSquare : Statement .oscSquare := fun _ => ⟨(fields _).1, (fields _).2.1, (fields _).2.2, by simp⟩
theorem oscSaw : Statement .oscSaw := fun _ => ⟨(fields _).1, (fields _).2.1, (fields _).2.2, by simp⟩
theorem mixDur : Statement .mixDur := fun _ => ⟨(fields _).1, (fields _).2.1, (fields _).2.2, by simp⟩
theorem mixAlloc : Statement .mixAlloc := fun _ => ⟨(fields _).1, (fields _).2.1, (fields _).2.2, by simp⟩

theorem mixGen (n : Nat) : Statement (.mixGen n) := by
  intro h
  refine ⟨(fields _).1, (fields _).2.1, (fields _).2.2, ?_⟩
  rintro m (hm | hm) <;> cases hm
  rw [(fields _).2.2]
  simp [Instr.wellFormed] at h
  simp [idxOf]
  omega

theorem mixMergeAdd : Statement .mixMergeAdd := fun _ => ⟨(fields _).1, (fields _).2.1, (fields _).2.2, by simp⟩
theorem mixMergeOvr : Statement .mixMergeOvr := fun _ => ⟨(fields _).1, (fields _).2.1, (fields _).2.2, by simp⟩

theorem mixNote (n : Nat) : Statement (.mixNote n) := by
  intro h
  refine ⟨(fields _).1, (fields _).2.1, (fields _).2.2, ?_⟩
  rintro m (hm | hm) <;> cases hm
  rw [(fields _).2.2]
  simp [Instr.wellFormed] at h
  simp [idxOf]
  omega

theorem mixAll : Statement .mixAll := fun _ => ⟨(fields _).1, (fields _).2.1, (fields _).2.2, by simp⟩
theorem qntS : Statement .qntS := fun _ => ⟨(fields _).1, (fields _).2.1, (fields _).2.2, by simp⟩
theorem serBuild : Statement .serBuild := fun _ => ⟨(fields _).1, (fields _).2.1, (fields _).2.2, by simp⟩
theorem serFlush : Statement .serFlush := fun _ => ⟨(fields _).1, (fields _).2.1, (fields _).2.2, by simp⟩
theorem render : Statement .render := fun _ => ⟨(fields _).1, (fields _).2.1, (fields _).2.2, by simp⟩

end Sys2Proof.Laws.EncodingFields
end

