-- ==== Sys2Proof/Laws/Ports.lean ====
section
/-! SUPPORT. The step by its host transaction, the song port's addresses, and what reads and values of F come from. -/

namespace Sys2Proof.Machine

/-- A step with a host transaction is that transaction, on the state with it taken off the queue. -/
theorem step_of_host {s : State} {x : Txn} {rest : List Txn} (h : s.env.host = x :: rest) :
    step s = transact x (s.setEnv { s.env with host := rest }) := by
  simp [step, hostStep, h, popHost]

theorem maxNotes_le : Config.this.maxNotes ≤ 65536 := by
  have := Config.this.notesLessOne.isLt
  unfold Config.maxNotes
  omega

theorem maxTracks_le : Config.this.maxTracks ≤ 65536 := by
  have := Config.this.tracksLessOne.isLt
  unfold Config.maxTracks
  omega

/-- The parts of a NOTE address (20_memory R62). -/
theorem note_address {n f : Nat} (hn : n < 65536) (hf : f < 8) :
    addrIsNote (BitVec.ofNat 20 (0x80000 + 8 * n + f)) = true ∧
    ((BitVec.ofNat 20 (0x80000 + 8 * n + f)).extractLsb' 3 16).toNat = n ∧
    addrField (BitVec.ofNat 20 (0x80000 + 8 * n + f)) = f := by
  refine ⟨?_, ?_, ?_⟩
  · simp only [addrIsNote, BitVec.getLsbD_ofNat]
    simp only [Nat.testBit, Nat.shiftRight_eq_div_pow, Nat.one_and_eq_mod_two]
    simp
    omega
  · simp [Nat.shiftRight_eq_div_pow]
    omega
  · simp [addrField, Nat.shiftRight_eq_div_pow]
    omega

/-- The parts of a TRK address (20_memory R62). -/
theorem trk_address {j : Nat} (hj : j < 65536) :
    addrIsNote (BitVec.ofNat 20 j) = false ∧ ((BitVec.ofNat 20 j).extractLsb' 0 16).toNat = j ∧
    (BitVec.ofNat 20 j).extractLsb' 16 3 = 0 := by
  refine ⟨?_, ?_, ?_⟩
  · simp only [addrIsNote, BitVec.getLsbD_ofNat]
    simp only [Nat.testBit, Nat.shiftRight_eq_div_pow, Nat.one_and_eq_mod_two]
    simp
    omega
  · simp [Nat.shiftRight_eq_div_pow]
    omega
  · apply BitVec.eq_of_toNat_eq
    simp [Nat.shiftRight_eq_div_pow]
    omega

/-- Every address with bit 19 set is the NOTE address of its parts. -/
theorem address_of_note (a : BitVec 20) (h : addrIsNote a = true) :
    a = BitVec.ofNat 20 (0x80000 + 8 * (a.extractLsb' 3 16).toNat + addrField a) := by
  apply BitVec.eq_of_toNat_eq
  have := a.isLt
  simp only [addrIsNote, BitVec.getLsbD, Nat.testBit, Nat.shiftRight_eq_div_pow, Nat.one_and_eq_mod_two] at h
  simp [addrField, Nat.shiftRight_eq_div_pow] at h ⊢
  omega

/-- Every address with bits 19 to 16 clear is the TRK address of its index. -/
theorem address_of_trk (a : BitVec 20) (h : addrIsNote a = false) (h0 : a.extractLsb' 16 3 = 0) :
    a = BitVec.ofNat 20 (a.extractLsb' 0 16).toNat := by
  apply BitVec.eq_of_toNat_eq
  have := a.isLt
  have h1 := congrArg BitVec.toNat h0
  simp only [addrIsNote, BitVec.getLsbD, Nat.testBit, Nat.shiftRight_eq_div_pow, Nat.one_and_eq_mod_two] at h
  simp [Nat.shiftRight_eq_div_pow] at h h1 ⊢
  omega

/-- What a table gives is one of its entries. -/
theorem mem_of_tableGet {α : Type} {t : Table α} {n : Nat} {x : α} (h : tableGet t n = some x) : (n, x) ∈ t := by
  induction t with
  | nil => simp [tableGet] at h
  | cons e t ih =>
    obtain ⟨a, v⟩ := e
    simp only [tableGet] at h
    split at h
    · next hn => cases h; subst hn; simp
    · exact List.mem_cons_of_mem _ (ih h)

/-- The fields of every note are values of F. -/
theorem noteAt_inF {s : State} (h : s.song.Wf Config.this) (n : Nat) :
    inF Config.this.floatFmt (noteAt Config.this s n).freq = true ∧
    inF Config.this.floatFmt (noteAt Config.this s n).vol = true ∧
    inF Config.this.floatFmt (noteAt Config.this s n).start = true ∧
    inF Config.this.floatFmt (noteAt Config.this s n).dur = true := by
  have key : ∀ (t : Table Fl) k, TableInF Config.this.floatFmt t →
      inF Config.this.floatFmt (fieldAt Config.this s t n k) = true := by
    intro t k ht
    unfold fieldAt
    cases hg : tableGet t n with
    | none => exact fit_inF _
    | some x => exact ht _ (mem_of_tableGet hg)
  exact ⟨key _ _ h.freqF, key _ _ h.volF, key _ _ h.startF, key _ _ h.durF⟩

end Sys2Proof.Machine
end

