-- ==== Sys2Proof/Laws/Table.lean ====
section
/-! SUPPORT. The laws of the sparse tables: a read after a write, and the canonical form that every write keeps. -/

namespace Sys2Proof.Machine

variable {α : Type}

/-- Reading the entry just written gives the value written. -/
@[simp] theorem tableGet_tableSet_same (t : Table α) (k : Nat) (v : α) : tableGet (tableSet t k v) k = some v := by
  induction t with
  | nil => simp [tableSet, tableGet]
  | cons e t ih =>
    obtain ⟨a, w⟩ := e
    simp only [tableSet]
    split
    · simp [tableGet]
    · split
      · simp [tableGet]
      · next h => rw [tableGet, if_neg h, ih]

/-- A write leaves every other entry alone. -/
theorem tableGet_tableSet_other (t : Table α) {k j : Nat} (v : α) (h : j ≠ k) :
    tableGet (tableSet t k v) j = tableGet t j := by
  induction t with
  | nil => simp [tableSet, tableGet, h]
  | cons e t ih =>
    obtain ⟨a, w⟩ := e
    simp only [tableSet]
    split
    · simp [tableGet, h]
    · split
      · next hka => subst hka; simp [tableGet, h]
      · simp only [tableGet, ih]

/-- The entries after a write are the new one and old ones. -/
theorem mem_tableSet {t : Table α} {k : Nat} {v : α} {e : Nat × α} (h : e ∈ tableSet t k v) : e = (k, v) ∨ e ∈ t := by
  induction t with
  | nil => simpa [tableSet] using h
  | cons d t ih =>
    obtain ⟨a, w⟩ := d
    simp only [tableSet] at h
    split at h
    · simpa using h
    · split at h
      · rcases List.mem_cons.1 h with h | h
        · exact .inl h
        · exact .inr (List.mem_cons_of_mem _ h)
      · rcases List.mem_cons.1 h with h | h
        · exact .inr (h ▸ List.mem_cons_self)
        · exact (ih h).imp id (List.mem_cons_of_mem _)

/-- A write keeps the canonical form. -/
theorem tableSet_wf {t : Table α} (k : Nat) (v : α) (h : TableWf t) : TableWf (tableSet t k v) := by
  induction t with
  | nil => simp [TableWf, tableSet]
  | cons d t ih =>
    obtain ⟨a, w⟩ := d
    have hd : (∀ x ∈ t.map Prod.fst, a < x) ∧ TableWf t := by simpa [TableWf] using h
    simp only [tableSet]
    split
    · next hka =>
      refine List.pairwise_cons.2 ⟨fun x hx => ?_, h⟩
      rcases List.mem_cons.1 hx with rfl | hx
      · exact hka
      · exact hka.trans (hd.1 x hx)
    · split
      · next hka => subst hka; exact h
      · next hnlt hne =>
        refine List.pairwise_cons.2 ⟨fun x hx => ?_, ih hd.2⟩
        obtain ⟨e, he, rfl⟩ := List.mem_map.1 hx
        rcases mem_tableSet he with rfl | he
        · omega
        · exact hd.1 _ (List.mem_map_of_mem he)

end Sys2Proof.Machine
end

