-- ==== Sys2Proof/Tests/Slice0.lean ====
section
/-! SUPPORT. Tests: ill-formed commands, command words written out from 30_encoding R83, single commands on the vectors of
95_test_vectors, and for each obligation with hypotheses a state that meets them. `Config.this` is opaque, so the vectors
run the body of a command on a configuration of this file, in both formats. -/

namespace Sys2Proof.Tests

/-! Theorems that the kernel evaluates wait for each other; elaborated all at once they would each hold a thread. -/

set_option Elab.async false

open Sys2Proof.Machine

/-! ### WellFormed: the ill-formed commands -/

theorem test_mixGen_index_too_large : Instr.wellFormed (.mixGen 65536) = false := by decide
theorem test_mixNote_index_too_large : Instr.wellFormed (.mixNote 65536) = false := by decide
theorem test_last_index_well_formed : (Instr.mixGen 65535).wellFormed = true ∧ (Instr.mixNote 65535).wellFormed = true := by
  decide

/-! ### Words (30_encoding R83, R84; 95_test_vectors 2.1): OP, SUB and IDX written out in binary -/

theorem test_word_oscSine : decode (0b00010000_00000000_0000000000000000 : Word) = .ok .oscSine := by decide
theorem test_word_oscSquare : decode (0b00010000_00000001_0000000000000000 : Word) = .ok .oscSquare := by decide
theorem test_word_oscSaw : decode (0b00010000_00000010_0000000000000000 : Word) = .ok .oscSaw := by decide
theorem test_word_mixDur : decode (0b00100000_00000000_0000000000000000 : Word) = .ok .mixDur := by decide
theorem test_word_mixAlloc : decode (0b00100001_00000000_0000000000000000 : Word) = .ok .mixAlloc := by decide
theorem test_word_mixGen : decode (0b00100010_00000000_0000000000000101 : Word) = .ok (.mixGen 5) := by decide
theorem test_word_mixMergeAdd : decode (0b00100011_00000000_0000000000000000 : Word) = .ok .mixMergeAdd := by decide
theorem test_word_mixMergeOvr : decode (0b00100011_00000001_0000000000000000 : Word) = .ok .mixMergeOvr := by decide
theorem test_word_mixNote : decode (0b00100100_00000000_1111111111111111 : Word) = .ok (.mixNote 65535) := by decide
theorem test_word_mixAll : decode (0b00100101_00000000_0000000000000000 : Word) = .ok .mixAll := by decide
theorem test_word_qntS : decode (0b00110000_00000000_0000000000000000 : Word) = .ok .qntS := by decide
theorem test_word_serBuild : decode (0b01000000_00000000_0000000000000000 : Word) = .ok .serBuild := by decide
theorem test_word_serFlush : decode (0b01000001_00000000_0000000000000000 : Word) = .ok .serFlush := by decide
theorem test_word_render : decode (0b01010000_00000000_0000000000000000 : Word) = .ok .render := by decide
theorem test_illegal_instrument : decode 0x10030000 = .error .noInstrument := by decide
theorem test_illegal_combine : decode 0x23020000 = .error .noCombineRule := by decide
theorem test_illegal_index : decode 0x10000001 = .error .idxNotZero ∧ decode 0x20000001 = .error .idxNotZero := by decide
theorem test_illegal_sub : decode 0x22010005 = .error .subNotZero := by decide
theorem test_illegal_op : decode 0x42000000 = .error .unassignedOp ∧ decode 0 = .error .unassignedOp := by decide
theorem test_encode_mixGen : encode (.mixGen 5) = 0x22000005 ∧ encode .mixMergeOvr = 0x23010000 := by decide
theorem test_table_word : decodeTableWord 32 0x2400FFFF = some (.mixNote 65535) ∧ decodeTableWord 32 0 = none := by decide

/-! ### A configuration and values for the vectors -/

/-- The largest capacities of 00_scope R6, and a SIN that is 1 wherever the laws leave it open. -/
def cfg (f : FloatFmt) : Config := ⟨f, fun _ => Fl.one, 65535, 65535, 0xFFFFFFFF, 0xFFFFFFFF, 4294967259⟩

/-- The value `n / 2^k`, negative where `neg`. -/
def val (neg : Bool) (n k : Nat) : Fl := .fin neg (n * 2 ^ (1074 - k))

/-- The largest finite value of a format. -/
def maxFinite : FloatFmt → Fl
  | .binary32 => .fin false (2 ^ 1202 - 2 ^ 1178)
  | .binary64 => .fin false (2 ^ 2098 - 2 ^ 2045)

/-- One track with an instrument, one note (freq, vol, start, dur) on it. -/
def song1 (instrument : BitVec 2) (freq vol start dur : Fl) : SongStore :=
  { trk := [(0, instrument)], track := [(0, 0)], freq := [(0, freq)], vol := [(0, vol)], start := [(0, start)],
    dur := [(0, dur)] }

/-- Reset with one note and a sample rate. -/
def one (instrument : BitVec 2) (freq vol start dur : Fl) (rate : Word) : State :=
  { State.reset with song := song1 instrument freq vol start dur, ntracks := 1, nnotes := 1, srate := rate }

/-! ### The Oscillator (95_test_vectors 2.3) -/

theorem test_oscSine_time_zero : ∀ f ∈ [FloatFmt.binary32, .binary64],
    (oscOp (oscSine (cfg f)) { State.reset with oscFreq := val false 440 0 }).state.oscOut = Fl.zero := by decide +kernel

theorem test_oscSine_uses_sin : ∀ f ∈ [FloatFmt.binary32, .binary64],
    (oscOp (oscSine (cfg f)) { State.reset with oscFreq := Fl.one, oscT := val false 1 2 }).state.oscOut = Fl.one := by
  decide +kernel

theorem test_oscSquare_edge : ∀ f ∈ [FloatFmt.binary32, .binary64],
    (oscOp (oscSquare (cfg f)) { State.reset with oscFreq := Fl.one, oscT := val false 1 1 }).state.oscOut =
      Fl.minusOne := by decide +kernel

/-- 25165827 is a tie in `binary32` and rounds to the even 25165828; it is exact in `binary64`. -/
theorem test_oscSquare_rounds :
    (oscOp (oscSquare (cfg .binary32))
      { State.reset with oscFreq := val false 3 1, oscT := val false 8388609 0 }).state.oscOut = Fl.one ∧
    (oscOp (oscSquare (cfg .binary64))
      { State.reset with oscFreq := val false 3 1, oscT := val false 8388609 0 }).state.oscOut = Fl.minusOne := by
  decide +kernel

theorem test_oscSaw_quarter : ∀ f ∈ [FloatFmt.binary32, .binary64],
    (oscOp (oscSaw (cfg f)) { State.reset with oscFreq := val false 4 0, oscT := val false 5 4 }).state.oscOut =
      val true 1 1 := by decide +kernel

theorem test_oscSaw_overflow : ∀ f ∈ [FloatFmt.binary32, .binary64],
    (oscOp (oscSaw (cfg f)) { State.reset with oscFreq := maxFinite f, oscT := val false 2 0 }).code = .numeric := by
  decide +kernel

/-! ### The Mixer (95_test_vectors 2.4) -/

theorem test_mixDur_end : ∀ f ∈ [FloatFmt.binary32, .binary64],
    (mixDurOp (cfg f) (one 1 Fl.one Fl.one (val false 1 1) (val false 1 3) 4)).state.totdur = val false 5 3 := by
  decide +kernel

theorem test_mixDur_overflow : ∀ f ∈ [FloatFmt.binary32, .binary64],
    (complete (cfg f) (mixDurOp (cfg f) (one 1 Fl.one Fl.one (maxFinite f) (maxFinite f) 4))).result = 0x108 := by
  decide +kernel

theorem test_mixAlloc_ceil : ∀ f ∈ [FloatFmt.binary32, .binary64],
    (mixAllocOp (cfg f) { State.reset with totdur := val false 5 3, srate := 4 }).state.acc =
      [Fl.zero, Fl.zero, Fl.zero] := by decide +kernel

theorem test_mixAlloc_capacity : ∀ f ∈ [FloatFmt.binary32, .binary64],
    (mixAllocOp { cfg f with accMaxWord := 3 } { State.reset with totdur := Fl.one, srate := 4 }).code = .capacity := by
  decide +kernel

theorem test_mixGen_negative_volume : ∀ f ∈ [FloatFmt.binary32, .binary64],
    (mixGenOp (cfg f) (one 1 Fl.one (val true 1 1) Fl.zero Fl.one 4) 0).state.loc =
      [val true 1 1, val true 1 1, val false 1 1, val false 1 1] := by decide +kernel

theorem test_mixGen_index : (complete (cfg .binary64) (mixGenOp (cfg .binary64)
    { one 1 Fl.one Fl.one Fl.zero Fl.one 4 with nnotes := 3 } 3)).diag = 0x00000003 := by decide +kernel

theorem test_mergeAdd_window : ∀ f ∈ [FloatFmt.binary32, .binary64],
    (mixMergeOp (cfg f) .add { State.reset with
      acc := [Fl.zero, Fl.zero, val false 1 1, val false 1 1], loc := [val false 1 1, val false 1 1],
      mrgStart := 2, mrgLen := 2 }).state.acc = [Fl.zero, Fl.zero, Fl.one, Fl.one] := by decide +kernel

/-- `0xFFFFFFFF + 0xFFFFFFFF` does not wrap. -/
theorem test_mergeAdd_no_wrap : (mixMergeOp (cfg .binary64) .add
    { State.reset with acc := [Fl.zero], mrgStart := 0xFFFFFFFF, mrgLen := 0xFFFFFFFF }).code = .bounds := by
  decide +kernel

theorem test_mergeOvr_window : ∀ f ∈ [FloatFmt.binary32, .binary64],
    (mixMergeOp (cfg f) .overwrite { State.reset with
      acc := [Fl.one, Fl.one, Fl.one, Fl.one], loc := [val false 1 1, val true 1 1],
      mrgStart := 1, mrgLen := 2 }).state.acc = [Fl.one, val false 1 1, val true 1 1, Fl.one] := by decide +kernel

theorem test_mergeOvr_length : (mixMergeOp (cfg .binary64) .overwrite
    { State.reset with acc := [Fl.one, Fl.one, Fl.one, Fl.one], loc := [Fl.one, Fl.one], mrgStart := 2, mrgLen := 1 }).code =
      .mergeLen := by decide +kernel

theorem test_mixNote_places : ∀ f ∈ [FloatFmt.binary32, .binary64],
    (mixNoteOp (cfg f) { one 2 Fl.one (val false 1 1) (val false 1 2) (val false 1 1) 4 with
      acc := [Fl.zero, Fl.zero, Fl.zero, Fl.zero] } 0).state.acc =
      [Fl.zero, val true 1 1, val true 1 2, Fl.zero] := by decide +kernel

theorem test_mixNote_clamps : ∀ f ∈ [FloatFmt.binary32, .binary64],
    (complete (cfg f) (mixNoteOp (cfg f) { one 1 Fl.one (val false 1 1) Fl.zero Fl.one 8 with
      acc := [Fl.zero, Fl.zero, Fl.zero, Fl.zero] } 0)).result = 0x100 := by decide +kernel

/-- Two equal notes double; the sum is not clipped in ACC. -/
theorem test_mixAll_doubles : ∀ f ∈ [FloatFmt.binary32, .binary64],
    (mixAllOp (cfg f) { State.reset with
      song := { trk := [(0, 1)], track := [(0, 0), (1, 0)], freq := [(0, Fl.one), (1, Fl.one)],
                vol := [(0, val false 3 2), (1, val false 3 2)], start := [(0, Fl.zero), (1, Fl.zero)],
                dur := [(0, Fl.one), (1, val false 1 1)] },
      ntracks := 1, nnotes := 2, srate := 4, acc := [Fl.zero, Fl.zero, Fl.zero, Fl.zero] }).state.acc =
      [val false 3 1, val false 3 1, val true 3 2, val true 3 2] := by decide +kernel

/-! ### The Quantizer (95_test_vectors 2.5) -/

theorem test_qntS_floor : ∀ f ∈ [FloatFmt.binary32, .binary64],
    (qntOp (cfg f) { State.reset with qntIn := val true 1 1 }).state.qntOut = 0xFFFFC000 := by decide +kernel

theorem test_qntS_clips : ∀ f ∈ [FloatFmt.binary32, .binary64],
    (qntOp (cfg f) { State.reset with qntIn := .inf true }).state.qntOut = 0xFFFF8001 := by decide +kernel

/-! ### The Container Writer and RENDER (95_test_vectors 2.6, P1 and P2) -/

theorem test_serBuild_frames : ∀ f ∈ [FloatFmt.binary32, .binary64],
    (serBuildOp (cfg f) { State.reset with srate := 4, chmode := 1, acc := [val false 3 1] }).state.out =
      [0x52, 0x49, 0x46, 0x46, 0x28, 0x00, 0x00, 0x00, 0x57, 0x41, 0x56, 0x45, 0x66, 0x6D, 0x74, 0x20,
       0x10, 0x00, 0x00, 0x00, 0x01, 0x00, 0x02, 0x00, 0x04, 0x00, 0x00, 0x00, 0x10, 0x00, 0x00, 0x00,
       0x04, 0x00, 0x10, 0x00, 0x64, 0x61, 0x74, 0x61, 0x04, 0x00, 0x00, 0x00, 0xFF, 0x7F, 0xFF, 0x7F] := by
  decide +kernel

theorem test_serBuild_byte_rate :
    (serBuildOp (cfg .binary64) { State.reset with srate := 0x80000000 }).code = .config := by decide +kernel

theorem test_serFlush_fail : (complete (cfg .binary64) (serFlushOp
    { State.reset with out := [0x52], env := { Env.reset with sinkAnswers := [false] } })).status = 0x1 := by decide +kernel

theorem test_render_empty : ∀ f ∈ [FloatFmt.binary32, .binary64],
    (renderOp (cfg f) { State.reset with srate := 44100, env := { Env.reset with sinkAnswers := [true] } }).state.env.sinkLog =
      [⟨[0x52, 0x49, 0x46, 0x46, 0x24, 0x00, 0x00, 0x00, 0x57, 0x41, 0x56, 0x45, 0x66, 0x6D, 0x74, 0x20,
         0x10, 0x00, 0x00, 0x00, 0x01, 0x00, 0x01, 0x00, 0x44, 0xAC, 0x00, 0x00, 0x88, 0x58, 0x01, 0x00,
         0x02, 0x00, 0x10, 0x00, 0x64, 0x61, 0x74, 0x61, 0x00, 0x00, 0x00, 0x00], true⟩] := by decide +kernel

theorem test_render_square : ∀ f ∈ [FloatFmt.binary32, .binary64],
    ((renderOp (cfg f) { one 1 Fl.one (val false 1 1) Fl.zero Fl.one 4 with
      env := { Env.reset with sinkAnswers := [true] } }).state.out.drop 44) =
      [0xFF, 0x3F, 0xFF, 0x3F, 0x00, 0xC0, 0x00, 0xC0] := by decide +kernel

/-! ### The register port (95_test_vectors 2.2) -/

theorem test_status_w1c : (regWrite (cfg .binary64) { State.reset with status := 0x3 } 0x01 0x3).status = 0x2 := by decide
theorem test_status_discard : (regWrite (cfg .binary64) { State.reset with status := 0x9 } 0x01 0x1).status = 0x8 := by decide
theorem test_ofBits : ofBits .binary32 0x3F800000 = Fl.one ∧ ofBits .binary64 0xBFF0000000000000 = Fl.minusOne ∧
    ofBits .binary32 0x80000000 = .fin true 0 ∧ ofBits .binary32 0x7F800001 = .nan := by decide +kernel

/-! ### Witnesses: a state and operands that meet the hypotheses of each obligation that has some -/

/-- Reset with one host transaction waiting. -/
def hosted (x : Txn) : State := { State.reset with env := { Env.reset with host := [x] } }

/-- One note at time 0 that lasts no time, at one sample a second: it fits every configuration. -/
def quiet : State := one 1 Fl.one Fl.one Fl.zero Fl.zero 1

/-- One note of one second at one sample a second. -/
def oneSecond : State := one 1 Fl.one Fl.one Fl.zero Fl.one 1

theorem witness_decode_of_encode : (Instr.mixNote 65535).wellFormed = true ∧ (Instr.mixGen 0).wellFormed = true ∧
    Instr.render.wellFormed = true := by decide

theorem witness_encode_of_decode : decode 0x2200FFFF = .ok (.mixGen 65535) := by decide

/-- Every row has a word, and the last clause has one outside all rows. -/
theorem witness_word_selects_row : (0x10000000 : Word) &&& 0xFFFFFFFF = 0x10000000 ∧
    (0x10010000 : Word) &&& 0xFFFFFFFF = 0x10010000 ∧ (0x10020000 : Word) &&& 0xFFFFFFFF = 0x10020000 ∧
    (0x20000000 : Word) &&& 0xFFFFFFFF = 0x20000000 ∧ (0x21000000 : Word) &&& 0xFFFFFFFF = 0x21000000 ∧
    (0x2200FFFF : Word) &&& 0xFFFF0000 = 0x22000000 ∧ (0x23000000 : Word) &&& 0xFFFFFFFF = 0x23000000 ∧
    (0x23010000 : Word) &&& 0xFFFFFFFF = 0x23010000 ∧ (0x2400FFFF : Word) &&& 0xFFFF0000 = 0x24000000 ∧
    (0x25000000 : Word) &&& 0xFFFFFFFF = 0x25000000 ∧ (0x30000000 : Word) &&& 0xFFFFFFFF = 0x30000000 ∧
    (0x40000000 : Word) &&& 0xFFFFFFFF = 0x40000000 ∧ (0x41000000 : Word) &&& 0xFFFFFFFF = 0x41000000 ∧
    (0x50000000 : Word) &&& 0xFFFFFFFF = 0x50000000 ∧
    (¬ (0x10000001 : Word) ∈ [0x10000000, 0x10010000, 0x10020000, 0x20000000, 0x21000000, 0x23000000, 0x23010000,
      0x25000000, 0x30000000, 0x40000000, 0x41000000, 0x50000000]) ∧
    ¬ (0x10000001 : Word) &&& 0xFFFF0000 ∈ [0x22000000, 0x24000000] := by decide

/-- A host that writes any word, and the fields of one illegal word of each class: OP 42, SUB 3 and 2 at their limits, SUB
and IDX not zero. -/
theorem witness_illegal_words : (∀ op sub : BitVec 8, ∀ idx : Half, ∀ bits, bits = (op ++ sub ++ idx : Word).setWidth 64 →
      (hosted (.regWrite 0 bits)).env.host = [.regWrite 0 bits] ∧ (hosted (.regWrite 0 bits)).fatal = false ∧
      (hosted (.regWrite 0 bits)).rv = false ∧ bits.setWidth 32 = (op ++ sub ++ idx : Word)) ∧
    (¬ (0x42 : BitVec 8) ∈ [0x10, 0x20, 0x21, 0x22, 0x23, 0x24, 0x25, 0x30, 0x40, 0x41, 0x50]) ∧
    3 ≤ (0x03 : BitVec 8).toNat ∧ 2 ≤ (0x02 : BitVec 8).toNat ∧
    ((0x22 : BitVec 8) ∈ [0x20, 0x21, 0x22, 0x24, 0x25, 0x30, 0x40, 0x41, 0x50] ∧ (0x01 : BitVec 8) ≠ 0) ∧
    ((0x10 : BitVec 8) ∈ [0x10, 0x20, 0x21, 0x23, 0x25, 0x30, 0x40, 0x41, 0x50] ∧ (0x0001 : Half) ≠ 0) := by
  refine ⟨?_, by decide⟩
  rintro op sub idx bits rfl
  exact ⟨rfl, by simp [hosted, State.fatal, State.reset], by simp [hosted, State.rv, State.reset], by simp⟩

theorem witness_step_runs : (hosted (.regWrite 0 0x50000000)).env.host = [.regWrite 0 0x50000000] ∧
    (hosted (.regWrite 0 0x50000000)).fatal = false ∧ (hosted (.regWrite 0 0x50000000)).rv = false ∧
    decode ((0x50000000 : BitVec 64).setWidth 32) = .ok .render := by decide

/-- The four cases of the accept rule: FATAL, RV, an illegal word, a command. -/
theorem witness_accept_rule :
    (∀ v : Word, { hosted (.regWrite 0 0) with status := v }.env.host = [.regWrite 0 0]) ∧
    { hosted (.regWrite 0 0) with status := 0x3 }.fatal = true ∧
    { hosted (.regWrite 0 0) with status := 0x1 }.fatal = false ∧ { hosted (.regWrite 0 0) with status := 0x1 }.rv = true ∧
    (hosted (.regWrite 0 0)).fatal = false ∧ (hosted (.regWrite 0 0)).rv = false ∧
    decode ((0 : BitVec 64).setWidth 32) = .error .unassignedOp ∧
    decode ((0x41000000 : BitVec 64).setWidth 32) = .ok .serFlush :=
  ⟨fun _ => rfl, by decide, by decide, by decide, by decide, by decide, by decide, by decide⟩

theorem witness_placed_command : decodeTableWord 32 0x41000000 = some .serFlush := by decide

theorem witness_idle : State.reset.env.host = [] := rfl

theorem witness_status_write : (hosted (.regWrite 1 0xF)).env.host = [.regWrite 1 0xF] := rfl

/-- The read-only numbers and the first unassigned ones. -/
theorem witness_ignored_writes : ∀ n ∈ [0x02, 0x03, 0x09, 0x0A, 0x0B, 0x0C, 0x0F, 0x12, 0x14, 0x16, 0x17, 0x18, 0x19, 0xFF],
    ¬ n ∈ [0x00, 0x01, 0x04, 0x05, 0x06, 0x07, 0x08, 0x0D, 0x0E, 0x10, 0x11, 0x13, 0x15] := by decide

theorem witness_register_write : ∀ n bits, (hosted (.regWrite n bits)).env.host = [.regWrite n bits] := fun _ _ => rfl

theorem witness_register_read : ∀ n, (hosted (.regRead n)).env.host = [.regRead n] := fun _ => rfl

/-- The last element below a length and the first index past it. -/
theorem witness_peek : (hosted (.regRead 0x16)).fatal = false ∧ (0 : Word).toNat < [Fl.one].length ∧
    [Fl.one].length ≤ (1 : Word).toNat ∧ (0 : Word).toNat < [(0x52 : Byte)].length := by decide

/-- The first and the last note's addresses, and the first and the last track's, and an address of no entry. -/
theorem witness_song_write : (∀ a b, (hosted (.songWrite a b)).env.host = [.songWrite a b]) ∧
    0 < Config.this.maxNotes ∧ Config.this.maxNotes - 1 < Config.this.maxNotes ∧
    0 < Config.this.maxTracks ∧ Config.this.maxTracks - 1 < Config.this.maxTracks ∧
    (∀ n f, n < Config.this.maxNotes → f < 5 → (0x80005 : BitVec 20) ≠ BitVec.ofNat 20 (0x80000 + 8 * n + f)) ∧
    (∀ j, j < Config.this.maxTracks → (0x80005 : BitVec 20) ≠ BitVec.ofNat 20 j) := by
  have hn := maxNotes_le
  have ht := maxTracks_le
  have pn : 0 < Config.this.maxNotes := Nat.succ_pos _
  have pt : 0 < Config.this.maxTracks := Nat.succ_pos _
  refine ⟨fun _ _ => rfl, pn, by omega, pt, by omega, fun n f h1 h2 h => ?_, fun j h1 h => ?_⟩
  · have := congrArg BitVec.toNat h
    simp at this
    omega
  · have := congrArg BitVec.toNat h
    simp at this
    omega

/-- Entries that are written, and an address of none. -/
theorem witness_song_read : (∀ a, (hosted (.songRead a)).env.host = [.songRead a]) ∧
    tableGet quiet.song.track 0 = some 0 ∧ tableGet quiet.song.freq 0 = some Fl.one ∧
    tableGet quiet.song.vol 0 = some Fl.one ∧ tableGet quiet.song.start 0 = some Fl.zero ∧
    tableGet quiet.song.dur 0 = some Fl.zero ∧ tableGet quiet.song.trk 0 = some 1 := by
  refine ⟨fun _ => rfl, rfl, rfl, rfl, rfl, rfl, rfl⟩

theorem witness_reset_event : (hosted .reset).env.host = [.reset] := rfl

theorem witness_only_reset_clears : ({ hosted (.regWrite 1 0xF) with status := 0x2 }).env.host = [.regWrite 1 0xF] ∧
    Txn.regWrite 1 0xF ≠ .reset ∧ ({ hosted (.regWrite 1 0xF) with status := 0x2 }).fatal = true ∧
    ∃ t, step { hosted (.regWrite 1 0xF) with status := 0x2 } = .next t := by
  refine ⟨rfl, by decide, by decide, _, rfl⟩

/-- The same for a write of CMD. -/
theorem witness_only_reset_clears_command :
    { hosted (.regWrite 0 0x50000000) with status := 0x2 }.env.host = [.regWrite 0 0x50000000] ∧
    Txn.regWrite 0 0x50000000 ≠ .reset ∧ { hosted (.regWrite 0 0x50000000) with status := 0x2 }.fatal = true ∧
    (∃ bits, Txn.regWrite 0 0x50000000 = .regWrite 0 bits) ∧
    ∃ t, step { hosted (.regWrite 0 0x50000000) with status := 0x2 } = .next t := by
  exact ⟨rfl, by decide, by decide, ⟨_, rfl⟩, _, rfl⟩

/-! The Oscillator -/

/-- In the domain at time 0, and each way out of it: an infinite time, a negative time, an infinite frequency, a frequency
of zero, a product that overflows. -/
theorem witness_osc : ∀ f ∈ [FloatFmt.binary32, .binary64],
    finite Fl.zero = true ∧ fle Fl.zero Fl.zero = true ∧ finite Fl.one = true ∧ flt Fl.zero Fl.one = true ∧
    finite (fmul f (fmul f (twoPi f) Fl.one) Fl.zero) = true ∧ finite (fmul f (fmul f (toF f 2) Fl.one) Fl.zero) = true ∧
    finite (fmul f Fl.one Fl.zero) = true ∧
    finite (.inf false) = false ∧ fle Fl.zero Fl.minusOne = false ∧ flt Fl.zero Fl.zero = false ∧
    finite (fmul f (fmul f (twoPi f) (maxFinite f)) Fl.one) = false ∧
    finite (fmul f (fmul f (toF f 2) (maxFinite f)) Fl.one) = false ∧
    finite (fmul f (maxFinite f) (val false 2 0)) = false := by decide +kernel

theorem witness_eval_range : ∀ f ∈ [FloatFmt.binary32, .binary64], ∀ code ∈ [(0 : BitVec 2), 1, 2],
    inDom (val false 1 2) Fl.one = true ∧ (evalWave (cfg f) code (val false 1 2) Fl.one).isSome = true := by decide +kernel

theorem witness_saw_range : inDom Fl.zero Fl.one = true ∧ (oscSaw (cfg .binary32) Fl.zero Fl.one).isSome = true := by
  decide +kernel

theorem witness_time_zero : ∀ f ∈ [FloatFmt.binary32, .binary64],
    finite (val false 440 0) = true ∧ flt Fl.zero (val false 440 0) = true ∧
    finite (fmul f (twoPi f) (val false 440 0)) = true ∧ finite (fmul f (toF f 2) (val false 440 0)) = true := by
  decide +kernel

/-- The argument exactly 2^P. -/
theorem witness_large_argument : ∀ f ∈ [FloatFmt.binary32, .binary64],
    inDom (toF f (2 ^ prec f)) (val false 1 1) = true ∧ inDom (toF f (2 ^ prec f)) Fl.one = true ∧
    finite (fmul f (fmul f (toF f 2) (val false 1 1)) (toF f (2 ^ prec f))) = true ∧
    fle (toF f (2 ^ prec f)) (fmul f (fmul f (toF f 2) (val false 1 1)) (toF f (2 ^ prec f))) = true ∧
    finite (fmul f Fl.one (toF f (2 ^ prec f))) = true ∧
    fle (toF f (2 ^ prec f)) (fmul f Fl.one (toF f (2 ^ prec f))) = true := by decide +kernel

/-! The Mixer -/

theorem one_counts (s : State) (h1 : s.ntracks = 1) (h2 : s.nnotes = 1) : CountsOk s := by
  have pn : 0 < Config.this.maxNotes := Nat.succ_pos _
  have pt : 0 < Config.this.maxTracks := Nat.succ_pos _
  constructor
  · rw [h1]; exact pt
  · rw [h2]; exact pn

theorem quiet_counts : CountsOk quiet := one_counts _ rfl rfl

theorem quiet_valid : NoteValid quiet 0 where
  track := by decide
  instrument := by decide
  freq := ⟨rfl, by decide +kernel⟩
  vol := rfl
  start := ⟨rfl, by decide⟩
  dur := ⟨rfl, by decide⟩

theorem fadd_zero_zero (f : FloatFmt) : fadd f Fl.zero Fl.zero = Fl.zero := by simp [fadd, Fl.zero, roundInt, signed]

theorem fmul_zero_finite (f : FloatFmt) {x : Fl} (h : finite x = true) : ∃ s, fmul f Fl.zero x = .fin s 0 := by
  obtain ⟨t, n, rfl⟩ := exists_fin_of_finite h
  exact ⟨false != t, by simp [fmul, Fl.zero, pack, roundMag_zero f fl_unit_pos]⟩

theorem toF_1 (f : FloatFmt) : toF f (1 : Word).toNat = Fl.one := toF_one f

theorem quiet_end : endTime quiet 0 = Fl.zero := fadd_zero_zero _

theorem fmul_zero_one (f : FloatFmt) : fmul f Fl.zero Fl.one = Fl.zero := by
  simp [fmul, Fl.zero, Fl.one, pack, roundMag_zero f fl_unit_pos]

theorem quiet_dur : durProduct quiet 0 = Fl.zero := by
  change fmul _ Fl.zero (toF _ (1 : Word).toNat) = _
  rw [toF_1, fmul_zero_one]

theorem quiet_start : startProduct quiet 0 = Fl.zero := quiet_dur

theorem floor_zero : Machine.toNat (ffloor Fl.zero) = 0 := by simp [ffloor, Fl.zero, Machine.toNat]
theorem ceil_zero : Machine.toNat (fceil Fl.zero) = 0 := by simp [fceil, Fl.zero, Machine.toNat]

theorem quiet_len : lenOf quiet 0 = 0 := by rw [lenOf, quiet_dur, floor_zero]

theorem quiet_gen : GenOk quiet 0 where
  counts := quiet_counts
  rate := by decide
  index := by decide
  valid := quiet_valid
  lenFinite := by rw [quiet_dur]; rfl
  fits := by rw [quiet_len]; exact Nat.zero_le _
  waves := by rw [quiet_len]; intro i hi; exact absurd hi (Nat.not_lt_zero _)

theorem quiet_notes : ∀ n, n < quiet.nnotes.toNat → n = 0 := fun _ hn => Nat.lt_one_iff.1 hn

theorem witness_mixDur_ok : CountsOk quiet ∧
    ∀ n, n < quiet.nnotes.toNat → NoteValid quiet n ∧ finite (endTime quiet n) = true :=
  ⟨quiet_counts, fun n hn => by rw [quiet_notes n hn]; exact ⟨quiet_valid, by rw [quiet_end]; rfl⟩⟩

/-- 65537 tracks are more than any maximum; the first note on track 1 of 1; a sum that overflows. -/
theorem witness_mixDur_faults : ¬ CountsOk { quiet with ntracks := 65537 } ∧
    (CountsOk { quiet with song := { quiet.song with track := [(0, 1)] } } ∧
      ¬ NoteValid { quiet with song := { quiet.song with track := [(0, 1)] } } 0) ∧
    ∀ s, s = one 1 Fl.one Fl.one (maxFinite .binary64) (maxFinite .binary64) 1 → CountsOk s ∧ NoteValid s 0 ∧
      finite (endTime s 0) = false := by
  refine ⟨?_, ⟨one_counts _ rfl rfl, fun h => absurd h.track (by decide)⟩, ?_⟩
  · intro h
    have := h.1.trans maxTracks_le
    revert this
    decide
  · rintro s rfl
    refine ⟨one_counts _ rfl rfl, ⟨by decide, by decide, ⟨rfl, by decide +kernel⟩, rfl, ⟨rfl, by decide +kernel⟩,
      ⟨rfl, by decide +kernel⟩⟩, ?_⟩
    change finite (fadd Config.this.floatFmt (maxFinite .binary64) (maxFinite .binary64)) = false
    cases Config.this.floatFmt <;> decide +kernel

theorem quiet_mixDur : exec .mixDur quiet = .next ({ quiet with totdur := Fl.zero }.done false) := by
  have h := totalDuration_ok quiet_counts witness_mixDur_ok.2
  have hm : (List.range quiet.nnotes.toNat).foldl (fun m n => fmax m (endTime quiet n)) Fl.zero = Fl.zero := by
    change fmax Fl.zero (endTime quiet 0) = _
    rw [quiet_end]; decide
  rw [hm] at h
  simp only [exec, execMixDur, mixDurOp, h, orRaise_ok, complete_endOk]
  rfl

theorem witness_total_duration : ∃ t, exec .mixDur quiet = .next t ∧ t.code = 0 := ⟨_, quiet_mixDur, by decide⟩

/-- A duration of 0, a rate of 0, a product that overflows, and a product of 2^33, more than any `ACC_MAX`. -/
theorem witness_mixAlloc : ∀ f ∈ [FloatFmt.binary32, .binary64],
    finite (fmul f Fl.zero (toF f 1)) = true ∧ Machine.toNat (fceil (fmul f Fl.zero (toF f 1))) = 0 ∧
    finite (fmul f (maxFinite f) (toF f 2)) = false ∧
    finite (fmul f (val false (2 ^ 33) 0) (toF f 1)) = true ∧
    2 ^ 32 ≤ Machine.toNat (fceil (fmul f (val false (2 ^ 33) 0) (toF f 1))) := by decide +kernel

theorem witness_mixGen : GenOk quiet 0 := quiet_gen

/-- The first five faults of MIX.GEN: counts, rate, the first index past the last note, an invalid note, a length that is
not finite; and, with 2^33 samples, more than any `LOC_MAX`. -/
theorem witness_mixGen_faults : ¬ CountsOk { quiet with ntracks := 65537 } ∧ { quiet with srate := 0 }.srate = 0 ∧
    quiet.nnotes.toNat ≤ 1 ∧ ¬ NoteValid { quiet with song := { quiet.song with track := [(0, 1)] } } 0 ∧
    (∀ s, s = one 1 Fl.one Fl.one Fl.zero (maxFinite .binary64) 2 →
      CountsOk s ∧ NoteValid s 0 ∧ finite (durProduct s 0) = false) ∧
    ∀ s, s = one 1 Fl.one Fl.one Fl.zero (val false (2 ^ 33) 0) 1 →
      CountsOk s ∧ NoteValid s 0 ∧ finite (durProduct s 0) = true ∧ Config.this.locMax < lenOf s 0 := by
  refine ⟨witness_mixDur_faults.1, rfl, by decide, witness_mixDur_faults.2.1.2, ?_, ?_⟩
  · rintro s rfl
    refine ⟨one_counts _ rfl rfl, ⟨by decide, by decide, ⟨rfl, by decide +kernel⟩, rfl, ⟨rfl, by decide⟩,
      ⟨rfl, by decide +kernel⟩⟩, ?_⟩
    change finite (fmul Config.this.floatFmt (maxFinite .binary64) (toF Config.this.floatFmt 2)) = false
    cases Config.this.floatFmt <;> decide +kernel
  · rintro s rfl
    have h : ∀ f : FloatFmt, finite (fmul f (val false (2 ^ 33) 0) (toF f 1)) = true ∧
        2 ^ 32 ≤ Machine.toNat (ffloor (fmul f (val false (2 ^ 33) 0) (toF f 1))) := by
      intro f; cases f <;> decide +kernel
    have hl := Config.this.locMaxWord.isLt
    refine ⟨one_counts _ rfl rfl, ⟨by decide, by decide, ⟨rfl, by decide +kernel⟩, rfl, ⟨rfl, by decide⟩,
      ⟨rfl, by decide +kernel⟩⟩, (h _).1, ?_⟩
    exact hl.trans_le (h Config.this.floatFmt).2

/-- The last fault of MIX.GEN, a sample with no value, needs room for one sample: where `LOC_MAX` is 0 the capacity fault
comes first. The frequency is so large that `2 f` overflows. -/
theorem witness_mixGen_no_value (hl : 1 ≤ Config.this.locMax) :
    ∀ s, s = one 1 (maxFinite .binary64) Fl.one Fl.zero Fl.one 1 →
      CountsOk s ∧ s.srate ≠ 0 ∧ 0 < s.nnotes.toNat ∧ NoteValid s 0 ∧ finite (durProduct s 0) = true ∧
      lenOf s 0 ≤ Config.this.locMax ∧ ∃ i, i < lenOf s 0 ∧ waveAt s 0 i = none := by
  rintro s rfl
  have h : ∀ f : FloatFmt, finite (fmul f Fl.one (toF f 1)) = true ∧
      Machine.toNat (ffloor (fmul f Fl.one (toF f 1))) = 1 ∧
      finite (fmul f (fmul f (toF f 2) (maxFinite .binary64)) (fdiv f (toF f 0) (toF f 1))) = false := by
    intro f; cases f <;> decide +kernel
  obtain ⟨h1, h2, h3⟩ := h Config.this.floatFmt
  have hlen : lenOf (one 1 (maxFinite .binary64) Fl.one Fl.zero Fl.one 1) 0 = 1 := h2
  refine ⟨one_counts _ rfl rfl, by decide, by decide, ⟨by decide, by decide, ⟨rfl, by decide +kernel⟩, rfl,
    ⟨rfl, by decide⟩, ⟨rfl, by decide +kernel⟩⟩, h1, by rw [hlen]; exact hl, 0, by rw [hlen]; exact Nat.one_pos, ?_⟩
  change oscSquare Config.this _ _ = none
  rw [oscSquare, if_neg]
  exact ne_true_of_eq_false h3

/-- A merge of one element that fits, one window past the end, one length that differs. -/
theorem witness_merge : (0 : Word).toNat + (1 : Word).toNat ≤ [Fl.one].length ∧ (1 : Word).toNat = [Fl.one].length ∧
    [Fl.one].length < (1 : Word).toNat + (1 : Word).toNat ∧ (0 : Word).toNat + (0 : Word).toNat ≤ [Fl.one].length ∧
    (0 : Word).toNat ≠ [Fl.one].length := by decide

theorem mergeOvr_reset : exec .mixMergeOvr State.reset = .next (State.reset.done false) := rfl

theorem witness_merge_twice : ∃ t, exec .mixMergeOvr State.reset = .next t ∧ t.code = 0 :=
  ⟨_, mergeOvr_reset, by decide⟩

theorem witness_mixNote : GenOk quiet 0 ∧ finite (startProduct quiet 0) = true ∧
    lenOf quiet 0 ≤ keptOf quiet 0 quiet.acc.length :=
  ⟨quiet_gen, by rw [quiet_start]; rfl, by rw [quiet_len]; exact Nat.zero_le _⟩

/-- One second at one sample a second, where `LOC_MAX` leaves room for a sample. -/
theorem oneSecond_gen (hl : 1 ≤ Config.this.locMax) : GenOk oneSecond 0 := by
  have h : ∀ f : FloatFmt, finite (fmul f Fl.one (toF f 1)) = true ∧
      Machine.toNat (ffloor (fmul f Fl.one (toF f 1))) = 1 ∧
      finite (fmul f (fmul f (toF f 2) Fl.one) (fdiv f (toF f 0) (toF f 1))) = true := by
    intro f; cases f <;> decide +kernel
  obtain ⟨h1, h2, h3⟩ := h Config.this.floatFmt
  have hlen : lenOf oneSecond 0 = 1 := h2
  refine ⟨one_counts _ rfl rfl, by decide, by decide, ⟨by decide, by decide, ⟨rfl, by decide +kernel⟩, rfl,
    ⟨rfl, by decide⟩, ⟨rfl, by decide +kernel⟩⟩, h1, by rw [hlen]; exact hl, fun i hi => ?_⟩
  have : i = 0 := by omega
  subst this
  change (oscSquare Config.this _ _).isSome = true
  rw [oscSquare, if_pos]
  · rfl
  · exact h3

/-- A note that loses its one sample in an empty ACC; it needs room for the sample in LOC. -/
theorem witness_mixNote_clamps (hl : 1 ≤ Config.this.locMax) : GenOk oneSecond 0 ∧
    finite (startProduct oneSecond 0) = true ∧ keptOf oneSecond 0 oneSecond.acc.length < lenOf oneSecond 0 := by
  have h : ∀ f : FloatFmt, Machine.toNat (ffloor (fmul f Fl.one (toF f 1))) = 1 := by intro f; cases f <;> decide +kernel
  have hlen : lenOf oneSecond 0 = 1 := h Config.this.floatFmt
  refine ⟨oneSecond_gen hl, ?_, ?_⟩
  · rw [show startProduct oneSecond 0 = Fl.zero from quiet_start]; rfl
  · rw [hlen, keptOf, if_pos (show oneSecond.acc.length ≤ _ from Nat.zero_le _)]; exact Nat.one_pos

/-- A MIX.GEN that ends in a fault, and a start that is not finite where the note itself is. -/
theorem witness_mixNote_faults : (∃ g, exec (.mixGen 0) State.reset = .next g ∧ 2 ≤ g.code) ∧
    ∀ s, s = one 1 Fl.one Fl.one (maxFinite .binary64) Fl.zero 2 → GenOk s 0 ∧ finite (startProduct s 0) = false := by
  refine ⟨⟨_, rfl, ?_⟩, ?_⟩
  · rw [complete_code, mixGenOp, localSamples, checkCounts_ok ⟨Nat.zero_le _, Nat.zero_le _⟩, bind_ok,
      checkRate_error rfl]
    decide
  · rintro s rfl
    have h : ∀ f : FloatFmt, finite (fmul f Fl.zero (toF f 2)) = true ∧
        Machine.toNat (ffloor (fmul f Fl.zero (toF f 2))) = 0 ∧
        finite (fmul f (maxFinite .binary64) (toF f 2)) = false := by
      intro f; cases f <;> decide +kernel
    obtain ⟨h1, h2, h3⟩ := h Config.this.floatFmt
    have hlen : lenOf (one 1 Fl.one Fl.one (maxFinite .binary64) Fl.zero 2) 0 = 0 := h2
    refine ⟨⟨one_counts _ rfl rfl, by decide, by decide, ⟨by decide, by decide, ⟨rfl, by decide +kernel⟩, rfl,
      ⟨rfl, by decide +kernel⟩, ⟨rfl, by decide⟩⟩, h1, by rw [hlen]; exact Nat.zero_le _, ?_⟩, h3⟩
    rw [hlen]; intro i hi; exact absurd hi (Nat.not_lt_zero _)

theorem witness_mixAll : CountsOk quiet ∧ quiet.srate ≠ 0 ∧
    (∀ n, n < quiet.nnotes.toNat → GenOk quiet n ∧ finite (startProduct quiet n) = true) ∧
    [] = (List.range quiet.nnotes.toNat).filter (clampsAt quiet quiet.acc.length) := by
  refine ⟨quiet_counts, by decide, fun n hn => ?_, ?_⟩
  · rw [quiet_notes n hn]; exact ⟨quiet_gen, by rw [quiet_start]; rfl⟩
  · change [] = [0].filter _
    have : clampsAt quiet quiet.acc.length 0 = false := by
      rw [clampsAt, quiet_len]
      exact decide_eq_false (Nat.not_lt_zero _)
    simp [this]

/-- What the arithmetic of one note of one second gives, in both formats: one sample, +1, at index 0. -/
theorem oneSecond_values (f : FloatFmt) : fadd f Fl.zero Fl.one = Fl.one ∧ fmul f Fl.one (toF f 1) = Fl.one ∧
    fmul f Fl.zero (toF f 1) = Fl.zero ∧ Machine.toNat (ffloor Fl.one) = 1 ∧ Machine.toNat (fceil Fl.one) = 1 ∧
    fmul f (fmul f (toF f 2) Fl.one) (fdiv f (toF f 0) (toF f 1)) = Fl.zero ∧ fmul f Fl.one Fl.one = Fl.one ∧
    fmax Fl.zero Fl.one = Fl.one := by
  cases f <;> decide +kernel

theorem oneSecond_samples : samplesOf oneSecond 0 = [Fl.one] := by
  obtain ⟨-, h2, -, h4, -, h6, h7, -⟩ := oneSecond_values Config.this.floatFmt
  have hl : lenOf oneSecond 0 = 1 := by
    change Machine.toNat (ffloor (fmul _ Fl.one (toF _ 1))) = 1
    rw [h2, h4]
  have hw : waveAt oneSecond 0 0 = some Fl.one := by
    change oscSquare Config.this (fdiv _ (toF _ 0) (toF _ 1)) Fl.one = _
    simp only [oscSquare]
    rw [h6]
    decide +kernel
  simp only [samplesOf, hl, List.range_one, List.map_cons, List.map_nil, hw, Option.getD_some]
  change [fmul Config.this.floatFmt Fl.one Fl.one] = _
  rw [h7]

theorem oneSecond_kept (k : Nat) : keptOf oneSecond 0 (k + 1) = 1 ∧ startOf oneSecond 0 = 0 ∧ lenOf oneSecond 0 = 1 := by
  obtain ⟨-, h2, h3, h4, -⟩ := oneSecond_values Config.this.floatFmt
  have hl : lenOf oneSecond 0 = 1 := by
    change Machine.toNat (ffloor (fmul _ Fl.one (toF _ 1))) = 1
    rw [h2, h4]
  have hs : startOf oneSecond 0 = 0 := by
    change Machine.toNat (ffloor (fmul _ Fl.zero (toF _ 1))) = 0
    rw [h3, floor_zero]
  refine ⟨?_, hs, hl⟩
  rw [keptOf, hs, hl, if_neg (by omega)]; omega

/-- An OK merge of one sample into the middle of three, with an element on either side of the window. -/
theorem witness_merge_window : ∀ i ∈ [Instr.mixMergeAdd, .mixMergeOvr], ∃ t,
    exec i { State.reset with acc := [Fl.one, Fl.one, Fl.one], loc := [Fl.one], mrgStart := 1, mrgLen := 1 } = .next t ∧
    t.code = 0 ∧ ¬ ((1 : Word).toNat ≤ 0 ∧ 0 < (1 : Word).toNat + (1 : Word).toNat) ∧
    ¬ ((1 : Word).toNat ≤ 2 ∧ 2 < (1 : Word).toNat + (1 : Word).toNat) := by
  intro i hi
  simp only [List.mem_cons, List.not_mem_nil, or_false] at hi
  rcases hi with rfl | rfl <;> exact ⟨_, rfl, by rw [complete_code]; rfl, by decide, by decide⟩

/-- MIX.GEN, MIX.NOTE and MIX.ALL on one note of one sample, with a second element in ACC that no window reaches. -/
theorem witness_note_window (hl : 1 ≤ Config.this.locMax) : ∀ s, s = { oneSecond with acc := [Fl.zero, Fl.zero] } →
    (∃ t, exec (.mixGen 0) s = .next t ∧ t.code = 0) ∧
    (∃ t, exec (.mixNote 0) s = .next t ∧ t.code = 0) ∧ (∃ t, exec .mixAll s = .next t ∧ t.code = 0) ∧
    (∀ m, m < s.nnotes.toNat → ¬ (startOf s m ≤ 1 ∧ 1 < startOf s m + keptOf s m s.acc.length)) := by
  intro s hs
  have hsame : SameSong oneSecond s := by subst hs; exact ⟨rfl, rfl, rfl, rfl, rfl⟩
  have hg : GenOk s 0 := genOk_congr hsame (oneSecond_gen hl)
  have hp : startProduct s 0 = Fl.zero := by
    rw [startProduct_congr hsame]; exact (oneSecond_values Config.this.floatFmt).2.2.1
  have hfin : finite (startProduct s 0) = true := by rw [hp]; rfl
  have hone : s.nnotes.toNat = 1 := by rw [hs]; rfl
  refine ⟨⟨_, rfl, ?_⟩, ⟨_, rfl, ?_⟩, ⟨_, rfl, ?_⟩, fun m hm => ?_⟩
  · rw [complete_code, mixGenOp_ok hg]; rfl
  · rw [complete_code, mixNoteOp_ok hg hfin]; rfl
  · rw [complete_code, mixAllOp_ok hg.counts hg.rate fun n hn => ?_]
    · rfl
    · rw [show n = 0 by omega]; exact ⟨hg, hfin⟩
  · rw [show m = 0 by omega]
    obtain ⟨k1, k2, -⟩ := oneSecond_kept 1
    have h1 : startOf s 0 = 0 := by rw [startOf, hp, floor_zero]
    have h2 : keptOf s 0 s.acc.length = 1 := by
      have hlen : s.acc.length = 1 + 1 := by rw [hs]; rfl
      have hn : lenOf s 0 = 1 := by
        rw [lenOf, durProduct_congr hsame]; exact (oneSecond_kept 0).2.2
      rw [keptOf, h1, hn, hlen]; rfl
    rw [h1, h2]; omega

/-- A MIX.NOTE that loses its sample ends OK with DV and CLAMPED set. -/
theorem witness_note_clamped (hl : 1 ≤ Config.this.locMax) :
    ∃ t, exec (.mixNote 0) oneSecond = .next t ∧ t.code = 0 ∧ t.dv = true ∧ t.clamped = true := by
  obtain ⟨h1, h2, h3⟩ := witness_mixNote_clamps hl
  have hc : clampsAt oneSecond oneSecond.acc.length 0 = true := decide_eq_true h3
  have ho := mixNoteOp_ok h1 h2
  refine ⟨_, rfl, ?_, ?_, ?_⟩
  · rw [complete_code, ho]; rfl
  · rw [complete_dv, ho, hc]
  · rw [State.clamped, complete_status, ho, hc]
    simp only [afterNote, hc, if_true]
    decide

/-- Where MIX.ALL faults at once: the counts, and a rate of 0. -/
theorem witness_mixAll_config : ¬ CountsOk { quiet with ntracks := 65537 } ∧ State.reset.srate = 0 :=
  ⟨witness_mixDur_faults.1, rfl⟩

/-- The faults of a first note: it is invalid; its length is not finite; its 2^33 samples are more than any `LOC_MAX`; its
start is not finite where the note itself is. -/
theorem witness_mixAll_faults :
    (∀ s, s = { quiet with song := { quiet.song with track := [(0, 1)] } } →
      CountsOk s ∧ s.srate ≠ 0 ∧ 0 < s.nnotes.toNat ∧ ¬ NoteValid s 0) ∧
    (∀ s, s = one 1 Fl.one Fl.one Fl.zero (maxFinite .binary64) 2 →
      CountsOk s ∧ s.srate ≠ 0 ∧ 0 < s.nnotes.toNat ∧ NoteValid s 0 ∧ finite (durProduct s 0) = false) ∧
    (∀ s, s = one 1 Fl.one Fl.one Fl.zero (val false (2 ^ 33) 0) 1 →
      CountsOk s ∧ s.srate ≠ 0 ∧ 0 < s.nnotes.toNat ∧ NoteValid s 0 ∧ finite (durProduct s 0) = true ∧
      Config.this.locMax < lenOf s 0) ∧
    (∀ s, s = one 1 Fl.one Fl.one (maxFinite .binary64) Fl.zero 2 →
      CountsOk s ∧ s.srate ≠ 0 ∧ 0 < s.nnotes.toNat ∧ GenOk s 0 ∧ finite (startProduct s 0) = false) ∧
    ∀ s : State, ∀ m, m < 0 → GenOk s m ∧ finite (startProduct s m) = true := by
  refine ⟨?_, fun s hs => ?_, fun s hs => ?_, fun s hs => ?_, fun s m hm => absurd hm (Nat.not_lt_zero m)⟩
  · rintro s rfl
    exact ⟨witness_mixDur_faults.2.1.1, by decide, by decide, witness_mixDur_faults.2.1.2⟩
  · obtain ⟨h1, h2, h3⟩ := witness_mixGen_faults.2.2.2.2.1 s hs
    exact ⟨h1, by subst hs; decide, by subst hs; decide, h2, h3⟩
  · obtain ⟨h1, h2⟩ := witness_mixGen_faults.2.2.2.2.2 s hs
    exact ⟨h1, by subst hs; decide, by subst hs; decide, h2⟩
  · obtain ⟨h1, h2⟩ := witness_mixNote_faults.2 s hs
    exact ⟨h1.counts, h1.rate, h1.index, h1, h2⟩

/-- A sample with no value, where `LOC_MAX` leaves room for it. -/
theorem witness_mixAll_no_value (hl : 1 ≤ Config.this.locMax) :
    ∀ s, s = one 1 (maxFinite .binary64) Fl.one Fl.zero Fl.one 1 →
      CountsOk s ∧ s.srate ≠ 0 ∧ 0 < s.nnotes.toNat ∧ (∀ m, m < 0 → GenOk s m ∧ finite (startProduct s m) = true) ∧
      NoteValid s 0 ∧ finite (durProduct s 0) = true ∧ lenOf s 0 ≤ Config.this.locMax ∧
      ∃ i, i < lenOf s 0 ∧ waveAt s 0 i = none := by
  intro s hs
  obtain ⟨h1, h2, h3, h4⟩ := witness_mixGen_no_value hl s hs
  exact ⟨h1, h2, h3, fun m hm => absurd hm (Nat.not_lt_zero m), h4⟩

/-- Two notes: the first is fine but loses its sample in an empty ACC, the second names a track that is not there. -/
theorem witness_mixAll_second_note (hl : 1 ≤ Config.this.locMax) (hm : 2 ≤ Config.this.maxNotes) :
    ∀ s, s = { oneSecond with song := { oneSecond.song with track := [(0, 0), (1, 1)] }, nnotes := 2 } →
      CountsOk s ∧ s.srate ≠ 0 ∧ 1 < s.nnotes.toNat ∧ (∀ m, m < 1 → GenOk s m ∧ finite (startProduct s m) = true) ∧
      ¬ NoteValid s 1 ∧ (List.range 1).filter (clampsAt s s.acc.length) = [0] := by
  rintro s rfl
  set s : State := { oneSecond with song := { oneSecond.song with track := [(0, 0), (1, 1)] }, nnotes := 2 } with hs
  have hone := oneSecond_gen hl
  have hc : CountsOk s := ⟨Nat.succ_pos _, hm⟩
  have hl0 : lenOf s 0 = 1 := (oneSecond_kept 0).2.2
  have hg : GenOk s 0 := ⟨hc, by rw [hs]; decide, by rw [hs]; decide,
    ⟨by rw [hs]; decide, by rw [hs]; decide, hone.valid.freq, hone.valid.vol, hone.valid.start, hone.valid.dur⟩,
    hone.lenFinite, hone.fits, hone.waves⟩
  refine ⟨hc, hg.rate, by rw [hs]; decide, fun m hm => ?_, fun h => absurd h.track (by rw [hs]; decide), ?_⟩
  · rw [Nat.lt_one_iff.1 hm]
    exact ⟨hg, by rw [show startProduct s 0 = Fl.zero from (oneSecond_values Config.this.floatFmt).2.2.1]; rfl⟩
  · change [0].filter _ = [0]
    have : clampsAt s s.acc.length 0 = true := by
      rw [clampsAt, hl0, keptOf, if_pos (show s.acc.length ≤ _ from Nat.zero_le _)]; decide
    simp [this]

theorem witness_doubling : ∀ f ∈ [FloatFmt.binary32, .binary64], inF f (.fin true Fl.unit) = true ∧
    inF f (maxFinite f) = true := by decide +kernel

/-- MIX.DUR, MIX.ALLOC and MIX.NOTE 0 on the quiet note, each acknowledged: no sample is lost. -/
theorem quiet_alloc (s : State) (h : s.totdur = Fl.zero) (hr : s.srate = 1) :
    exec .mixAlloc s = .next ({ s with acc := [] }.done false) := by
  have hp : fmul Config.this.floatFmt s.totdur (toF Config.this.floatFmt s.srate.toNat) = Fl.zero := by
    rw [h, hr, toF_1, fmul_zero_one]
  have hb : bufferLength Config.this s = .ok 0 := by
    have := bufferLength_ok (s := s) (p := Fl.zero) (by rw [hr]; decide) hp.symm rfl (by rw [ceil_zero]; exact Nat.zero_le _)
    rwa [ceil_zero] at this
  simp only [exec, execMixAlloc, mixAllocOp, hb, orRaise_ok, complete_endOk]
  rfl

theorem done_code (s : State) (dv : Bool) : (s.done dv).code = 0 := by
  cases dv
  · rfl
  · exact (by decide : ((0x100 : Word).extractLsb' 0 8).toNat = 0)

/-- What MIX.NOTE 0, MIX.ALL and SER.BUILD need of a state that MIX.ALLOC left for the quiet note. -/
structure Ready (s : State) : Prop where
  song : SameSong quiet s
  acc : s.acc = []
  fmt : s.fmt = 0
  chmode : s.chmode = 0

theorem quiet_ready : ∃ a b, exec .mixDur quiet = .next a ∧ a.code = 0 ∧ exec .mixAlloc a.ack = .next b ∧ b.code = 0 ∧
    Ready b.ack :=
  ⟨_, _, quiet_mixDur, done_code _ _, quiet_alloc _ rfl rfl, done_code _ _, ⟨⟨rfl, rfl, rfl, rfl, rfl⟩, rfl, rfl, rfl⟩⟩

theorem ready_mixNote {s : State} (h : Ready s) : ∃ t, exec (.mixNote 0) s = .next t ∧ t.code = 0 := by
  refine ⟨_, rfl, ?_⟩
  rw [complete_code, mixNoteOp_ok (genOk_congr h.song quiet_gen) (by rw [startProduct_congr h.song, quiet_start]; rfl)]
  rfl

theorem ready_mixAll {s : State} (h : Ready s) : ∃ t, exec .mixAll s = .next t ∧ t.code = 0 ∧ Ready t.ack := by
  have hn : s.nnotes.toNat = quiet.nnotes.toNat := by rw [h.song.nnotes]
  have ho := mixAllOp_ok ((countsOk_congr h.song).2 quiet_counts) (by rw [h.song.srate]; decide) (fun n hl => by
    rw [hn] at hl
    rw [quiet_notes n hl]
    exact ⟨genOk_congr h.song quiet_gen, by rw [startProduct_congr h.song, quiet_start]; rfl⟩)
  refine ⟨_, rfl, ?_, ?_⟩
  · rw [complete_code, ho]; rfl
  · rw [ho, complete_ok]
    refine ⟨⟨h.song.song, h.song.epoch, h.song.ntracks, h.song.nnotes, h.song.srate⟩, ?_, h.fmt, h.chmode⟩
    refine List.length_eq_zero_iff.1 ?_
    change ((songNotes s).foldl (withNote s) s.acc).length = 0
    rw [foldl_withNote_length, h.acc]; rfl

theorem checks_small {s : State} (ha : s.acc = []) (hf : s.fmt = 0) (hc : s.chmode = 0) (hr : s.srate = 1) :
    buildChecks Config.this s = .ok () := by
  have hk : countOf s = 1 := by rw [countOf, hc]; rfl
  rw [buildChecks_eq_ok, ha, hf, hc, hr, hk]
  exact ⟨rfl, by decide, by decide, by decide, by decide, Nat.le_add_left _ _⟩

theorem ready_serBuild {s : State} (h : Ready s) : ∃ t, exec .serBuild s = .next t ∧ t.code = 0 := by
  refine ⟨_, rfl, ?_⟩
  rw [complete_code, serBuildOp_ok (checks_small h.acc h.fmt h.chmode (by rw [h.song.srate]; rfl))
    (by rw [h.acc]; intro x hx; cases hx)]
  rfl


theorem entry_ok {α : Type} (x : α) {n : Nat} (h : 0 < n) : TableOk [(0, x)] n :=
  ⟨List.pairwise_singleton _ _, fun e he => by rw [List.mem_singleton.1 he]; exact h⟩

theorem entry_inF {f : FloatFmt} {x : Fl} (h : inF f x = true) : TableInF f [(0, x)] :=
  fun e he => by rw [List.mem_singleton.1 he]; exact h

/-- The state of the invariant's witnesses has entries in the song store. -/
theorem quiet_inv : Inv Config.this quiet where
  statusReserved := rfl
  resultReserved := rfl
  resultCode := Nat.zero_le _
  idle := rfl
  song := ⟨entry_ok _ (Nat.succ_pos _), entry_ok _ (Nat.succ_pos _), entry_ok _ (Nat.succ_pos _), entry_ok _ (Nat.succ_pos _),
    entry_ok _ (Nat.succ_pos _), entry_ok _ (Nat.succ_pos _), entry_inF (one_inF _), entry_inF (one_inF _),
    entry_inF (zero_inF _), entry_inF (zero_inF _)⟩
  totdurF := zero_inF _
  oscTF := zero_inF _
  oscFreqF := zero_inF _
  oscOutF := zero_inF _
  qntInF := zero_inF _
  accF := fun x hx => by cases hx
  locF := fun x hx => by cases hx
  buffers := fun _ => ⟨Nat.zero_le _, Nat.zero_le _, Nat.zero_le _, fun x hx => by (cases hx), fun x hx => by (cases hx),
    rfl, by decide⟩

theorem witness_single_note : ∃ a b t, Inv Config.this quiet ∧ quiet.nnotes = 1 ∧
    (noteAt Config.this quiet 0).start = Fl.zero ∧ exec .mixDur quiet = .next a ∧ a.code = 0 ∧
    exec .mixAlloc a.ack = .next b ∧ b.code = 0 ∧ exec (.mixNote 0) b.ack = .next t ∧ t.code = 0 := by
  obtain ⟨a, b, h1, c1, h2, c2, hr⟩ := quiet_ready
  obtain ⟨t, h3, c3⟩ := ready_mixNote hr
  exact ⟨a, b, t, quiet_inv, rfl, rfl, h1, c1, h2, c2, h3, c3⟩

theorem witness_invariant : Inv Config.this quiet ∧ step quiet = .next quiet := ⟨quiet_inv, rfl⟩

/-! The Quantizer -/

/-- A number and a NaN in QNT_IN. -/
theorem witness_qntS : isnan Fl.zero = false ∧ isnan .nan = true ∧ (quantize (cfg .binary32) Fl.zero).isSome = true := by
  decide +kernel

/-- The four clauses: at and above 1, at and below -1, a zero, and a negative sample whose product is not a zero. -/
theorem witness_quantizer : ∀ f ∈ [FloatFmt.binary32, .binary64],
    fle Fl.one Fl.one = true ∧ fle Fl.one (.inf false) = true ∧ fle Fl.minusOne Fl.minusOne = true ∧
    fle (.inf true) Fl.minusOne = true ∧ flt (val true 1 20) Fl.zero = true ∧
    (fmul (cfg f).floatFmt (val true 1 20) (toF (cfg f).floatFmt 32767)) ≠ .fin true 0 ∧
    (fmul (cfg f).floatFmt (val true 1 20) (toF (cfg f).floatFmt 32767)) ≠ .fin false 0 ∧
    quantize (cfg f) (val true 1 20) = some (-1) := by decide +kernel

/-! The Container Writer -/

/-- The empty song at one sample a second. -/
def empty : State := { State.reset with srate := 1 }

theorem empty_checks : buildChecks Config.this empty = .ok () := checks_small rfl rfl rfl rfl

theorem witness_serBuild : empty.fmt = 0 ∧ empty.chmode.toNat < 2 ∧ empty.srate ≠ 0 ∧
    empty.srate.toNat * (countOf empty * 2) < 2 ^ 32 ∧ 36 + empty.acc.length * countOf empty * 2 < 2 ^ 32 ∧
    44 + empty.acc.length * countOf empty * 2 ≤ Config.this.outMax ∧ ∀ x ∈ empty.acc, isnan x = false := by
  obtain ⟨h1, h2, h3, h4, h5, h6⟩ := buildChecks_eq_ok.1 empty_checks
  exact ⟨h1, h2, h3, h4, h5, h6, fun x hx => by cases hx⟩

/-- The first four faults at the edge of each test, and the fifth: the smallest ACC whose chunk size is 2^32. -/
theorem witness_serBuild_faults : { empty with fmt := 1 }.fmt ≠ 0 ∧ 2 ≤ { empty with chmode := 2 }.chmode.toNat ∧
    State.reset.srate = 0 ∧ 2 ^ 32 ≤ (0x80000000 : Word).toNat * (countOf { empty with srate := 0x80000000 } * 2) ∧
    (List.replicate (2 ^ 31 - 18) Fl.zero).length = 2 ^ 31 - 18 ∧
    ∀ s acc, acc.length = 2 ^ 31 - 18 → s = { empty with acc := acc } →
      s.fmt = 0 ∧ s.chmode.toNat < 2 ∧ s.srate ≠ 0 ∧ s.srate.toNat * (countOf s * 2) < 2 ^ 32 ∧
      2 ^ 32 ≤ 36 + s.acc.length * countOf s * 2 := by
  refine ⟨by decide, by decide, by decide, by decide, List.length_replicate, ?_⟩
  rintro s acc h rfl
  have hk : countOf { empty with acc := acc } = 1 := show (if (0 : Word).getLsbD 0 then 2 else 1) = 1 by decide
  refine ⟨rfl, show (0 : Word).toNat < 2 by decide, show (1 : Word) ≠ 0 by decide, ?_, ?_⟩
  · rw [hk]; exact (show (1 : Word).toNat * (1 * 2) < 2 ^ 32 by decide)
  · rw [hk]; change 2 ^ 32 ≤ 36 + acc.length * 1 * 2; omega

/-- The last fault, a NaN in ACC, needs room for the header and one frame: where `OUT_MAX` is 44 or 45 the capacity fault
comes first. -/
theorem witness_serBuild_nan (ho : 46 ≤ Config.this.outMax) : ∀ s, s = { empty with acc := [.nan] } →
    s.fmt = 0 ∧ s.chmode.toNat < 2 ∧ s.srate ≠ 0 ∧ s.srate.toNat * (countOf s * 2) < 2 ^ 32 ∧
    36 + s.acc.length * countOf s * 2 < 2 ^ 32 ∧ 44 + s.acc.length * countOf s * 2 ≤ Config.this.outMax ∧
    ∃ x ∈ s.acc, isnan x = true := by
  rintro s rfl
  exact ⟨rfl, by decide, by decide, by decide, by decide, ho, .nan, List.mem_singleton.2 rfl, rfl⟩

theorem witness_header : ∃ t, exec .serBuild empty = .next t ∧ t.code = 0 := by
  refine ⟨_, rfl, ?_⟩
  rw [complete_code, serBuildOp_ok empty_checks (fun x hx => by cases hx)]
  rfl

/-- A state whose next sink answer is the one given. -/
def answering (a : Bool) : State := { empty with env := { Env.reset with sinkAnswers := [a] } }

theorem witness_serFlush : nextAnswer (answering true) = true ∧ nextAnswer (answering false) = false := ⟨rfl, rfl⟩

theorem witness_sink_writers : (∃ t, exec .mixAll State.reset = .next t) ∧ Instr.mixAll ≠ .serFlush ∧
    Instr.mixAll ≠ .render ∧ ∃ t, exec .serFlush (answering true) = .next t ∧ t.code < 2 := by
  refine ⟨⟨_, rfl⟩, by decide, by decide, _, rfl, ?_⟩
  rw [complete_code, serFlushOp_eq]
  decide

/-! RENDER -/

theorem witness_render_empty : empty.nnotes = 0 ∧ empty.ntracks.toNat ≤ Config.this.maxTracks ∧ empty.srate ≠ 0 ∧
    empty.fmt = 0 ∧ empty.chmode.toNat < 2 ∧ empty.srate.toNat * (countOf empty * 2) < 2 ^ 32 :=
  ⟨rfl, Nat.zero_le _, by decide, rfl, by decide, by decide⟩

/-- The quiet note: total duration 0, an empty buffer, no clamp. The remaining hypotheses name the values. -/
theorem witness_render_pipeline : CountsOk quiet ∧ quiet.srate ≠ 0 ∧ quiet.fmt = 0 ∧ quiet.chmode.toNat < 2 ∧
    (∀ n, n < quiet.nnotes.toNat →
      GenOk quiet n ∧ finite (endTime quiet n) = true ∧ finite (startProduct quiet n) = true) ∧
    Fl.zero = (List.range quiet.nnotes.toNat).foldl (fun m n => fmax m (endTime quiet n)) Fl.zero ∧
    Fl.zero = fmul Config.this.floatFmt Fl.zero (toF Config.this.floatFmt quiet.srate.toNat) ∧ finite Fl.zero = true ∧
    0 = Machine.toNat (fceil Fl.zero) ∧ 0 ≤ Config.this.accMax ∧
    [] = (List.range quiet.nnotes.toNat).foldl (withNote quiet) (List.replicate 0 Fl.zero) ∧
    quiet.srate.toNat * (countOf quiet * 2) < 2 ^ 32 ∧ 36 + 0 * countOf quiet * 2 < 2 ^ 32 ∧
    44 + 0 * countOf quiet * 2 ≤ Config.this.outMax ∧ [] = (List.range quiet.nnotes.toNat).filter (clampsAt quiet 0) := by
  refine ⟨quiet_counts, by decide, rfl, by decide, fun n hn => ?_, ?_, quiet_start.symm, rfl, ceil_zero.symm, Nat.zero_le _,
    ?_, by decide, by decide, Nat.le_add_left _ _, witness_mixAll.2.2.2⟩
  · rw [quiet_notes n hn]; exact ⟨quiet_gen, by rw [quiet_end]; rfl, by rw [quiet_start]; rfl⟩
  · change _ = fmax Fl.zero (endTime quiet 0)
    rw [quiet_end]; decide
  · exact (List.length_eq_zero_iff.1 (foldl_withNote_length _ _ _)).symm

/-- A song with a sound: one second at one sample a second, one sample of +1; it needs room for it. -/
theorem witness_render_sounds (hl : 1 ≤ Config.this.locMax) (ha : 1 ≤ Config.this.accMax) (ho : 46 ≤ Config.this.outMax) :
    CountsOk oneSecond ∧ oneSecond.srate ≠ 0 ∧ oneSecond.fmt = 0 ∧ oneSecond.chmode.toNat < 2 ∧
    (∀ n, n < oneSecond.nnotes.toNat →
      GenOk oneSecond n ∧ finite (endTime oneSecond n) = true ∧ finite (startProduct oneSecond n) = true) ∧
    Fl.one = (List.range oneSecond.nnotes.toNat).foldl (fun m n => fmax m (endTime oneSecond n)) Fl.zero ∧
    Fl.one = fmul Config.this.floatFmt Fl.one (toF Config.this.floatFmt oneSecond.srate.toNat) ∧ finite Fl.one = true ∧
    1 = Machine.toNat (fceil Fl.one) ∧ 1 ≤ Config.this.accMax ∧
    [Fl.one] = (List.range oneSecond.nnotes.toNat).foldl (withNote oneSecond) (List.replicate 1 Fl.zero) ∧
    (∀ x ∈ [Fl.one], isnan x = false) ∧
    oneSecond.srate.toNat * (countOf oneSecond * 2) < 2 ^ 32 ∧ 36 + 1 * countOf oneSecond * 2 < 2 ^ 32 ∧
    44 + 1 * countOf oneSecond * 2 ≤ Config.this.outMax ∧
    [] = (List.range oneSecond.nnotes.toNat).filter (clampsAt oneSecond 1) := by
  obtain ⟨h1, h2, h3, h4, h5, h6, h7, h8⟩ := oneSecond_values Config.this.floatFmt
  obtain ⟨k1, k2, k3⟩ := oneSecond_kept 0
  refine ⟨one_counts _ rfl rfl, by decide, rfl, by decide, fun n hn => ?_, ?_, h2.symm, rfl, h5.symm, ha, ?_,
    fun x hx => by rw [List.mem_singleton.1 hx]; rfl, by decide, by decide, ho, ?_⟩
  · rw [show n = 0 from Nat.lt_one_iff.1 hn]
    refine ⟨oneSecond_gen hl, ?_, ?_⟩
    · rw [show endTime oneSecond 0 = Fl.one from h1]; rfl
    · rw [show startProduct oneSecond 0 = Fl.zero from h3]; rfl
  · change _ = fmax Fl.zero (endTime oneSecond 0)
    rw [show endTime oneSecond 0 = Fl.one from h1, h8]
  · change _ = withNote oneSecond [Fl.zero] 0
    rw [withNote, show ([Fl.zero] : List Fl).length = 0 + 1 from rfl, k1, k2, oneSecond_samples]
    change _ = [fadd Config.this.floatFmt Fl.zero Fl.one]
    rw [h1]
  · change _ = [0].filter _
    have : clampsAt oneSecond 1 0 = false := by rw [clampsAt, k1, k3]; decide
    simp [this]

/-- 2^24 seconds. -/
def lateTime : Fl := val false (2 ^ 24) 0

/-- A note that starts so late that in `binary32` its end, one second later, rounds to its start. -/
def late : State := one 1 Fl.one Fl.one lateTime Fl.one 1

/-- A clamp inside RENDER: TOTDUR rounds down to 2^24, so the buffer ends where the note's one sample starts. It needs
`binary32` (in `binary64` such a buffer is larger than any `ACC_MAX`) and room for the buffer and its container. -/
theorem witness_render_clamps (hf : Config.this.floatFmt = .binary32) (hl : 1 ≤ Config.this.locMax)
    (ha : 2 ^ 24 ≤ Config.this.accMax) (ho : 44 + 2 ^ 24 * 1 * 2 ≤ Config.this.outMax) :
    CountsOk late ∧ late.srate ≠ 0 ∧ late.fmt = 0 ∧ late.chmode.toNat < 2 ∧
    (∀ n, n < late.nnotes.toNat → GenOk late n ∧ finite (endTime late n) = true ∧ finite (startProduct late n) = true) ∧
    lateTime = (List.range late.nnotes.toNat).foldl (fun m n => fmax m (endTime late n)) Fl.zero ∧
    lateTime = fmul Config.this.floatFmt (lateTime) (toF Config.this.floatFmt late.srate.toNat) ∧
    finite (lateTime) = true ∧ 2 ^ 24 = Machine.toNat (fceil (lateTime)) ∧
    2 ^ 24 ≤ Config.this.accMax ∧
    List.replicate (2 ^ 24) Fl.zero =
      (List.range late.nnotes.toNat).foldl (withNote late) (List.replicate (2 ^ 24) Fl.zero) ∧
    (∀ x ∈ List.replicate (2 ^ 24) Fl.zero, isnan x = false) ∧
    late.srate.toNat * (countOf late * 2) < 2 ^ 32 ∧ 36 + 2 ^ 24 * countOf late * 2 < 2 ^ 32 ∧
    44 + 2 ^ 24 * countOf late * 2 ≤ Config.this.outMax ∧
    [0] = (List.range late.nnotes.toNat).filter (clampsAt late (2 ^ 24)) := by
  obtain ⟨-, h2, -, h4, -, h6, -, -⟩ := oneSecond_values Config.this.floatFmt
  have hr : List.range late.nnotes.toNat = [0] := by decide
  have he : endTime late 0 = lateTime := by
    change fadd Config.this.floatFmt (lateTime) Fl.one = _
    rw [hf]; decide +kernel
  have hp : startProduct late 0 = lateTime := by
    change fmul Config.this.floatFmt (lateTime) (toF _ 1) = _
    rw [hf]; decide +kernel
  have hs : startOf late 0 = 2 ^ 24 := by rw [startOf, hp]; decide +kernel
  have hn : lenOf late 0 = 1 := by
    change Machine.toNat (ffloor (fmul _ Fl.one (toF _ 1))) = 1
    rw [h2, h4]
  have hk : keptOf late 0 (2 ^ 24) = 0 := by rw [keptOf, hs, if_pos (Nat.le_refl _)]
  have hg : GenOk late 0 := by
    refine ⟨one_counts _ rfl rfl, by decide, by decide, ⟨by decide, by decide, ⟨rfl, by decide +kernel⟩, rfl,
      ⟨rfl, by decide +kernel⟩, ⟨rfl, by decide +kernel⟩⟩, ?_, by rw [hn]; exact hl, fun i hi => ?_⟩
    · change finite (fmul _ Fl.one (toF _ 1)) = true
      rw [h2]; rfl
    · rw [hn] at hi
      rw [show i = 0 by omega]
      change (oscSquare Config.this (fdiv _ (toF _ 0) (toF _ 1)) Fl.one).isSome = true
      rw [oscSquare, h6]
      rfl
  have hc : countOf late = 1 := by decide
  refine ⟨hg.counts, by decide, rfl, by decide, fun n hn => ?_, ?_, hp.symm, rfl, by decide +kernel, ha, ?_, fun x hx => ?_,
    by decide, by rw [hc]; decide, by rw [hc]; exact ho, ?_⟩
  · rw [show n = 0 from Nat.lt_one_iff.1 hn, he, hp]
    exact ⟨hg, rfl, rfl⟩
  · rw [hr, List.foldl_cons, List.foldl_nil, he]; decide +kernel
  · rw [hr, List.foldl_cons, List.foldl_nil, withNote, List.length_replicate, hk, combined_zero]
  · rw [(List.mem_replicate.1 hx).2]; rfl
  · have : clampsAt late (2 ^ 24) 0 = true := by rw [clampsAt, hk, hn]; decide
    rw [hr, List.filter_cons_of_pos this, List.filter_nil]

theorem witness_render_agrees : ∃ s1 s2 s3 s4 s5, quiet.rv = false ∧ exec .mixDur quiet = .next s1 ∧ s1.code = 0 ∧
    exec .mixAlloc s1.ack = .next s2 ∧ s2.code = 0 ∧ exec .mixAll s2.ack = .next s3 ∧ s3.code = 0 ∧
    exec .serBuild s3.ack = .next s4 ∧ s4.code = 0 ∧ exec .serFlush s4.ack = .next s5 := by
  obtain ⟨a, b, h1, c1, h2, c2, hr⟩ := quiet_ready
  obtain ⟨t, h3, c3, hr'⟩ := ready_mixAll hr
  obtain ⟨u, h4, c4⟩ := ready_serBuild hr'
  exact ⟨a, b, t, u, _, rfl, h1, c1, h2, c2, h3, c3, h4, c4, rfl⟩

/-- MIX.DUR on the empty song. -/
theorem empty_mixDur (s : State) (h1 : s.nnotes = 0) (h2 : s.ntracks = 0) :
    exec .mixDur s = .next ({ s with totdur := Fl.zero }.done false) := by
  have hc : CountsOk s := ⟨by rw [h2]; exact Nat.zero_le _, by rw [h1]; exact Nat.zero_le _⟩
  have h := totalDuration_ok hc (fun n hn => by rw [h1] at hn; exact absurd hn (Nat.not_lt_zero n))
  rw [h1] at h
  simp only [exec, execMixDur, mixDurOp, h, orRaise_ok, complete_endOk]
  rfl

/-- MIX.ALL on the empty song. -/
theorem empty_mixAll (s : State) (h1 : s.nnotes = 0) (h2 : s.ntracks = 0) (h3 : s.srate ≠ 0) :
    exec .mixAll s = .next (s.done false) := by
  have hc : CountsOk s := ⟨by rw [h2]; exact Nat.zero_le _, by rw [h1]; exact Nat.zero_le _⟩
  have h := mixAllOp_ok hc h3 (fun n hn => by rw [h1] at hn; exact absurd hn (Nat.not_lt_zero n))
  have hs : songNotes s = [] := by rw [songNotes, h1]; rfl
  rw [hs] at h
  simp only [exec, execMixAll, h]
  rw [complete_ok]
  rfl

/-- RENDER stopped in its first phase (too many tracks), its second (no rate), and its fourth (a format that is not 0). -/
theorem witness_render_stops :
    (∃ s1, { quiet with ntracks := 65537 }.rv = false ∧ exec .mixDur { quiet with ntracks := 65537 } = .next s1 ∧
      s1.code ≠ 0) ∧
    (∃ s1 s2, State.reset.rv = false ∧ exec .mixDur State.reset = .next s1 ∧ s1.code = 0 ∧
      exec .mixAlloc s1.ack = .next s2 ∧ s2.code ≠ 0) ∧
    ∃ s1 s2 s3 s4, { empty with fmt := 1 }.rv = false ∧ exec .mixDur { empty with fmt := 1 } = .next s1 ∧ s1.code = 0 ∧
      exec .mixAlloc s1.ack = .next s2 ∧ s2.code = 0 ∧ exec .mixAll s2.ack = .next s3 ∧ s3.code = 0 ∧
      exec .serBuild s3.ack = .next s4 ∧ s4.code ≠ 0 := by
  refine ⟨⟨_, rfl, rfl, ?_⟩, ⟨_, _, rfl, empty_mixDur _ rfl rfl, done_code _ _, rfl, ?_⟩,
    ⟨_, _, _, _, rfl, empty_mixDur _ rfl rfl, done_code _ _, quiet_alloc _ rfl rfl, done_code _ _,
      empty_mixAll _ rfl rfl (by decide), done_code _ _, rfl, ?_⟩⟩
  · rw [complete_code, mixDurOp, totalDuration, checkCounts_error witness_mixDur_faults.1]
    decide
  · rw [complete_code, mixAllocOp, bufferLength, checkRate_error rfl]
    decide
  · rw [complete_code]
    intro h
    have hf := (buildChecks_eq_ok.1 (serBuildOp_code_ok (codeBits_eq_zero.1 h)).1).1
    exact absurd hf (by decide)

/-- A note whose every sample has no value. -/
def loud : State := one 1 (maxFinite .binary64) Fl.one Fl.zero Fl.one 1

/-- RENDER stopped in its third phase, by a sample with no value; it needs room for one sample in ACC. -/
theorem witness_render_stops_in_mix (ha : 1 ≤ Config.this.accMax) :
    ∃ s1 s2 s3, loud.rv = false ∧ exec .mixDur loud = .next s1 ∧ s1.code = 0 ∧ exec .mixAlloc s1.ack = .next s2 ∧
      s2.code = 0 ∧ exec .mixAll s2.ack = .next s3 ∧ s3.code ≠ 0 := by
  have hf : ∀ f : FloatFmt, fadd f Fl.zero Fl.one = Fl.one ∧ fmul f Fl.one (toF f 1) = Fl.one ∧
      Machine.toNat (ffloor (fmul f Fl.one (toF f 1))) = 1 ∧ Machine.toNat (fceil Fl.one) = 1 ∧
      finite (fmul f (fmul f (toF f 2) (maxFinite .binary64)) (fdiv f (toF f 0) (toF f 1))) = false := by
    intro f; cases f <;> decide +kernel
  obtain ⟨f1, f2, f3, f4, f5⟩ := hf Config.this.floatFmt
  have hend : endTime loud 0 = Fl.one := f1
  have hv : NoteValid loud 0 := ⟨by decide, by decide, ⟨rfl, by decide +kernel⟩, rfl, ⟨rfl, by decide⟩, ⟨rfl, by decide +kernel⟩⟩
  have hd := totalDuration_ok (s := loud) (one_counts _ rfl rfl) (fun n hn => by
    rw [show n = 0 from Nat.lt_one_iff.1 hn]; exact ⟨hv, by rw [hend]; rfl⟩)
  have hm : (List.range loud.nnotes.toNat).foldl (fun m n => fmax m (endTime loud n)) Fl.zero = Fl.one := by
    change fmax Fl.zero (endTime loud 0) = _
    rw [hend]; decide +kernel
  rw [hm] at hd
  have hmd : exec .mixDur loud = .next ({ loud with totdur := Fl.one }.done false) := by
    simp only [exec, execMixDur, mixDurOp, hd, orRaise_ok, complete_endOk]
    rfl
  set a := { loud with totdur := Fl.one }.done false with hadef
  have hb : bufferLength Config.this a.ack = .ok 1 := by
    have := bufferLength_ok (s := a.ack) (p := Fl.one) (by change (1 : Word) ≠ 0; decide) f2.symm rfl (by rw [f4]; exact ha)
    rwa [f4] at this
  refine ⟨a, _, _, rfl, hmd, done_code _ _, rfl, ?_, rfl, ?_⟩
  · rw [complete_code, mixAllocOp, hb]; rfl
  · have hb' : mixAllocOp Config.this a.ack = endOk ((a.ack.enter .alloc).setAcc (List.replicate 1 Fl.zero)) := by
      rw [mixAllocOp, hb, orRaise_ok]
    rw [hb', complete_endOk, complete_code]
    intro h
    have hg := ((mixAllOp_code_ok (codeBits_eq_zero.1 h)).2.2 0 Nat.one_pos).1
    have hsame : SameSong loud (((a.ack.enter .alloc).setAcc (List.replicate 1 Fl.zero)).done false).ack :=
      ⟨rfl, rfl, rfl, rfl, rfl⟩
    have hlen : lenOf loud 0 = 1 := f3
    have hw := (genOk_congr hsame.symm hg).waves 0 (by rw [hlen]; exact Nat.one_pos)
    have : waveAt loud 0 0 = none := by
      change oscSquare Config.this _ _ = none
      rw [oscSquare, if_neg]
      exact ne_true_of_eq_false f5
    rw [this] at hw
    cases hw

/-- The empty song renders, and the result is the sink's answer. -/
theorem answering_render (a : Bool) : ∃ t, exec .render (answering a) = .next t ∧ t.code = (if a then 0 else 1) := by
  set s := answering a with hs
  have hd : mixDurOp Config.this s = endOk ((s.enter .dur).setTotdur Fl.zero) := by
    rw [mixDurOp, totalDuration_ok (s := s) ⟨Nat.zero_le _, Nat.zero_le _⟩ (fun n hn => absurd hn (Nat.not_lt_zero n)),
      orRaise_ok]
    rfl
  set s1 := (s.enter .dur).setTotdur Fl.zero with h1
  have hb : bufferLength Config.this s1 = .ok 0 := by
    have hp : Fl.zero = fmul Config.this.floatFmt s1.totdur (toF Config.this.floatFmt s1.srate.toNat) := by
      change _ = fmul _ Fl.zero (toF _ (1 : Word).toNat)
      rw [toF_1, fmul_zero_one]
    have := bufferLength_ok (s := s1) (by change (1 : Word) ≠ 0; decide) hp rfl (by rw [ceil_zero]; exact Nat.zero_le _)
    rwa [ceil_zero] at this
  have ha : mixAllocOp Config.this s1 = endOk ((s1.enter .alloc).setAcc []) := by rw [mixAllocOp, hb, orRaise_ok]; rfl
  set s2 := (s1.enter .alloc).setAcc [] with h2
  have hm : mixAllOp Config.this s2 = ⟨.ok, false, placed s2 (s2.enter .mix) []⟩ :=
    mixAllOp_ok (s := s2) ⟨Nat.zero_le _, Nat.zero_le _⟩ (by change (1 : Word) ≠ 0; decide)
      (fun n hn => absurd hn (Nat.not_lt_zero n))
  set s3 := placed s2 (s2.enter .mix) [] with h3
  have hw := serBuildOp_ok (s := s3) (checks_small rfl rfl rfl rfl) (fun x hx => by cases hx)
  refine ⟨_, rfl, ?_⟩
  rw [complete_code, renderOp_eq, frontOp, hd, andThen_endOk, ha, andThen_endOk, hm, andThen_mk_ok, hw]
  cases a <;> rfl

theorem witness_render_again : ∃ t u, exec .render (answering true) = .next t ∧ t.code < 2 ∧ exec .render t.ack = .next u := by
  obtain ⟨t, h, c⟩ := answering_render true
  exact ⟨t, _, h, by rw [c]; decide, rfl⟩

theorem witness_flush_retries : (answering false).fatal = false ∧ ∃ t, exec .render (answering false) = .next t ∧ t.code = 1 := by
  obtain ⟨t, h, c⟩ := answering_render false
  exact ⟨by simp [State.fatal, answering, empty, State.reset], t, h, c⟩

/-! Whole-machine rules -/

/-- A command, and a host write of SRATE. -/
theorem witness_sides : (∃ t, exec .mixDur quiet = .next t) ∧ (hosted (.regWrite 4 8)).env.host = [.regWrite 4 8] ∧
    Txn.regWrite 4 8 ≠ .reset ∧ (∀ bits, Txn.regWrite 4 8 ≠ .regWrite 0 bits) ∧
    ∃ t, step (hosted (.regWrite 4 8)) = .next t :=
  ⟨⟨_, quiet_mixDur⟩, rfl, by decide, by simp, _, rfl⟩

theorem witness_register_commands : Instr.qntS ∈ [Instr.oscSine, .oscSquare, .oscSaw, .qntS] ∧
    ∃ t, exec .qntS State.reset = .next t ∧ t.code = 0 := by
  refine ⟨by decide, _, rfl, ?_⟩
  rw [complete_code]
  rcases qntOp_cases Config.this State.reset with ⟨v, -, h⟩ | ⟨h, -⟩
  · rw [h]; rfl
  · simp [quantize, State.reset, isnan, Fl.zero] at h

theorem witness_mixer_commands : Instr.mixDur ∈ [Instr.mixDur, .mixAlloc, .mixGen 0, .mixMergeAdd, .mixMergeOvr, .mixNote 0,
      .mixAll] ∧ ∃ t, exec .mixDur quiet = .next t ∧ t.code = 0 := ⟨by decide, witness_total_duration⟩

end Sys2Proof.Tests
end

/-! SUPPORT. The invariant of the block: samples stay finite, each command's body keeps what the invariant asks of the
buffers, completion and the ports keep the rest, and so every step keeps the invariant. -/

namespace Sys2Proof.Machine

/-! ### The sign and the size of samples -/

/-- The sign of a value of F; NaN has none. -/
def isNeg : Fl → Bool
  | .fin s _ => s
  | .inf s => s
  | .nan => false

@[simp] theorem isNeg_fin (s : Bool) (m : Nat) : isNeg (.fin s m) = s := rfl
@[simp] theorem isNeg_inf (s : Bool) : isNeg (.inf s) = s := rfl
@[simp] theorem isNeg_nan : isNeg .nan = false := rfl

@[simp] theorem isNeg_pack (f : FloatFmt) (s : Bool) (m : Nat) : isNeg (pack f s m) = s := by
  unfold pack; split <;> rfl

@[simp] theorem isNeg_toF (f : FloatFmt) (n : Nat) : isNeg (toF f n) = false := isNeg_pack f false _

/-- A product of factors without a sign has none. -/
theorem isNeg_fmul {f : FloatFmt} {a b : Fl} (ha : isNeg a = false) (hb : isNeg b = false) :
    isNeg (fmul f a b) = false := by
  unfold fmul
  split <;> simp_all [apply_ite isNeg]

/-- A quotient of values without a sign has none. -/
theorem isNeg_fdiv {f : FloatFmt} {a b : Fl} (ha : isNeg a = false) (hb : isNeg b = false) :
    isNeg (fdiv f a b) = false := by
  unfold fdiv
  split <;> simp_all [apply_ite isNeg]

/-- A number above zero has no sign. -/
theorem isNeg_of_pos {x : Fl} (h : flt Fl.zero x = true) : isNeg x = false := by
  cases x with
  | nan => rfl
  | inf s => simpa [flt, Fl.zero] using h
  | fin s m =>
    cases s with
    | false => rfl
    | true =>
      have h : ((0 : Nat) : Int) < -(m : Int) := of_decide_eq_true h
      omega

/-- A finite value without a sign. -/
theorem exists_fin_of_not_isNeg {x : Fl} (hf : finite x = true) (hs : isNeg x = false) : ∃ m, x = .fin false m := by
  obtain ⟨s, m, rfl⟩ := exists_fin_of_finite hf
  exact ⟨m, by rw [show s = false from hs]⟩

/-- A finite value in [-1, 1] (40_oscillator R103). -/
def InUnit (x : Fl) : Prop := ∃ s k, x = .fin s k ∧ k ≤ Fl.unit

/-- A value of F in [-1, 1]. -/
def UnitInF (f : FloatFmt) (x : Fl) : Prop := inF f x = true ∧ InUnit x

/-- Rounding does not leave [-1, 1]. -/
theorem roundInt_inUnit (f : FloatFmt) (z : Bool) {v : Int} (h : v.natAbs ≤ Fl.unit) : InUnit (roundInt f z v) := by
  have hle : roundMag f v.natAbs 1 ≤ Fl.unit := roundMag_le one_pos (isRep_unit f) (by omega)
  unfold roundInt
  split
  · exact ⟨z, 0, rfl, Nat.zero_le _⟩
  · exact ⟨_, _, by rw [pack, if_pos (hle.trans_lt (unit_lt_range f))], hle⟩

theorem zero_unitInF (f : FloatFmt) (s : Bool) : UnitInF f (.fin s 0) :=
  ⟨inF_fin.2 ⟨by positivity, isRep_zero f⟩, s, 0, rfl, Nat.zero_le _⟩

/-- The sine of a finite argument is a value of F in [-1, 1] (00_scope R10, L2). -/
theorem sinOf_unitInF (c : Config) {x : Fl} (h : finite x = true) : UnitInF c.floatFmt (sinOf c x) := by
  obtain ⟨s, m, rfl⟩ := exists_fin_of_finite h
  simp only [sinOf]
  split
  · split
    · split <;> exact zero_unitInF _ _
    · exact zero_unitInF _ _
  · split
    · split
      · next hk => exact ⟨hk.1, _, _, rfl, hk.2⟩
      · exact zero_unitInF _ _
    · exact zero_unitInF _ _

theorem oscSine_unitInF {c : Config} {t f v : Fl} (h : oscSine c t f = some v) : UnitInF c.floatFmt v := by
  simp only [oscSine, Option.ite_none_right_eq_some, Option.some.injEq] at h
  obtain ⟨hb, rfl⟩ := h
  exact sinOf_unitInF c hb

theorem oscSquare_unitInF {c : Config} {t f v : Fl} (h : oscSquare c t f = some v) : UnitInF c.floatFmt v := by
  simp only [oscSquare, Option.ite_none_right_eq_some, Option.some.injEq] at h
  obtain ⟨-, rfl⟩ := h
  split
  · exact ⟨minusOne_inF _, _, _, rfl, le_rfl⟩
  · exact ⟨one_inF _, _, _, rfl, le_rfl⟩

theorem oscSaw_inF {c : Config} {t f v : Fl} (h : oscSaw c t f = some v) : inF c.floatFmt v = true := by
  simp only [oscSaw, Option.ite_none_right_eq_some, Option.some.injEq] at h
  obtain ⟨-, rfl⟩ := h
  exact fsub_inF _ _

/-- `2 r - 1` for a fraction r of the unit is in [-1, 1]. -/
theorem saw_of_fraction_inUnit {f : FloatFmt} {r : Nat} (hr : IsRep f r) (hlt : r < Fl.unit) :
    InUnit (fsub f (fmul f (toF f 2) (.fin false r)) (toF f 1)) := by
  have h2 : 2 ≤ 2 ^ prec f := small_le_two_pow_prec f (by omega)
  have hrange : 2 * r < 2 ^ rangeBit f := (by omega : 2 * r < 2 * Fl.unit).trans (unit_mul_lt_range h2)
  have hdouble : fmul f (toF f 2) (.fin false r) = .fin false (2 * r) := by
    rw [toF_exact h2, fmul, roundMag_exact fl_unit_pos (isRep_double hr) (by ring), pack, if_pos hrange]
    rfl
  rw [hdouble, toF_one]
  refine roundInt_inUnit f _ ?_
  simp only [signed, Bool.not_false, if_true, Bool.false_eq_true, if_false]
  omega

/-- OSC.SAW's waveform at a time and a frequency that are not negative is in [-1, 1] (40_oscillator R103). -/
theorem oscSaw_inUnit {c : Config} {t f v : Fl} (ht : isNeg t = false) (hf : isNeg f = false)
    (h : oscSaw c t f = some v) : InUnit v := by
  simp only [oscSaw, Option.ite_none_right_eq_some, Option.some.injEq] at h
  obtain ⟨ha, rfl⟩ := h
  have hF := fmul_inF (f := c.floatFmt) f t
  obtain ⟨m, hm⟩ := exists_fin_of_not_isNeg ha (isNeg_fmul hf ht)
  rw [hm] at hF ⊢
  rw [ffrac_fin hF]
  exact saw_of_fraction_inUnit (isRep_mod_unit (inF_fin.1 hF).2) (Nat.mod_lt _ fl_unit_pos)

/-- Every waveform at a time and a frequency that are not negative is in [-1, 1] (40_oscillator R100). -/
theorem evalWave_inUnit {c : Config} {code : BitVec 2} {t f v : Fl} (ht : isNeg t = false) (hf : isNeg f = false)
    (h : evalWave c code t f = some v) : InUnit v := by
  unfold evalWave at h
  split_ifs at h
  · exact (oscSine_unitInF h).2
  · exact (oscSquare_unitInF h).2
  · exact oscSaw_inUnit ht hf h

/-- A finite value of F times a value in [-1, 1] is finite. -/
theorem fmul_finite_of_inUnit {f : FloatFmt} {a b : Fl} (ha : finite a = true) (hF : inF f a = true) (hb : InUnit b) :
    finite (fmul f a b) = true := by
  obtain ⟨s, m, rfl⟩ := exists_fin_of_finite ha
  obtain ⟨t, n, rfl, hn⟩ := hb
  obtain ⟨k, -, hk⟩ := fmul_unit_le (t := t) hF hn
  rw [hk]
  rfl

/-- The samples of a note that MIX.GEN generates are finite values of F (41_mixer R125, R134). -/
theorem samplesOf_finite {s : State} {n : Nat} (hw : s.song.Wf Config.this) (hg : GenOk s n) :
    ∀ x ∈ samplesOf s n, inF Config.this.floatFmt x = true ∧ finite x = true := by
  intro x hx
  obtain ⟨i, hi, rfl⟩ := List.mem_map.1 hx
  obtain ⟨v, hv⟩ := Option.isSome_iff_exists.1 (hg.waves i (List.mem_range.1 hi))
  have hunit : InUnit v :=
    evalWave_inUnit (isNeg_fdiv (isNeg_toF _ _) (isNeg_toF _ _)) (isNeg_of_pos hg.valid.freq.2) hv
  obtain ⟨-, hvol, -, -⟩ := noteAt_inF hw n
  rw [hv]
  exact ⟨fmul_inF _ _, fmul_finite_of_inUnit hg.valid.vol hvol hunit⟩

/-! ### The total duration -/

/-- The maximum of two finite values, the first of which is not negative, is finite and not negative. -/
theorem fmax_nonneg {a b : Fl} (ha : finite a = true ∧ fle Fl.zero a = true) (hb : finite b = true) :
    finite (fmax a b) = true ∧ fle Fl.zero (fmax a b) = true := by
  obtain ⟨s, m, rfl⟩ := exists_fin_of_finite ha.1
  obtain ⟨t, n, rfl⟩ := exists_fin_of_finite hb
  unfold fmax
  split
  · next h =>
    have h0 := ha.2
    simp only [flt, fle, Fl.zero, decide_eq_true_eq] at h h0 ⊢
    exact ⟨rfl, h0.trans h.le⟩
  · exact ha

theorem fmax_inF {f : FloatFmt} {a b : Fl} (ha : inF f a = true) (hb : inF f b = true) : inF f (fmax a b) = true := by
  unfold fmax; split <;> assumption

/-- The latest end time of notes is a finite value of F that is not negative (41_mixer R122). -/
theorem foldl_endTime_nonneg (s : State) {ns : List Nat} (hn : ∀ n ∈ ns, finite (endTime s n) = true) {m : Fl}
    (hF : inF Config.this.floatFmt m = true) (hm : finite m = true ∧ fle Fl.zero m = true) :
    inF Config.this.floatFmt (ns.foldl (fun m n => fmax m (endTime s n)) m) = true ∧
    finite (ns.foldl (fun m n => fmax m (endTime s n)) m) = true ∧
    fle Fl.zero (ns.foldl (fun m n => fmax m (endTime s n)) m) = true := by
  induction ns generalizing m with
  | nil => exact ⟨hF, hm⟩
  | cons n ns ih =>
    exact ih (fun k hk => hn k (by simp [hk])) (fmax_inF hF (fadd_inF _ _)) (fmax_nonneg hm (hn n (by simp)))

theorem totalDuration_nonneg {s : State} {x : Fl} (h : totalDuration Config.this s = .ok x) :
    inF Config.this.floatFmt x = true ∧ finite x = true ∧ fle Fl.zero x = true := by
  obtain ⟨-, hn, rfl⟩ := totalDuration_eq_ok.1 h
  exact foldl_endTime_nonneg s (fun n hn' => (hn n (List.mem_range.1 hn')).2) (zero_inF _) ⟨rfl, rfl⟩

/-! ### What the body of a command keeps of the invariant -/

/-- What the invariant asks of the song and of the state a body may write, while no fatal fault is recorded. -/
structure Sound (c : Config) (s : State) : Prop where
  song : s.song.Wf c
  totdurF : inF c.floatFmt s.totdur = true
  oscOutF : inF c.floatFmt s.oscOut = true
  accF : ∀ x ∈ s.acc, inF c.floatFmt x = true
  locF : ∀ x ∈ s.loc, inF c.floatFmt x = true
  buffers : BuffersOk c s

/-- A part of a command that ended without a fatal fault left a sound state. -/
def SoundEnd (c : Config) (e : CmdEnd) : Prop := isFatal e.code = false → Sound c e.state

variable {c : Config} {s : State}

/-! ### The updates -/

theorem Sound.enter (h : Sound c s) (p : Phase) : Sound c (s.enter p) := { h with buffers := { h.buffers with } }

theorem Sound.setOscOut (h : Sound c s) {v : Fl} (hv : inF c.floatFmt v = true) : Sound c (s.setOscOut v) :=
  { h with oscOutF := hv, buffers := { h.buffers with } }

theorem Sound.setTotdur (h : Sound c s) {v : Fl} (hF : inF c.floatFmt v = true)
    (hv : finite v = true ∧ fle Fl.zero v = true) : Sound c (s.setTotdur v) :=
  { h with totdurF := hF, buffers := { h.buffers with totdur := hv } }

theorem Sound.setAcc (h : Sound c s) {v : List Fl} (hlen : v.length ≤ c.accMax)
    (hv : ∀ x ∈ v, inF c.floatFmt x = true ∧ isnan x = false) : Sound c (s.setAcc v) :=
  { h with
    accF := fun x hx => (hv x hx).1
    buffers := { h.buffers with accLen := hlen, accNumbers := fun x hx => (hv x hx).2 } }

theorem Sound.setLoc (h : Sound c s) {v : List Fl} (note track : Half) (hlen : v.length ≤ c.locMax)
    (hv : ∀ x ∈ v, inF c.floatFmt x = true ∧ finite x = true) : Sound c (s.setLoc v note track) :=
  { h with
    locF := fun x hx => (hv x hx).1
    buffers := { h.buffers with locLen := hlen, locFinite := fun x hx => (hv x hx).2 } }

theorem Sound.setOut (h : Sound c s) {v : List Byte} (hlen : v.length ≤ c.outMax) : Sound c (s.setOut v) :=
  { h with buffers := { h.buffers with outLen := hlen } }

/-! ### How parts of a command combine -/

theorem SoundEnd.endOk (h : Sound c s) : SoundEnd c (endOk s) := fun _ => h

theorem SoundEnd.orRaise {α : Type} {x : Except Raise α} {k : α → CmdEnd} (hx : Fatals x)
    (hk : ∀ a, x = .ok a → SoundEnd c (k a)) : SoundEnd c (orRaise s x k) := by
  cases x with
  | ok a => exact hk a rfl
  | error r =>
    intro h
    rw [orRaise_error, raiseEnd_code, hx r rfl] at h
    cases h

theorem SoundEnd.andThen {e : CmdEnd} {k : State → CmdEnd} (h : SoundEnd c e)
    (hk : Sound c e.state → SoundEnd c (k e.state)) : SoundEnd c (andThen e k) := by
  by_cases hc : e.code = .ok
  · rw [andThen_of_ok hc]
    exact hk (h (by rw [hc]; rfl))
  · rw [andThen_of_fault hc]
    exact h

/-! ### The commands -/

theorem oscOp_sound {wave : Fl → Fl → Option Fl} (h : Sound c s)
    (hw : ∀ t f v, wave t f = some v → inF c.floatFmt v = true) : SoundEnd c (oscOp wave s) := by
  rcases oscOp_cases wave s with ⟨v, -, hv, e⟩ | e <;> rw [e]
  · exact .endOk (h.setOscOut (hw _ _ _ hv))
  · exact fun _ => h

theorem qntOp_sound (h : Sound c s) : SoundEnd c (qntOp c s) := by
  rcases qntOp_cases c s with ⟨v, -, e⟩ | ⟨-, e⟩ <;> rw [e]
  · exact .endOk { h with buffers := { h.buffers with } }
  · exact fun _ => h

theorem mixDurOp_sound (h : Sound Config.this s) : SoundEnd Config.this (mixDurOp Config.this s) :=
  .orRaise (totalDuration_fatals _ s) fun _ hx =>
    .endOk ((h.enter _).setTotdur (totalDuration_nonneg hx).1 (totalDuration_nonneg hx).2)

theorem mixAllocOp_sound (h : Sound Config.this s) : SoundEnd Config.this (mixAllocOp Config.this s) := by
  refine .orRaise (bufferLength_fatals _ s) fun n hn => ?_
  obtain ⟨-, -, hcap, rfl⟩ := (bufferLength_eq_ok rfl).1 hn
  refine .endOk ((h.enter _).setAcc (by rwa [List.length_replicate]) fun x hx => ?_)
  rw [List.eq_of_mem_replicate hx]
  exact ⟨zero_inF _, rfl⟩

theorem mixGenOp_sound (h : Sound Config.this s) (n : Nat) : SoundEnd Config.this (mixGenOp Config.this s n) := by
  refine .orRaise (localSamples_fatals _ s n) fun l hl => ?_
  obtain ⟨hg, rfl⟩ := localSamples_eq_ok.1 hl
  exact .endOk ((h.enter _).setLoc _ _ (by rw [samplesOf_length]; exact hg.fits) (samplesOf_finite h.song hg))

/-- An element after a write is an old one or one of those written. -/
theorem mem_memWrite {α : Type} {l v : List α} {a : Nat} {x : α} (h : x ∈ memWrite l a v) : x ∈ l ∨ x ∈ v := by
  simp only [memWrite, List.mem_append] at h
  rcases h with (h | h) | h
  · exact .inl (List.mem_of_mem_take h)
  · exact .inr h
  · exact .inl (List.mem_of_mem_drop h)

/-- An element read is one of the space. -/
theorem mem_of_mem_memRead {α : Type} {l : List α} {a n : Nat} {x : α} (h : x ∈ memRead l a n) : x ∈ l :=
  List.mem_of_mem_drop (List.mem_of_mem_take h)

/-- Merging a finite value of F into a value of F that is no NaN gives such a value (41_mixer R134). -/
theorem combineWith_number (how : Combine) {a b : Fl} (ha : isnan a = false) (hb : finite b = true)
    (hF : inF c.floatFmt b = true) :
    inF c.floatFmt (combineWith c how a b) = true ∧ isnan (combineWith c how a b) = false := by
  cases how with
  | add => exact ⟨fadd_inF a b, fadd_isnan_of_finite ha hb⟩
  | overwrite =>
    obtain ⟨t, m, rfl⟩ := exists_fin_of_finite hb
    exact ⟨hF, rfl⟩

theorem mergeOp_sound (h : Sound c s) (ds dl sl : Nat) (how : Combine) : SoundEnd c (mergeOp c s ds dl sl how) := by
  refine .orRaise (.bind (.require rfl) fun _ => .require rfl) fun _ hok => .endOk (h.setAcc ?_ fun x hx => ?_)
  · obtain ⟨_, hfits, _⟩ := bind_eq_ok.1 hok
    have hfits : ds + dl ≤ s.acc.length := of_decide_eq_true (require_eq_ok.1 hfits)
    rw [memWrite_length _ _ _ (by simp [memRead]; omega)]
    exact h.buffers.accLen
  · rcases mem_memWrite hx with hx | hx
    · exact ⟨h.accF x hx, h.buffers.accNumbers x hx⟩
    · obtain ⟨a, b, hab, rfl⟩ : ∃ a b, (a, b) ∈ (memRead s.acc ds dl).zip (memRead s.loc 0 dl) ∧
          combineWith c how a b = x := by
        rw [← List.map_uncurry_zip_eq_zipWith] at hx
        simpa using hx
      have ha := mem_of_mem_memRead (List.of_mem_zip hab).1
      have hb := mem_of_mem_memRead (List.of_mem_zip hab).2
      exact combineWith_number how (h.buffers.accNumbers a ha) (h.buffers.locFinite b hb) (h.locF b hb)

theorem mixMergeOp_sound (h : Sound c s) (how : Combine) : SoundEnd c (mixMergeOp c how s) :=
  mergeOp_sound (h.enter _) _ _ _ how

theorem placeOp_sound (h : Sound c s) (n start : Nat) : SoundEnd c (placeOp c s n start) := by
  refine .andThen ?_ fun h' => ?_
  · split
    · exact fun _ => { h with buffers := { h.buffers with } }
    · exact .endOk h
  · split
    · exact mergeOp_sound h' _ _ _ _
    · exact .endOk h'

theorem mixNoteOp_sound (h : Sound Config.this s) (n : Nat) : SoundEnd Config.this (mixNoteOp Config.this s n) :=
  .andThen (mixGenOp_sound h n) fun h' => .orRaise (noteStart_fatals _ _ n) fun start _ => placeOp_sound h' n start

theorem mixNotes_sound (ns : List Nat) (h : Sound Config.this s) : SoundEnd Config.this (mixNotes Config.this ns s) := by
  induction ns generalizing s with
  | nil => exact .endOk h
  | cons n ns ih => exact .andThen (mixNoteOp_sound h n) ih

theorem mixAllOp_sound (h : Sound Config.this s) : SoundEnd Config.this (mixAllOp Config.this s) :=
  .orRaise (.bind (checkCounts_fatals _ s) fun _ => .require rfl) fun _ _ => mixNotes_sound _ (h.enter _)

theorem appendAll_sound (l : List (List Byte)) (h : Sound c s) : SoundEnd c (appendAll c l s) := by
  induction l generalizing s with
  | nil => exact .endOk h
  | cons b l ih =>
    refine .andThen (.orRaise (.require rfl) fun _ hok => .endOk ?_) ih
    rw [memWrite_end]
    exact h.setOut (by simpa using of_decide_eq_true (require_eq_ok.1 hok))

theorem serBuildOp_sound (h : Sound c s) : SoundEnd c (serBuildOp c s) :=
  .orRaise (.bind (buildChecks_fatals c s) fun _ => .mapRaise (fun _ => .orElse rfl) _) fun _ _ =>
    appendAll_sound _ ((h.enter _).setOut (Nat.zero_le _))

theorem serFlushOp_sound (h : Sound c s) : SoundEnd c (serFlushOp s) := by
  rw [serFlushOp_eq]
  exact fun _ => { h with buffers := { h.buffers with } }

theorem renderOp_sound (h : Sound Config.this s) : SoundEnd Config.this (renderOp Config.this s) :=
  .andThen (.andThen (.andThen (.andThen (mixDurOp_sound h) mixAllocOp_sound) mixAllOp_sound) serBuildOp_sound)
    serFlushOp_sound

/-- Every command that ends without a fatal fault leaves the buffers as the invariant asks. -/
theorem bodyOf_sound (h : Sound Config.this s) (i : Instr) : SoundEnd Config.this (bodyOf Config.this i s) := by
  cases i with
  | oscSine => exact oscOp_sound h fun _ _ _ hv => (oscSine_unitInF hv).1
  | oscSquare => exact oscOp_sound h fun _ _ _ hv => (oscSquare_unitInF hv).1
  | oscSaw => exact oscOp_sound h fun _ _ _ => oscSaw_inF
  | mixDur => exact mixDurOp_sound h
  | mixAlloc => exact mixAllocOp_sound h
  | mixGen n => exact mixGenOp_sound h n
  | mixMergeAdd => exact mixMergeOp_sound h _
  | mixMergeOvr => exact mixMergeOp_sound h _
  | mixNote n => exact mixNoteOp_sound h n
  | mixAll => exact mixAllOp_sound h
  | qntS => exact qntOp_sound h
  | serBuild => exact serBuildOp_sound h
  | serFlush => exact serFlushOp_sound h
  | render => exact renderOp_sound h

/-! ### Completion -/

/-- Setting flags sets no reserved bit of STATUS (10_state R25). -/
theorem reserved_or {v w : Word} (hv : v.extractLsb' 4 28 = 0) (hw : w.extractLsb' 4 28 = 0) :
    (v ||| w).extractLsb' 4 28 = 0 := by
  rw [BitVec.extractLsb'_or, hv, hw]; rfl

theorem reserved_statusAfter {v : Word} (h : v.extractLsb' 4 28 = 0) (code : ResultCode) :
    (statusAfter v code).extractLsb' 4 28 = 0 := by
  unfold statusAfter
  split
  · exact reserved_or (reserved_or h (by decide)) (by decide)
  · exact reserved_or h (by decide)

/-- A fatal code sets FATAL; no other code touches it (60_exceptions R201, R204). -/
theorem complete_fatal_flag (c : Config) (e : CmdEnd) :
    (complete c e).fatal = (isFatal e.code || e.state.fatal) := by
  rw [State.fatal, complete_status, statusAfter]
  cases isFatal e.code <;> simp [State.fatal, flagFatal, flagRV]

/-- The reserved bits of RESULT are 0 (10_state R26). -/
theorem resultWord_reserved (code : ResultCode) (dv : Bool) : (resultWord code dv).extractLsb' 9 23 = 0 := by
  cases code <;> cases dv <;> decide

/-- Every code is one of the table (60_exceptions R200). -/
theorem codeBits_le (code : ResultCode) : (codeBits code).toNat ≤ 8 := by cases code <;> decide

/-- While no fatal fault is recorded, the invariant is one of the buffers too. -/
theorem Inv.sound (h : Inv c s) (hf : s.fatal = false) : Sound c s := { h with buffers := h.buffers hf }

/-- A body that left a sound state leaves one after completion, where it ended without a fatal fault. -/
theorem complete_sound {e : CmdEnd} (hs : SoundEnd c e) (hc : isFatal e.code = false) : Sound c (complete c e) := by
  rw [complete_not_fatal c e hc]
  exact { hs hc with buffers := { (hs hc).buffers with } }

/-- The buffers a fatal fault leaves hold values of F (10_state R44). -/
theorem mem_map_fit_inF {f : FloatFmt} {l : List Fl} : ∀ x ∈ l.map (fit f), inF f x = true := by
  intro x hx
  obtain ⟨y, -, rfl⟩ := List.mem_map.1 hx
  exact fit_inF y

/-- Completion leaves values of F in every register and buffer a body may write, fault or not. -/
theorem complete_inF {e : CmdEnd} (hs : SoundEnd c e) :
    inF c.floatFmt (complete c e).totdur = true ∧ inF c.floatFmt (complete c e).oscOut = true ∧
    (∀ x ∈ (complete c e).acc, inF c.floatFmt x = true) ∧ (∀ x ∈ (complete c e).loc, inF c.floatFmt x = true) := by
  cases hc : isFatal e.code with
  | false =>
    have h := complete_sound hs hc
    exact ⟨h.totdurF, h.oscOutF, h.accF, h.locF⟩
  | true =>
    simp only [complete, hc, if_true, State.setPc_totdur, State.setPc_oscOut, State.setPc_acc, State.setPc_loc,
      State.setStatus_totdur, State.setStatus_oscOut, State.setStatus_acc, State.setStatus_loc]
    exact ⟨fit_inF _, fit_inF _, mem_map_fit_inF, mem_map_fit_inF⟩

/-- Completion keeps the invariant after a body that keeps the inputs, every flag but CLAMPED and, where it ends without a
fatal fault, the buffers. -/
theorem complete_inv {e : CmdEnd} (h : Inv c s) (hi : KeepsInputs s e.state)
    (hst : e.state.status = s.status ∨ e.state.status = s.status ||| 0x4) (hs : SoundEnd c e) :
    Inv c (complete c e) := by
  have hk := hi.trans (complete_keepsInputs c e)
  have hres : e.state.status.extractLsb' 4 28 = 0 := by
    rcases hst with hst | hst <;> rw [hst]
    · exact h.statusReserved
    · exact reserved_or h.statusReserved (by decide)
  obtain ⟨htotdur, hosc, hacc, hloc⟩ := complete_inF hs
  exact {
    statusReserved := by rw [complete_status]; exact reserved_statusAfter hres _
    resultReserved := by rw [complete_result]; exact resultWord_reserved _ _
    resultCode := by rw [complete_code]; exact codeBits_le _
    idle := rfl
    song := hk.song ▸ h.song
    totdurF := htotdur
    oscTF := hk.oscT ▸ h.oscTF
    oscFreqF := hk.oscFreq ▸ h.oscFreqF
    oscOutF := hosc
    qntInF := hk.qntIn ▸ h.qntInF
    accF := hacc
    locF := hloc
    buffers := fun hf => by
      rw [complete_fatal_flag, Bool.or_eq_false_iff] at hf
      exact (complete_sound hs hf.1).buffers }

/-- An accepted command keeps the invariant. -/
theorem exec_inv {i : Instr} {t : State} (h : Inv Config.this s) (hf : s.fatal = false) (ht : exec i s = .next t) :
    Inv Config.this t := by
  rw [exec_eq] at ht
  cases ht
  obtain ⟨hi, hst⟩ := bodyOf_inputs Config.this i s
  exact complete_inv h hi hst (bodyOf_sound (h.sound hf) i)

/-! ### The ports -/

/-- s with every field the invariant does not speak of at its reset value. -/
def State.invPart (s : State) : State :=
  { State.reset with
    status := s.status, result := s.result, pc := s.pc, song := s.song, totdur := s.totdur, oscT := s.oscT,
    oscFreq := s.oscFreq, oscOut := s.oscOut, qntIn := s.qntIn, acc := s.acc, loc := s.loc, out := s.out }

theorem inv_invPart : Inv c s.invPart ↔ Inv c s :=
  ⟨fun h => { h with buffers := fun hf => { h.buffers hf with } },
    fun h => { h with buffers := fun hf => { h.buffers hf with } }⟩

/-- A state that agrees with one of the invariant on the fields it speaks of is in it. -/
theorem Inv.congr {t : State} (h : Inv c s) (ht : t.invPart = s.invPart) : Inv c t :=
  inv_invPart.1 (ht ▸ inv_invPart.2 h)

theorem Inv.setEnv (h : Inv c s) (v : Env) : Inv c (s.setEnv v) := h.congr rfl

/-- A change of STATUS that leaves FATAL and the reserved bits alone keeps the invariant. -/
theorem Inv.setStatus (h : Inv c s) {v : Word} (hres : v.extractLsb' 4 28 = 0) (hf : v.getLsbD 1 = s.fatal) :
    Inv c (s.setStatus v) :=
  { h with statusReserved := hres, buffers := fun hv => { h.buffers (hf.symm.trans hv) with } }

/-- The write of STATUS touches neither FATAL nor a reserved bit (10_state R25). -/
theorem writeStatus_inv (h : Inv c s) (written : Word) : Inv c (writeStatus s written) := by
  refine h.setStatus ?_ ?_
  · rw [clearW1C, BitVec.extractLsb'_and, h.statusReserved]
    exact BitVec.zero_and
  · simp [clearW1C, w1cBits, State.fatal]

/-- The DISCARD flag is neither FATAL nor a reserved bit (10_state R25). -/
theorem raiseDiscard_inv (h : Inv c s) : Inv c (s.raiseFlag flagDiscard) := by
  refine h.setStatus (reserved_or h.statusReserved (by decide)) ?_
  simp [flagDiscard, State.fatal]

/-- A write of any register but CMD keeps the invariant (10_state R22). -/
theorem regWrite_inv (h : Inv c s) (number : Nat) (bits : BitVec 64) : Inv c (regWrite c s number bits) := by
  unfold regWrite
  split
  case h_1 => exact writeStatus_inv h _
  case h_9 => exact { h with oscTF := ofBits_inF _ _, buffers := fun hf => { h.buffers hf with } }
  case h_10 => exact { h with oscFreqF := ofBits_inF _ _, buffers := fun hf => { h.buffers hf with } }
  case h_11 => exact { h with qntInF := ofBits_inF _ _, buffers := fun hf => { h.buffers hf with } }
  all_goals exact h.congr rfl

/-- A write inside a table keeps its canonical form and its bound. -/
theorem tableSet_ok {α : Type} {t : Table α} {bound k : Nat} (h : TableOk t bound) (hk : k < bound) (v : α) :
    TableOk (tableSet t k v) bound := by
  refine ⟨tableSet_wf k v h.1, fun e he => ?_⟩
  rcases mem_tableSet he with rfl | he
  · exact hk
  · exact h.2 e he

/-- A write of a value of F keeps a table of such values. -/
theorem tableSet_inF {f : FloatFmt} {t : Table Fl} (h : TableInF f t) (k : Nat) {v : Fl} (hv : inF f v = true) :
    TableInF f (tableSet t k v) := by
  intro e he
  rcases mem_tableSet he with rfl | he
  · exact hv
  · exact h e he

/-- A write of a field of a note keeps the song's canonical form (20_memory R62). -/
theorem writeField_wf {g : SongStore} (h : g.Wf c) {n : Nat} (hn : n < c.maxNotes) (code : Nat) (bits : BitVec 64) :
    (writeField c g n code bits).Wf c := by
  unfold writeField
  split
  · exact { h with track := tableSet_ok h.track hn _ }
  · exact { h with freq := tableSet_ok h.freq hn _, freqF := tableSet_inF h.freqF n (ofBits_inF _ _) }
  · exact { h with vol := tableSet_ok h.vol hn _, volF := tableSet_inF h.volF n (ofBits_inF _ _) }
  · exact { h with start := tableSet_ok h.start hn _, startF := tableSet_inF h.startF n (ofBits_inF _ _) }
  · exact { h with dur := tableSet_ok h.dur hn _, durF := tableSet_inF h.durF n (ofBits_inF _ _) }
  · exact h

/-- Another song in canonical form keeps the invariant. -/
theorem Inv.setSong (h : Inv c s) {g : SongStore} (hg : g.Wf c) : Inv c { s with song := g } :=
  { h with song := hg, buffers := fun hf => { h.buffers hf with } }

/-- A write through the song port keeps the invariant (20_memory R62). -/
theorem songWrite_inv (h : Inv c s) (addr : BitVec 20) (bits : BitVec 64) : Inv c (songWrite c s addr bits) := by
  unfold songWrite
  split
  · split
    · next n hn =>
      simp only [addrNote, Option.ite_none_right_eq_some, Option.some.injEq] at hn
      exact h.setSong (writeField_wf h.song (hn.2 ▸ hn.1) _ _)
    · exact h
  · split
    · next j hj =>
      simp only [addrTrack, Option.ite_none_right_eq_some, Option.some.injEq] at hj
      exact h.setSong { h.song with trk := tableSet_ok h.song.trk (hj.2 ▸ hj.1.2) _ }
    · exact h

/-- The state after reset is in the invariant (10_state R47). -/
theorem reset_inv (c : Config) : Inv c State.reset where
  statusReserved := by decide
  resultReserved := by decide
  resultCode := by decide
  idle := rfl
  song := by constructor <;> simp [State.reset, SongStore.reset, TableOk, TableWf, TableInF]
  totdurF := zero_inF _
  oscTF := zero_inF _
  oscFreqF := zero_inF _
  oscOutF := zero_inF _
  qntInF := zero_inF _
  accF := fun _ hx => nomatch hx
  locF := fun _ hx => nomatch hx
  buffers := fun _ => {
    accLen := Nat.zero_le _
    locLen := Nat.zero_le _
    outLen := Nat.zero_le _
    accNumbers := fun _ hx => nomatch hx
    locFinite := fun _ hx => nomatch hx
    totdur := ⟨rfl, rfl⟩ }

/-! ### The step -/

variable {t : State}

/-- A write of CMD keeps the invariant, by the cases of the accept rule (30_encoding R81). -/
theorem issueCommand_inv {w : Word} (h : Inv Config.this s) (ht : issueCommand w s = .next t) : Inv Config.this t := by
  unfold issueCommand at ht
  split at ht
  · cases ht
    exact h
  · next hf =>
    rw [Bool.not_eq_true] at hf
    split at ht
    · cases ht
      exact raiseDiscard_inv h
    · split at ht
      · exact exec_inv h hf ht
      · cases ht
        exact complete_inv h .rfl (.inl rfl) fun hc => nomatch hc

/-- Every host transaction keeps the invariant (20_memory R67). -/
theorem transact_inv {x : Txn} (h : Inv Config.this s) (ht : transact x s = .next t) : Inv Config.this t := by
  cases x with
  | regRead number => cases ht; exact h.setEnv _
  | regWrite number bits =>
    simp only [transact] at ht
    split at ht
    · exact issueCommand_inv h ht
    · cases ht; exact regWrite_inv h number bits
  | songRead addr => cases ht; exact h.setEnv _
  | songWrite addr bits => cases ht; exact songWrite_inv h addr bits
  | reset => cases ht; exact (reset_inv _).setEnv _

theorem step_inv (h : Inv Config.this s) (ht : step s = .next t) : Inv Config.this t := by
  cases hq : s.env.host with
  | nil =>
    rw [step, hostStep, hq] at ht
    cases ht
    exact h
  | cons x rest =>
    rw [step_of_host hq] at ht
    exact transact_inv (h.setEnv _) ht

/-- Settles O60: by cases on the host's transaction; a command keeps the invariant because its body keeps what the
invariant asks of the buffers (`bodyOf_sound`) and completion keeps the rest (`complete_inv`). -/
theorem everyStepKeepsTheInvariant : Obligations.EveryStepKeepsTheInvariant := fun _ _ => step_inv

end Sys2Proof.Machine

/-! SUPPORT. The register port and what the host's transactions leave alone: the step by kind of transaction, what a write of
STATUS does to each bit, what each register number reads, and which state no transaction but CMD and reset reaches. -/

namespace Sys2Proof.Machine

variable {s t : State} {number : Nat} {bits : BitVec 64} {rest : List Txn}

/-! ### The step by kind of transaction -/

/-- The step of a write of any register but CMD. -/
theorem step_regWrite (h : s.env.host = .regWrite number bits :: rest) (hn : number ≠ 0) :
    step s = .next (regWrite Config.this (s.setEnv { s.env with host := rest }) number bits) := by
  rw [step_of_host h, transact, if_neg hn]

/-- While FATAL is set a write of CMD is ignored (30_encoding R81 case 1). -/
theorem issueCommand_of_fatal (w : Word) (hf : s.fatal = true) : issueCommand w s = .next s := if_pos hf

theorem step_command_of_fatal (h : s.env.host = .regWrite 0 bits :: rest) (hf : s.fatal = true) :
    step s = .next (s.setEnv { s.env with host := rest }) := by
  rw [step_of_host h, transact, if_pos rfl]
  exact issueCommand_of_fatal _ hf

/-- What a register holds does not depend on the host's queue. -/
theorem regRead_setHost (c : Config) (s : State) (rest : List Txn) (number : Nat) :
    regRead c (s.setEnv { s.env with host := rest }) number = regRead c s number := rfl

/-- The step of a register read hands over what the register holds and has no other effect. -/
theorem step_regRead (h : s.env.host = .regRead number :: rest) :
    step s = .next { s with
      env := { s.env with host := rest, reads := regRead Config.this s number :: s.env.reads } } := by
  rw [step_of_host h, transact, regRead_setHost]
  rfl

/-- The step of a reset. -/
theorem step_reset (h : s.env.host = .reset :: rest) :
    step s = .next (resetEvent (s.setEnv { s.env with host := rest })) := step_of_host h

/-- Every write of CMD has a next state, by the cases of the accept rule (30_encoding R81). -/
theorem issueCommand_next (w : Word) (s : State) : ∃ t, issueCommand w s = .next t := by
  unfold issueCommand
  split
  · exact ⟨_, rfl⟩
  · split
    · exact ⟨_, rfl⟩
    · split
      · exact ⟨_, exec_eq _ _⟩
      · exact ⟨_, rfl⟩

/-- Every host transaction has a next state. -/
theorem transact_next (x : Txn) (s : State) : ∃ t, transact x s = .next t := by
  cases x with
  | regRead number => exact ⟨_, rfl⟩
  | regWrite number bits =>
    by_cases hn : number = 0
    · rw [transact, if_pos hn]
      exact issueCommand_next _ _
    · exact ⟨_, if_neg hn⟩
  | songRead addr => exact ⟨_, rfl⟩
  | songWrite addr bits => exact ⟨_, rfl⟩
  | reset => exact ⟨_, rfl⟩

/-! ### Writes of registers -/

/-- A bit of STATUS after a write: cleared where it is a W1C bit written 1, and kept elsewhere (10_state R25). -/
theorem getLsbD_clearW1C (status written : Word) (k : Nat) :
    (clearW1C status written).getLsbD k = (status.getLsbD k && !(written.getLsbD k && w1cBits.getLsbD k)) := by
  by_cases hk : k < 32
  · simp [clearW1C, hk]
  · simp [clearW1C, BitVec.getLsbD_of_ge _ k (not_lt.1 hk)]

/-- No bit of STATUS from 4 on is W1C (10_state R25). -/
theorem getLsbD_w1cBits_of_ge {k : Nat} (hk : 4 ≤ k) : w1cBits.getLsbD k = false :=
  Nat.testBit_lt_two_pow (lt_of_lt_of_le (by decide : w1cBits.toNat < 2 ^ 4) (Nat.pow_le_pow_right (by decide) hk))

/-- The write of STATUS does not touch FATAL (10_state R25). -/
theorem writeStatus_fatal (s : State) (written : Word) : (writeStatus s written).fatal = s.fatal := by
  rw [writeStatus, State.setStatus_fatal, getLsbD_clearW1C]
  simp [w1cBits, State.fatal]

/-- A write of a number that is neither STATUS nor an RW register has no effect (10_state R22). -/
theorem regWrite_of_not_writable (c : Config) (s : State) (bits : BitVec 64)
    (h : ¬ number ∈ [0x00, 0x01, 0x04, 0x05, 0x06, 0x07, 0x08, 0x0D, 0x0E, 0x10, 0x11, 0x13, 0x15]) :
    regWrite c s number bits = s := by
  unfold regWrite
  split
  case h_13 => rfl
  all_goals exact absurd (by decide) h

/-! ### Reads of registers -/

/-- CMD and the unassigned numbers read 0 (10_state R22). -/
theorem regRead_of_unassigned (c : Config) (s : State) (h : number = 0x00 ∨ number = 0x0F ∨ 0x19 ≤ number) :
    regRead c s number = .word 0 := by
  unfold regRead
  split
  case h_24 => rfl
  all_goals exact absurd h (by decide)

/-- OUT_LEN saturates (10_state R36). -/
theorem outLenWord_toNat (out : List Byte) : (outLenWord out).toNat = min out.length (2 ^ 32 - 1) := by
  rw [outLenWord, BitVec.toNat_ofNat]
  omega

/-- A peek below the length is the element there (10_state R40). -/
theorem peekFl_of_lt {buffer : List Fl} {idx : Word} (h : idx.toNat < buffer.length) :
    peekFl buffer idx = buffer[idx.toNat] := (List.getElem_eq_getD _).symm

/-- A peek from the length on is zero (10_state R40). -/
theorem peekFl_of_le {buffer : List Fl} {idx : Word} (h : buffer.length ≤ idx.toNat) : peekFl buffer idx = Fl.zero :=
  List.getD_eq_default _ _ h

/-- A peek of OUT below the cursor is the byte there, zero-extended (10_state R40). -/
theorem peekOut_toNat_of_lt {out : List Byte} {idx : Word} (h : idx.toNat < out.length) :
    (peekOut out idx).toNat = out[idx.toNat].toNat := by
  rw [peekOut, ← List.getElem_eq_getD (h := h), BitVec.toNat_setWidth_of_le (by decide)]

/-- A peek of OUT from the cursor on is zero (10_state R40). -/
theorem peekOut_of_le {out : List Byte} {idx : Word} (h : out.length ≤ idx.toNat) : peekOut out idx = 0 := by
  rw [peekOut, List.getD_eq_default _ _ h]
  rfl

/-! ### What no host transaction but a CMD write and reset reaches -/

/-- t keeps what s holds in the state that commands write and the host does not (10_state R21, 20_memory R65). -/
structure KeepsOutputs (s t : State) : Prop where
  fatal : t.fatal = s.fatal
  result : t.result = s.result
  diag : t.diag = s.diag
  totdur : t.totdur = s.totdur
  oscOut : t.oscOut = s.oscOut
  qntOut : t.qntOut = s.qntOut
  acc : t.acc = s.acc
  loc : t.loc = s.loc
  locNote : t.locNote = s.locNote
  locTrack : t.locTrack = s.locTrack
  out : t.out = s.out
  sinkLog : t.env.sinkLog = s.env.sinkLog

/-- Taking a transaction off the host's queue keeps the outputs. -/
theorem KeepsOutputs.setHost (s : State) (rest : List Txn) :
    KeepsOutputs s (s.setEnv { s.env with host := rest }) := by constructor <;> rfl

theorem deliver_keepsOutputs (s : State) (v : PortVal) : KeepsOutputs s (deliver s v) := by constructor <;> rfl

theorem writeStatus_keepsOutputs (s : State) (written : Word) : KeepsOutputs s (writeStatus s written) := by
  constructor
  case fatal => exact writeStatus_fatal s written
  all_goals rfl

theorem regWrite_keepsOutputs (c : Config) (s : State) (number : Nat) (bits : BitVec 64) :
    KeepsOutputs s (regWrite c s number bits) := by
  unfold regWrite
  split
  case h_1 => exact writeStatus_keepsOutputs s _
  all_goals constructor <;> rfl

/-- A song write changes nothing but the song store (20_memory R62). -/
theorem songWrite_eq_setSong (c : Config) (s : State) (addr : BitVec 20) (bits : BitVec 64) :
    ∃ g, songWrite c s addr bits = { s with song := g } := by
  unfold songWrite
  split <;> split <;> exact ⟨_, rfl⟩

theorem songWrite_keepsOutputs (c : Config) (s : State) (addr : BitVec 20) (bits : BitVec 64) :
    KeepsOutputs s (songWrite c s addr bits) := by
  obtain ⟨g, hg⟩ := songWrite_eq_setSong c s addr bits
  rw [hg]
  constructor <;> rfl

theorem transact_keepsOutputs {x : Txn} (hreset : x ≠ .reset) (hcmd : ∀ bits, x ≠ .regWrite 0 bits)
    (ht : transact x s = .next t) : KeepsOutputs s t := by
  cases x with
  | regRead number => cases ht; exact deliver_keepsOutputs s _
  | regWrite number bits =>
    have hn : number ≠ 0 := fun hn => hcmd bits (hn ▸ rfl)
    rw [transact, if_neg hn] at ht
    cases ht
    exact regWrite_keepsOutputs _ s number bits
  | songRead addr => cases ht; exact deliver_keepsOutputs s _
  | songWrite addr bits => cases ht; exact songWrite_keepsOutputs _ s addr bits
  | reset => exact absurd rfl hreset

/-- A step with any transaction but a CMD write and reset keeps the outputs. -/
theorem step_keepsOutputs {x : Txn} (h : s.env.host = x :: rest) (hreset : x ≠ .reset)
    (hcmd : ∀ bits, x ≠ .regWrite 0 bits) (ht : step s = .next t) : KeepsOutputs s t := by
  rw [step_of_host h] at ht
  -- Each output of the state after taking x off the queue is that of s by definition.
  exact { transact_keepsOutputs hreset hcmd ht with }

/-- While FATAL is set every transaction but reset keeps the outputs: a CMD write is ignored, and no other reaches them. -/
theorem step_keepsOutputs_of_fatal {x : Txn} (h : s.env.host = x :: rest) (hreset : x ≠ .reset) (hf : s.fatal = true)
    (ht : step s = .next t) : KeepsOutputs s t := by
  by_cases hcmd : ∃ bits, x = .regWrite 0 bits
  · obtain ⟨bits, rfl⟩ := hcmd
    rw [step_command_of_fatal h hf] at ht
    cases ht
    exact .setHost s rest
  · exact step_keepsOutputs h hreset (not_exists.1 hcmd) ht

/-- No command writes an input of the host, however it ends (20_memory R65). -/
theorem exec_keepsInputs {i : Instr} (ht : exec i s = .next t) : KeepsInputs s t := by
  rw [exec_eq] at ht
  cases ht
  exact (bodyOf_inputs _ i s).1.trans (complete_keepsInputs _ _)

/-! ### The obligations -/

/-- Settles O12: the step is the write of STATUS, and `getLsbD_clearW1C` gives each bit of it. -/
theorem statusWriteClearsOnlyItsW1CBits : Obligations.StatusWriteClearsOnlyItsW1CBits := by
  intro s bits rest h
  have hbit := getLsbD_clearW1C s.status (bits.setWidth 32)
  refine ⟨clearW1C s.status (bits.setWidth 32), step_regWrite h (by decide), ?_, ?_, ?_, ?_, fun k hk => ?_⟩
  · rw [hbit]; simp [w1cBits]
  · rw [hbit]; simp [w1cBits]
  · rw [hbit]; simp [w1cBits]
  · rw [hbit]; simp [w1cBits]
  · rw [hbit, getLsbD_w1cBits_of_ge hk]; simp

/-- Settles O14: for each of the eleven numbers the step is the write of that register. -/
theorem writesOfRWRegistersStoreTheValue : Obligations.WritesOfRWRegistersStoreTheValue := by
  rintro s bits rest _ rfl
  refine ⟨?_, ?_, ?_, ?_, ?_, ?_, ?_, ?_, ?_, ?_, ?_⟩
  all_goals exact fun h => step_regWrite h (by decide)

/-- Settles O15: the step hands over `regRead`, whose arm for each number is that register. -/
theorem registerReadsHandOverTheValue : Obligations.RegisterReadsHandOverTheValue := by
  intro s number rest h
  refine ⟨regRead Config.this s number, step_regRead h, ?_, ?_, ?_, ?_, ?_, ?_, ?_, ?_, ?_, ?_, ?_, ?outLen,
    ?_, ?_, ?_, ?_, ?_, ?_, ?_, ?_, regRead_of_unassigned _ s⟩
  case outLen =>
    rintro rfl
    exact ⟨_, rfl, outLenWord_toNat s.out⟩
  all_goals
    rintro rfl
    rfl

/-- Settles O16: while FATAL is 0 the PEEK registers read `peekFl` and `peekOut` of their buffers. -/
theorem peekRegistersShowTheBuffers : Obligations.PeekRegistersShowTheBuffers := by
  intro s number rest h hf
  refine ⟨regRead Config.this s number, step_regRead h, ?_, ?_, ?_⟩
  · rintro rfl
    exact ⟨peekFl s.acc s.bufIdx, by simp [regRead, hf], peekFl_of_lt, peekFl_of_le⟩
  · rintro rfl
    exact ⟨peekFl s.loc s.bufIdx, by simp [regRead, hf], peekFl_of_lt, peekFl_of_le⟩
  · rintro rfl
    exact ⟨peekOut s.out s.bufIdx, by simp [regRead, hf], peekOut_toNat_of_lt, peekOut_of_le⟩

/-- Settles O20: a CMD write is ignored (`step_command_of_fatal`), and the outputs are kept
(`step_keepsOutputs_of_fatal`). -/
theorem onlyResetClearsFatal : Obligations.OnlyResetClearsFatal := by
  intro s t x rest h hreset hf ht
  have hk := step_keepsOutputs_of_fatal h hreset hf ht
  refine ⟨?_, hk.fatal.trans hf, hk.acc, hk.loc, hk.locNote, hk.locTrack, hk.out, hk.totdur, hk.oscOut, hk.qntOut,
    hk.result, hk.diag, hk.sinkLog⟩
  rintro ⟨bits, rfl⟩
  rw [step_command_of_fatal h hf] at ht
  cases ht
  rfl

/-- Settles O56: the commands by `exec_keepsInputs`, the host by `step_keepsOutputs`. -/
theorem blockAndHostKeepToTheirSides : Obligations.BlockAndHostKeepToTheirSides := by
  refine ⟨fun _ _ _ => exec_keepsInputs, fun s t x rest h hreset hcmd ht => ?_⟩
  have hk := step_keepsOutputs h hreset hcmd ht
  exact ⟨hk.acc, hk.loc, hk.out⟩

/-- Settles O10: the idle step keeps the state, and every transaction has a next state. -/
theorem everyStepHasANextState : Obligations.EveryStepHasANextState := by
  intro s
  cases hq : s.env.host with
  | nil => exact ⟨s, by rw [step, hostStep, hq]⟩
  | cons x rest =>
    rw [step_of_host hq]
    exact transact_next x _

/-- Settles O13: such a number is not CMD, so the step is a register write, which ignores it. -/
theorem writesOfReadOnlyNumbersAreIgnored : Obligations.WritesOfReadOnlyNumbersAreIgnored := by
  intro s number bits rest h hn
  have h0 : number ≠ 0 := by
    rintro rfl
    exact hn (by decide)
  rw [step_regWrite h h0, regWrite_of_not_writable _ _ _ hn]
  rfl

/-- Settles O19: the step is `resetEvent`, which gives `State.reset` but for the surroundings. -/
theorem resetLeavesTheResetValues : Obligations.ResetLeavesTheResetValues := by
  intro s rest h
  refine ⟨_, step_reset h, ?_⟩
  simp [resetEvent, State.setEnv, State.reset, Fl.zero, SeqPos.idle]

/-- Settles O59. -/
theorem invariantHoldsAtReset : Obligations.InvariantHoldsAtReset := reset_inv _

end Sys2Proof.Machine

/-! SUPPORT. The song port: what a write through it changes and what a read hands over, by the entry the address names
(20_memory R62). -/

namespace Sys2Proof.Machine

variable {s : State} {bits : BitVec 64} {a : BitVec 20} {rest : List Txn} {n f j : Nat}

/-! ### Which entry an address names -/

theorem addrNote_of_address (hn : n < Config.this.maxNotes) (hf : f < 8) :
    addrNote Config.this (BitVec.ofNat 20 (0x80000 + 8 * n + f)) = some n := by
  have := maxNotes_le
  obtain ⟨-, hidx, -⟩ := note_address (n := n) (f := f) (by omega) hf
  simp only [addrNote, hidx, if_pos hn]

theorem addrTrack_of_address (hj : j < Config.this.maxTracks) :
    addrTrack Config.this (BitVec.ofNat 20 j) = some j := by
  have := maxTracks_le
  obtain ⟨-, hidx, hmid⟩ := trk_address (j := j) (by omega)
  simp only [addrTrack, hidx, hmid, hj, and_self, if_true]

/-- The address names no entry of either table. -/
def NamesNoEntry (a : BitVec 20) : Prop :=
  (addrIsNote a = true ∧ addrNote Config.this a = none) ∨ (addrIsNote a = false ∧ addrTrack Config.this a = none)

/-- An address names a field code of a note, a track, or no entry of either table. -/
theorem address_cases (a : BitVec 20) :
    (∃ n f, n < Config.this.maxNotes ∧ f < 8 ∧ a = BitVec.ofNat 20 (0x80000 + 8 * n + f)) ∨
    (∃ j, j < Config.this.maxTracks ∧ a = BitVec.ofNat 20 j) ∨ NamesNoEntry a := by
  cases ha : addrIsNote a with
  | true =>
    by_cases hn : (a.extractLsb' 3 16).toNat < Config.this.maxNotes
    · exact .inl ⟨_, addrField a, hn, (a.extractLsb' 0 3).isLt, address_of_note a ha⟩
    · exact .inr (.inr (.inl ⟨ha, if_neg hn⟩))
  | false =>
    by_cases hj : a.extractLsb' 16 3 = 0 ∧ (a.extractLsb' 0 16).toNat < Config.this.maxTracks
    · exact .inr (.inl ⟨_, hj.2, address_of_trk a ha hj.1⟩)
    · exact .inr (.inr (.inr ⟨ha, if_neg hj⟩))

/-! ### Writes -/

/-- The step of a song write changes the song store alone. -/
theorem step_songWrite (h : s.env.host = .songWrite a bits :: rest) :
    step s = .next { s with song := (songWrite Config.this s a bits).song, env := { s.env with host := rest } } := by
  rw [step_of_host h, transact]
  unfold songWrite
  split <;> split <;> rfl

theorem songWrite_note (hn : n < Config.this.maxNotes) (hf : f < 8) :
    (songWrite Config.this s (BitVec.ofNat 20 (0x80000 + 8 * n + f)) bits).song =
      writeField Config.this s.song n f bits := by
  have := maxNotes_le
  obtain ⟨hnote, -, hfield⟩ := note_address (n := n) (f := f) (by omega) hf
  rw [songWrite, if_pos hnote, addrNote_of_address hn hf, hfield]

theorem songWrite_trk (hj : j < Config.this.maxTracks) :
    (songWrite Config.this s (BitVec.ofNat 20 j) bits).song =
      { s.song with trk := tableSet s.song.trk j (bits.setWidth 2) } := by
  have := maxTracks_le
  obtain ⟨hnote, -, -⟩ := trk_address (j := j) (by omega)
  rw [songWrite, hnote, if_neg Bool.false_ne_true, addrTrack_of_address hj]

/-- A write at an address that names no entry has no effect. -/
theorem songWrite_outside (h : NamesNoEntry a) : songWrite Config.this s a bits = s := by
  rcases h with ⟨hnote, hentry⟩ | ⟨hnote, hentry⟩ <;> simp [songWrite, hnote, hentry]

/-- The field codes from 5 on name no field. -/
theorem writeField_of_ge (c : Config) (g : SongStore) (n : Nat) (bits : BitVec 64) (hf : 5 ≤ f) :
    writeField c g n f bits = g := by
  obtain ⟨k, rfl⟩ := Nat.exists_eq_add_of_le' hf
  rfl

/-! What a write of a field of a note makes of each table. -/

section Tables

variable (c : Config) (g : SongStore) (n f : Nat) (bits : BitVec 64)

@[simp] theorem writeField_trk : (writeField c g n f bits).trk = g.trk := by
  unfold writeField; split <;> rfl

@[simp] theorem writeField_track :
    (writeField c g n f bits).track = if f = 0 then tableSet g.track n (bits.setWidth 16) else g.track := by
  unfold writeField; split <;> simp_all

@[simp] theorem writeField_freq :
    (writeField c g n f bits).freq = if f = 1 then tableSet g.freq n (ofBits c.floatFmt bits) else g.freq := by
  unfold writeField; split <;> simp_all

@[simp] theorem writeField_vol :
    (writeField c g n f bits).vol = if f = 2 then tableSet g.vol n (ofBits c.floatFmt bits) else g.vol := by
  unfold writeField; split <;> simp_all

@[simp] theorem writeField_start :
    (writeField c g n f bits).start = if f = 3 then tableSet g.start n (ofBits c.floatFmt bits) else g.start := by
  unfold writeField; split <;> simp_all

@[simp] theorem writeField_dur :
    (writeField c g n f bits).dur = if f = 4 then tableSet g.dur n (ofBits c.floatFmt bits) else g.dur := by
  unfold writeField; split <;> simp_all

end Tables

/-- The entry written, after a write that is made only where p holds. -/
theorem tableGet_ite_tableSet_same {α : Type} (p : Prop) [Decidable p] (t : Table α) (k : Nat) (v : α) :
    tableGet (if p then tableSet t k v else t) k = if p then some v else tableGet t k := by
  split
  · exact tableGet_tableSet_same t k v
  · rfl

/-- Every other entry, after a write that is made only where p holds. -/
theorem tableGet_ite_tableSet_other {α : Type} (p : Prop) [Decidable p] (t : Table α) {k m : Nat} (v : α)
    (h : m ≠ k) : tableGet (if p then tableSet t k v else t) m = tableGet t m := by
  split
  · exact tableGet_tableSet_other t v h
  · rfl

/-- Settles O17: by the three kinds of address of `address_cases`. -/
theorem songWritesReachOneEntry : Obligations.SongWritesReachOneEntry := by
  intro s addr bits rest h
  refine ⟨_, step_songWrite h, ?_, ?_, ?_⟩
  · rintro n f hn hf rfl
    rw [songWrite_note hn hf]
    simp only [writeField_trk, writeField_track, writeField_freq, writeField_vol, writeField_start, writeField_dur,
      tableGet_ite_tableSet_same, true_and]
    intro m hm
    simp only [tableGet_ite_tableSet_other _ _ _ hm, and_self]
  · rintro j hj rfl
    rw [songWrite_trk hj]
    exact ⟨tableGet_tableSet_same _ _ _, fun k hk => tableGet_tableSet_other _ _ hk, rfl⟩
  · intro hnotes htracks
    rcases address_cases addr with ⟨n, f, hn, hf, rfl⟩ | ⟨j, hj, rfl⟩ | hout
    · rw [songWrite_note hn hf]
      exact writeField_of_ge _ _ _ _ (not_lt.1 fun hf5 => hnotes n f hn hf5 rfl)
    · exact absurd rfl (htracks j hj)
    · rw [songWrite_outside hout]

/-! ### Reads -/

variable {x : Fl} {k : Nat}

/-- The step of a song read hands over what the address names and has no other effect. -/
theorem step_songRead (h : s.env.host = .songRead a :: rest) :
    step s = .next { s with
      env := { s.env with host := rest, reads := songRead Config.this s a :: s.env.reads } } := by
  rw [step_of_host h]
  rfl

/-- A read at the address k of a field code of a note. -/
theorem songRead_note (hn : n < Config.this.maxNotes) (hf : f < 8) (hk : k = 0x80000 + 8 * n + f) :
    songRead Config.this s (BitVec.ofNat 20 k) = noteField (noteAt Config.this s n) f := by
  have := maxNotes_le
  subst hk
  obtain ⟨hnote, -, hfield⟩ := note_address (n := n) (f := f) (by omega) hf
  rw [songRead, if_pos hnote, addrNote_of_address hn hf, hfield]

theorem songRead_trk (hj : j < Config.this.maxTracks) :
    songRead Config.this s (BitVec.ofNat 20 j) = .word ((trkAt s j).setWidth 32) := by
  have := maxTracks_le
  obtain ⟨hnote, -, -⟩ := trk_address (j := j) (by omega)
  rw [songRead, hnote, if_neg Bool.false_ne_true, addrTrack_of_address hj]

/-- Every field of the note of zeros reads 0, and so do the field codes from 5 on of any note. -/
theorem noteField_zero {y : Note} (h : y = zeroNote ∨ 5 ≤ k) :
    noteField y k = .word 0 ∨ noteField y k = .float Fl.zero := by
  rcases h with rfl | hk
  · unfold noteField
    split <;> simp [zeroNote]
  · obtain ⟨i, rfl⟩ := Nat.exists_eq_add_of_le' hk
    exact .inl rfl

/-- A read at an address that names no entry gives 0. -/
theorem songRead_outside (h : NamesNoEntry a) :
    songRead Config.this s a = .word 0 ∨ songRead Config.this s a = .float Fl.zero := by
  rcases h with ⟨hnote, hentry⟩ | ⟨hnote, hentry⟩ <;> simp only [songRead, hnote, hentry]
  · exact noteField_zero (.inl rfl)
  · exact .inl rfl

/-- A field of F the host has written reads as written. -/
theorem songRead_of_written {t : Table Fl} (hn : n < Config.this.maxNotes) (hf : f < 8) (hk : k = 0x80000 + 8 * n + f)
    (ht : noteField (noteAt Config.this s n) f = .float (fieldAt Config.this s t n f)) (hx : tableGet t n = some x) :
    songRead Config.this s (BitVec.ofNat 20 k) = .float x := by
  rw [songRead_note hn hf hk, ht, fieldAt, hx, Option.getD_some]

/-- Settles O18: by the three kinds of address of `address_cases`. -/
theorem songReadsHandOverTheEntry : Obligations.SongReadsHandOverTheEntry := by
  intro s addr rest h
  refine ⟨_, step_songRead h, fun n hn => ⟨?_, ?_, ?_, ?_, ?_⟩, ?_, ?_⟩
  · rintro w rfl hw
    rw [songRead_note (f := 0) hn (by decide) (by omega)]
    simp [noteField, noteAt, hw]
  · rintro x rfl hx
    exact songRead_of_written (f := 1) hn (by decide) (by omega) rfl hx
  · rintro x rfl hx
    exact songRead_of_written (f := 2) hn (by decide) (by omega) rfl hx
  · rintro x rfl hx
    exact songRead_of_written (f := 3) hn (by decide) (by omega) rfl hx
  · rintro x rfl hx
    exact songRead_of_written (f := 4) hn (by decide) (by omega) rfl hx
  · rintro j w hj rfl hw
    rw [songRead_trk hj, trkAt, hw, Option.getD_some]
  · intro hnotes htracks
    rcases address_cases addr with ⟨n, f, hn, hf, rfl⟩ | ⟨j, hj, rfl⟩ | hout
    · rw [songRead_note hn hf rfl]
      exact noteField_zero (.inr (not_lt.1 fun hf5 => hnotes n f hn hf5 rfl))
    · exact absurd rfl (htracks j hj)
    · exact songRead_outside hout

end Sys2Proof.Machine

/-! SUPPORT. MIX.ALL on the song of another state that holds the same one, and the phases of RENDER before the flush
(41_mixer R133, 44_render R190). -/

namespace Sys2Proof.Machine

variable {s0 s : State}

/-! ### MIX.ALL -/

/-- The notes of the song of s0 that lose samples at the end of a buffer of `accLen` elements, ascending. -/
def clampedNotes (s0 : State) (accLen : Nat) : List Nat := (songNotes s0).filter (clampsAt s0 accLen)

/-- s after every note of the song of s0 has been added into ACC (41_mixer R133). -/
def allMixed (s0 s : State) : State :=
  { s with
    acc := (songNotes s0).foldl (withNote s0) s.acc
    loc := if s0.nnotes = 0 then s.loc else samplesOf s0 (s0.nnotes.toNat - 1)
    locNote := if s0.nnotes = 0 then s.locNote else BitVec.ofNat 16 (s0.nnotes.toNat - 1)
    locTrack := if s0.nnotes = 0 then s.locTrack else (noteAt Config.this s0 (s0.nnotes.toNat - 1)).track
    status := if clampedNotes s0 s.acc.length = [] then s.status else s.status ||| 0x4
    diag := ((clampedNotes s0 s.acc.length).getLast?.map
      (fun n => diagOf (noteAt Config.this s0 n).track n)).getD s.diag
    pc := ⟨.mix, 0, 0⟩ }

theorem placed_songNotes (s0 s : State) : placed s0 (s.enter .mix) (songNotes s0) = allMixed s0 s := by
  unfold placed allMixed
  rw [songNotes_getLast?]
  by_cases h : s0.nnotes = 0
  · simp only [if_pos h, Option.map_none, Option.getD_none, State.enter_pc, ite_self]
    rfl
  · simp only [if_neg h, Option.map_some, Option.getD_some, State.enter_pc, ite_self]
    rfl

/-- What MIX.ALL leaves in a state that holds the song of s0, each note of which comes to its end. -/
theorem mixAllOp_sameSong (h : SameSong s0 s) (hc : CountsOk s0) (hr : s0.srate ≠ 0)
    (hn : ∀ n, n < s0.nnotes.toNat → GenOk s0 n ∧ finite (startProduct s0 n) = true) :
    mixAllOp Config.this s = ⟨.ok, decide (clampedNotes s0 s.acc.length ≠ []), allMixed s0 s⟩ := by
  have hnotes : songNotes s = songNotes s0 := by rw [songNotes, h.nnotes, songNotes]
  rw [mixAllOp, checkCounts_ok ((countsOk_congr h).2 hc), bind_ok, checkRate_ok (h.srate ▸ hr), orRaise_ok, hnotes,
    mixNotes_ok s0 (h.trans (enter_sameSong s _)) (fun n hm => hn n (by simpa [songNotes] using hm)), placed_songNotes]
  rfl

/-- Settles O38: MIX.ALL ends OK (`mixAllOp_sameSong`), and completion adds only what `State.done` says. -/
theorem mixAllAddsEveryNote : Obligations.MixAllAddsEveryNote := by
  rintro s _ hc hr hn rfl
  rw [exec_eq, bodyOf, mixAllOp_sameSong (.refl s) hc hr hn, complete_ok]
  rfl

/-! ### RENDER -/

/-- The latest end of the song's notes: TOTDUR of 41_mixer R122. -/
def latestEnd (s : State) : Fl := (songNotes s).foldl (fun m n => fmax m (endTime s n)) Fl.zero

/-- `fmul(TOTDUR, R)` for the song's own TOTDUR (41_mixer R123). -/
def bufferProduct (s : State) : Fl := fmul Config.this.floatFmt (latestEnd s) (toF Config.this.floatFmt s.srate.toNat)

/-- The length RENDER allocates for ACC (41_mixer R123). -/
def mixLen (s : State) : Nat := toNat (fceil (bufferProduct s))

/-- The sum of all notes in a buffer of that length (41_mixer R133). -/
def mixOf (s : State) : List Fl := (songNotes s).foldl (withNote s) (List.replicate (mixLen s) Fl.zero)

/-- The container of that sum (43_serializer R163). -/
def mixBytes (s : State) : List Byte := headerOf s (countOf s) (mixLen s) ++ (mixOf s).flatMap (frameOf (countOf s))

/-- The song, the buffer and the container meet every check of the phases of RENDER (44_render R190). -/
structure Renderable (s : State) : Prop where
  counts : CountsOk s
  rate : s.srate ≠ 0
  fmt : s.fmt = 0
  chmode : s.chmode.toNat < 2
  notes : ∀ n, n < s.nnotes.toNat → GenOk s n ∧ finite (endTime s n) = true ∧ finite (startProduct s n) = true
  bufferFinite : finite (bufferProduct s) = true
  bufferFits : mixLen s ≤ Config.this.accMax
  numbers : ∀ x ∈ mixOf s, isnan x = false
  byteRate : s.srate.toNat * (countOf s * 2) < 2 ^ 32
  chunkSize : 36 + mixLen s * countOf s * 2 < 2 ^ 32
  outFits : 44 + mixLen s * countOf s * 2 ≤ Config.this.outMax

/-- s with TOTDUR and the buffer of its song, as MIX.DUR and MIX.ALLOC leave them. -/
def allocated (s : State) : State :=
  { s with totdur := latestEnd s, acc := List.replicate (mixLen s) Fl.zero, pc := ⟨.alloc, 0, 0⟩ }

/-- s as the phases of RENDER before the flush leave it. -/
def built (s : State) : State :=
  { allMixed s (allocated s) with out := mixBytes s, pc := ⟨.build, 0, 0⟩ }

theorem mixOf_length (s : State) : (mixOf s).length = mixLen s := by
  rw [mixOf, foldl_withNote_length, List.length_replicate]

theorem allocated_acc_length (s : State) : (allocated s).acc.length = mixLen s := List.length_replicate

theorem mixDurOp_renderable (h : Renderable s) :
    mixDurOp Config.this s = endOk ((s.enter .dur).setTotdur (latestEnd s)) := by
  rw [mixDurOp, totalDuration_ok h.counts fun n hn => ⟨(h.notes n hn).1.valid, (h.notes n hn).2.1⟩, orRaise_ok]
  rfl

theorem mixAllocOp_renderable (h : Renderable s) :
    mixAllocOp Config.this ((s.enter .dur).setTotdur (latestEnd s)) = endOk (allocated s) := by
  rw [mixAllocOp, bufferLength_ok (s := (s.enter .dur).setTotdur (latestEnd s)) h.rate rfl h.bufferFinite h.bufferFits,
    orRaise_ok]
  rfl

theorem serBuildOp_renderable (h : Renderable s) :
    serBuildOp Config.this (allMixed s (allocated s)) = endOk (built s) := by
  have hlen : (allMixed s (allocated s)).acc.length = mixLen s := mixOf_length s
  have hchecks : buildChecks Config.this (allMixed s (allocated s)) = .ok () :=
    buildChecks_eq_ok.2 ⟨h.fmt, h.chmode, h.rate, h.byteRate, by rw [hlen]; exact h.chunkSize,
      by rw [hlen]; exact h.outFits⟩
  rw [serBuildOp_ok hchecks h.numbers, containerOf, hlen]
  rfl

/-- The phases of RENDER before the flush where each comes to its end. -/
theorem frontOp_renderable (h : Renderable s) :
    frontOp Config.this s = ⟨.ok, decide (clampedNotes s (mixLen s) ≠ []), built s⟩ := by
  have hsong : SameSong s (allocated s) := ⟨rfl, rfl, rfl, rfl, rfl⟩
  rw [frontOp, mixDurOp_renderable h, andThen_endOk, mixAllocOp_renderable h, andThen_endOk,
    mixAllOp_sameSong hsong h.counts h.rate fun n hn => ⟨(h.notes n hn).1, (h.notes n hn).2.2⟩, andThen_mk_ok,
    serBuildOp_renderable h, allocated_acc_length]
  simp

/-- RENDER sends the container to the sink once, and the sink's answer is its result (44_render R190). -/
theorem renderOp_renderable (h : Renderable s) :
    renderOp Config.this s =
      ⟨if nextAnswer s then .ok else .io, decide (clampedNotes s (mixLen s) ≠ []), { built s with
        pc := ⟨.flush, 0, 0⟩
        env := { s.env with sinkAnswers := s.env.sinkAnswers.tail
                            sinkLog := s.env.sinkLog ++ [⟨mixBytes s, nextAnswer s⟩] } }⟩ := by
  rw [renderOp_eq, frontOp_renderable h, andThen_mk_ok, serFlushOp_eq, Bool.or_false]
  rfl

/-- RESULT of a RENDER that reached the sink: the answer in CODE, and in DV whether any of the notes l was clamped. -/
theorem resultWord_flush (answer : Bool) (l : List Nat) :
    resultWord (if answer then .ok else .io) (decide (l ≠ [])) =
      (if answer then 0x000 else 0x001) ||| (if l = [] then 0x000 else 0x100) := by
  cases answer <;> cases l <;> simp

/-- STATUS with CLAMPED where p fails, and RV. -/
theorem status_clamped_rv (p : Prop) [Decidable p] (v : Word) :
    (if p then v else v ||| 0x4) ||| 0x1 = if p then v ||| 0x1 else v ||| 0x5 := by
  split
  · rfl
  · rw [BitVec.or_assoc]
    rfl

/-- s after a RENDER that reached the sink. -/
def rendered (s : State) : State :=
  { built s with
    env := { s.env with sinkAnswers := s.env.sinkAnswers.tail
                        sinkLog := s.env.sinkLog ++ [⟨mixBytes s, nextAnswer s⟩] }
    pc := ⟨.idle, 0, 0⟩
    status := if clampedNotes s (mixLen s) = [] then s.status ||| 0x1 else s.status ||| 0x5
    diag := ((clampedNotes s (mixLen s)).getLast?.map (fun n => diagOf (noteAt Config.this s n).track n)).getD s.diag
    result := (if nextAnswer s then 0x000 else 0x001) ||| (if clampedNotes s (mixLen s) = [] then 0x000 else 0x100) }

theorem exec_render_renderable (h : Renderable s) : exec .render s = .next (rendered s) := by
  have hnf : isFatal (if nextAnswer s then .ok else .io) = false := by cases nextAnswer s <;> rfl
  rw [exec_eq, bodyOf, renderOp_renderable h, complete_not_fatal _ _ hnf, resultWord_flush]
  simp only [built, allMixed, allocated_acc_length, rendered]
  rw [← status_clamped_rv]
  rfl

/-- Settles O51: the premises are `Renderable s`, and `rendered s` is the state that `exec_render_renderable` gives. -/
theorem renderRunsTheWholePipeline : Obligations.RenderRunsTheWholePipeline := by
  rintro s _ _ _ _ _ _ _ hc hr hfmt hch hn rfl rfl hp rfl hlen rfl hnan hbr hcs hout rfl rfl rfl
  exact exec_render_renderable ⟨hc, hr, hfmt, hch, hn, hp, hlen, hnan, hbr, hcs, hout⟩

end Sys2Proof.Machine

/-! SUPPORT. The encoding and the accept rule: a word selects at most one row of the opcode map, so it decodes to a command
exactly when it is the word of that well-formed command (30_encoding R80 to R85); and what a write of CMD does in each case
of R81. -/

namespace Sys2Proof

variable {w : Word} {i : Instr}

/-! ### The rows of the opcode map (30_encoding R83) -/

theorem OpRow.selects_iff {r : OpRow} : r.selects w = true ↔ w &&& r.mask = r.bits := beq_iff_eq

/-- No word is under both rows: their matches differ in a bit of both masks. -/
def OpRow.Apart (r q : OpRow) : Prop := r.bits &&& q.mask ≠ q.bits &&& r.mask

theorem OpRow.Apart.not_selects {r q : OpRow} (h : r.Apart q) (hq : q.selects w = true) : r.selects w = false := by
  rw [← Bool.not_eq_true, OpRow.selects_iff]
  intro hr
  rw [OpRow.selects_iff] at hq
  exact h (by rw [← hr, ← hq, BitVec.and_assoc, BitVec.and_assoc, BitVec.and_comm r.mask])

/-- Among rows that are apart, the first one a word selects is the only one. -/
theorem find?_selects {l : List OpRow} {r : OpRow} (hl : l.Pairwise OpRow.Apart) (hr : r ∈ l)
    (hw : r.selects w = true) : l.find? (fun q => q.selects w) = some r := by
  induction l with
  | nil => cases hr
  | cons q l ih =>
    obtain ⟨hq, hl⟩ := List.pairwise_cons.1 hl
    rcases List.mem_cons.1 hr with rfl | hr
    · exact List.find?_cons_of_pos hw
    · rw [List.find?_cons_of_neg (by simp [(hq r hr).not_selects hw]), ih hl hr]

theorem opRows_apart : opRows.Pairwise OpRow.Apart := by
  unfold OpRow.Apart
  decide

/-- A word decodes to a command exactly when a row it selects builds that command. -/
theorem decode_eq_ok_iff_row : decode w = .ok i ↔ ∃ r ∈ opRows, w &&& r.mask = r.bits ∧ r.build (idxField w) = i := by
  unfold decode
  constructor
  · intro h
    split at h
    next r hr =>
      cases h
      exact ⟨r, List.mem_of_find?_eq_some hr, OpRow.selects_iff.1 (by simpa using List.find?_some hr), rfl⟩
    next => cases h
  · rintro ⟨r, hr, hw, rfl⟩
    rw [find?_selects opRows_apart hr (OpRow.selects_iff.2 hw)]

/-- The word of row k under its mask decodes to the row's command. -/
theorem decode_of_row (k : Fin 14) (h : w &&& (opRows.get k).mask = (opRows.get k).bits) :
    decode w = .ok ((opRows.get k).build (idxField w)) :=
  decode_eq_ok_iff_row.2 ⟨_, List.get_mem opRows k, h, rfl⟩

/-- A row is that of one command without an operand, under the full mask, or that of MIX.GEN or MIX.NOTE. -/
theorem opRows_shape : ∀ r ∈ opRows, (∃ i : Instr, i.wellFormed = true ∧ r = ⟨encode i, 0xFFFFFFFF, fun _ => i⟩) ∨
    r = ⟨encode (.mixGen 0), 0xFFFF0000, fun n => .mixGen n.toNat⟩ ∨
    r = ⟨encode (.mixNote 0), 0xFFFF0000, fun n => .mixNote n.toNat⟩ := by
  simp only [opRows, List.forall_mem_cons]
  exact ⟨.inl ⟨.oscSine, rfl, rfl⟩, .inl ⟨.oscSquare, rfl, rfl⟩, .inl ⟨.oscSaw, rfl, rfl⟩, .inl ⟨.mixDur, rfl, rfl⟩,
    .inl ⟨.mixAlloc, rfl, rfl⟩, .inr (.inl rfl), .inl ⟨.mixMergeAdd, rfl, rfl⟩, .inl ⟨.mixMergeOvr, rfl, rfl⟩,
    .inr (.inr rfl), .inl ⟨.mixAll, rfl, rfl⟩, .inl ⟨.qntS, rfl, rfl⟩, .inl ⟨.serBuild, rfl, rfl⟩,
    .inl ⟨.serFlush, rfl, rfl⟩, .inl ⟨.render, rfl, rfl⟩, fun _ h => nomatch h⟩

/-! ### A command and its word -/

/-- Any 16 bits are a note index (30_encoding R82). -/
theorem idxField_le (w : Word) : (idxField w).toNat ≤ 65535 := by
  have := (idxField w).isLt
  omega

/-- The note index of a word is its low 16 bits (30_encoding R80). -/
theorem idxField_toNat (w : Word) : (idxField w).toNat = w.toNat % 65536 := by
  simp [idxField]

/-- A word under a CI row is the row's match with the word's own note index in place. -/
theorem append_idxField {op : BitVec 8} (h : w &&& 0xFFFF0000 = op ++ (0 : BitVec 8) ++ (0 : Half)) :
    op ++ (0 : BitVec 8) ++ BitVec.ofNat 16 (idxField w).toNat = w := by
  rw [← append_of_fields w, and_mask_CI, append_eq_iff] at h
  obtain ⟨hop, hsub, -⟩ := h
  rw [BitVec.ofNat_toNat, BitVec.setWidth_eq, ← hop, ← hsub, append_of_fields]

/-- A well-formed command's word selects that command's row. -/
theorem decode_encode (h : i.wellFormed = true) : decode (encode i) = .ok i := by
  cases i with
  | mixGen n =>
    obtain ⟨-, -, -, hidx⟩ := Laws.EncodingFields.mixGen n h
    exact (decode_of_row 5 (and_mask_CI 0x22 0 (BitVec.ofNat 16 n))).trans
      (congrArg (fun n => Except.ok (Instr.mixGen n)) (hidx n (.inl rfl)))
  | mixNote n =>
    obtain ⟨-, -, -, hidx⟩ := Laws.EncodingFields.mixNote n h
    exact (decode_of_row 8 (and_mask_CI 0x24 0 (BitVec.ofNat 16 n))).trans
      (congrArg (fun n => Except.ok (Instr.mixNote n)) (hidx n (.inr rfl)))
  | _ => decide

/-- The row a word selects fixes every bit of it but the note index's, which the command carries (30_encoding R85). -/
theorem encode_of_decode (h : decode w = .ok i) : i.wellFormed = true ∧ encode i = w := by
  obtain ⟨r, hr, hw, rfl⟩ := decode_eq_ok_iff_row.1 h
  rcases opRows_shape r hr with ⟨i, hi, rfl⟩ | rfl | rfl
  · exact ⟨hi, hw.symm.trans (and_mask_all w)⟩
  · exact ⟨decide_eq_true (idxField_le w), append_idxField hw⟩
  · exact ⟨decide_eq_true (idxField_le w), append_idxField hw⟩

/-- Settles O1: `decode_encode`, where the word selects the command's row. -/
theorem decodeOfEncodeIsTheCommand : Obligations.DecodeOfEncodeIsTheCommand := fun _ => decode_encode

/-- Settles O2: `encode_of_decode`, from the shape of the row the word selects. -/
theorem encodeOfDecodeIsTheWord : Obligations.EncodeOfDecodeIsTheWord := fun _ _ => encode_of_decode

/-- Settles O5: each word is the word of its command, and `decode_encode` gives the command back. -/
theorem tableWordsDecode : Obligations.TableWordsDecode :=
  ⟨decode_encode (i := .oscSquare) rfl, decode_encode (i := .mixGen 5) rfl, decode_encode (i := .mixNote 65535) rfl,
    decode_encode (i := .mixMergeOvr) rfl, decode_encode (i := .qntS) rfl, decode_encode (i := .serFlush) rfl,
    decode_encode (i := .render) rfl⟩

/-- Every match of the map is one of the full words or one of the two matches of the CI rows. -/
theorem opRows_match : ∀ r ∈ opRows,
    (r.mask = 0xFFFFFFFF ∧ r.bits ∈ [0x10000000, 0x10010000, 0x10020000, 0x20000000, 0x21000000, 0x23000000, 0x23010000,
      0x25000000, 0x30000000, 0x40000000, 0x41000000, 0x50000000]) ∨
    (r.mask = 0xFFFF0000 ∧ r.bits ∈ [0x22000000, 0x24000000]) := by
  decide

/-- Settles O3: the clauses are the rows in their order (`decode_of_row`), and a word that decodes is under one of them. -/
theorem wordSelectsRowByMaskAndMatch : Obligations.WordSelectsRowByMaskAndMatch := by
  intro w
  rw [← idxField_toNat w]
  refine ⟨decode_of_row 0, decode_of_row 1, decode_of_row 2, decode_of_row 3, decode_of_row 4, decode_of_row 5,
    decode_of_row 6, decode_of_row 7, decode_of_row 8, decode_of_row 9, decode_of_row 10, decode_of_row 11,
    decode_of_row 12, decode_of_row 13, fun hfull hCI i h => ?_⟩
  obtain ⟨r, hr, hw, -⟩ := decode_eq_ok_iff_row.1 h
  rcases opRows_match r hr with ⟨hm, hbits⟩ | ⟨hm, hbits⟩
  · rw [hm, and_mask_all] at hw
    exact hfull (hw ▸ hbits)
  · rw [hm] at hw
    exact hCI (hw ▸ hbits)

/-! ### Illegal words (30_encoding R84) -/

/-- The fields of a word are in one of the classes of illegal words of 30_encoding R84. -/
def IllegalFields (op sub : BitVec 8) (idx : Half) : Prop :=
  (¬ op ∈ [0x10, 0x20, 0x21, 0x22, 0x23, 0x24, 0x25, 0x30, 0x40, 0x41, 0x50]) ∨
  (op = 0x10 ∧ 3 ≤ sub.toNat) ∨ (op = 0x23 ∧ 2 ≤ sub.toNat) ∨
  (op ∈ [0x20, 0x21, 0x22, 0x24, 0x25, 0x30, 0x40, 0x41, 0x50] ∧ sub ≠ 0) ∨
  (op ∈ [0x10, 0x20, 0x21, 0x23, 0x25, 0x30, 0x40, 0x41, 0x50] ∧ idx ≠ 0)

/-- No command has fields of those classes. -/
theorem not_illegalFields (i : Instr) : ¬ IllegalFields (opOf i) (subOf i) (idxOf i) := by
  unfold IllegalFields
  cases i with
  | mixGen n => simp [opOf, subOf]
  | mixNote n => simp [opOf, subOf]
  | _ => decide

theorem IllegalFields.decode_ne_ok {op sub : BitVec 8} {idx : Half} (h : IllegalFields op sub idx) (i : Instr) :
    decode (op ++ sub ++ idx) ≠ .ok i := by
  intro hd
  obtain ⟨-, he⟩ := encode_of_decode hd
  obtain ⟨rfl, rfl, rfl⟩ := (append_eq_iff _ _ _ _ _ _).1 he
  exact not_illegalFields i h

end Sys2Proof

namespace Sys2Proof.Machine

variable {s : State} {w : Word} {bits : BitVec 64} {rest : List Txn} {i : Instr}

/-! ### The accept rule of a CMD write (30_encoding R81) -/

theorem step_command (h : s.env.host = .regWrite 0 bits :: rest) :
    step s = issueCommand (bits.setWidth 32) (s.setEnv { s.env with host := rest }) := by
  rw [step_of_host h, transact, if_pos rfl]

/-- With a result not acknowledged the word is discarded (case 2). -/
theorem issueCommand_of_rv (w : Word) (hf : s.fatal = false) (hr : s.rv = true) :
    issueCommand w s = .next (s.raiseFlag flagDiscard) := by
  simp [issueCommand, hf, hr]

/-- A ready block executes the command of the word (case 4). -/
theorem issueCommand_of_ok (hf : s.fatal = false) (hr : s.rv = false) (hd : decode w = .ok i) :
    issueCommand w s = exec i s := by
  simp [issueCommand, hf, hr, hd]

/-- A ready block answers a word that is no command with the fatal `E_ILLEGAL`, DV = 0 (case 3, R84). -/
theorem issueCommand_of_illegal (hf : s.fatal = false) (hr : s.rv = false) (hd : ∀ i, decode w ≠ .ok i) :
    ∃ t, issueCommand w s = .next t ∧ FatalEnd s t 0x004 s.diag := by
  refine ⟨complete Config.this (raiseEnd s ⟨.illegal, none⟩), ?_, raiseEnd_fatalEnd rfl _ .rfl rfl rfl rfl⟩
  cases he : decode w with
  | ok i => exact absurd he (hd i)
  | error e => simp [issueCommand, hf, hr, he]

/-- Completion sets RV (60_exceptions R204). -/
theorem complete_rv (c : Config) (e : CmdEnd) : (complete c e).rv = true := by
  rw [State.rv, complete_status, statusAfter]
  simp [flagRV]

/-- An executed command sets RV and leaves a code of the table in RESULT (60_exceptions R200, R204). -/
theorem exec_completes (i : Instr) (s : State) : ∃ t, exec i s = .next t ∧ t.rv = true ∧ t.code ≤ 8 :=
  ⟨_, exec_eq i s, complete_rv _ _, by rw [complete_code]; exact codeBits_le _⟩

/-- Settles O4: a word of those classes decodes to no command, and the accept rule answers it with `E_ILLEGAL`. -/
theorem illegalWordsRaiseEIllegal : Obligations.IllegalWordsRaiseEIllegal := by
  intro s bits rest op sub idx h hf hr hw hill
  rw [step_command h, hw]
  exact issueCommand_of_illegal hf hr (IllegalFields.decode_ne_ok hill)

/-- Settles O6: case 4 of the accept rule. -/
theorem stepRunsTheDecodedCommand : Obligations.StepRunsTheDecodedCommand := by
  intro s bits rest i h hf hr hd
  rw [step_command h]
  exact issueCommand_of_ok hf hr hd

/-- Settles O7: one lemma of the accept rule for each case. -/
theorem commandAcceptRule : Obligations.CommandAcceptRule := by
  intro s bits rest h
  refine ⟨step_command_of_fatal h, fun hf hr => ?_, fun hf hr hd => ?_, fun hf hr i hd => ?_⟩
  · rw [step_command h]
    exact issueCommand_of_rv _ hf hr
  · rw [step_command h]
    exact issueCommand_of_illegal hf hr hd
  · rw [stepRunsTheDecodedCommand s bits rest i h hf hr hd]
    exact ⟨rfl, exec_completes i _⟩

/-- A table word that is a command is the word of that command. -/
theorem decode_of_decodeTableWord {v : Nat} (h : decodeTableWord 32 v = some i) :
    decode (BitVec.ofNat 32 (v % 2 ^ 32)) = .ok i := by
  rw [decodeTableWord, if_pos le_rfl] at h
  cases hd : decode (BitVec.ofNat 32 (v % 2 ^ 32)) with
  | ok j =>
    rw [hd] at h
    exact congrArg Except.ok (Option.some.inj h)
  | error e =>
    rw [hd] at h
    cases h

/-- The step after a command word is placed is that command on the state made ready for it (log entry 6). -/
theorem step_placeCommand (hd : decode w = .ok i) :
    step (placeCommand s w) = exec i (s.setStatus (s.status &&& ~~~(flagRV ||| flagFatal))) := by
  have hw : (w.setWidth 64).setWidth 32 = w := by simp
  rw [step_command (s := placeCommand s w) rfl, hw, issueCommand_of_ok ?fatal ?rv hd]
  · rfl
  case fatal => simp [placeCommand, State.fatal, flagRV, flagFatal]
  case rv => simp [placeCommand, State.rv, flagRV, flagFatal]

/-- Settles O8: the placed word is the one the table word decodes from, and a ready block executes it. -/
theorem placedCommandRunsNext : Obligations.PlacedCommandRunsNext := by
  intro s w i h
  exact step_placeCommand (decode_of_decodeTableWord h)

end Sys2Proof.Machine

/-! SUPPORT. The Oscillator: what its three commands do in terms of their waveform functions (40_oscillator R104 to R106,
R110), and the values of the waveforms (R101 to R103, R108, R109). -/

namespace Sys2Proof.Machine

variable {s : State} {c : Config} {f : FloatFmt} {t v x y : Fl}

/-! ### The commands -/

/-- A command of the Oscillator whose waveform has the value v exactly where its argument b is finite. -/
theorem exec_osc_effect_and_faults {i : Instr} {wave : Fl → Fl → Option Fl} {b : Fl}
    (hi : bodyOf Config.this i s = oscOp wave s)
    (hw : wave s.oscT s.oscFreq = if finite b then some v else none) :
    (finite s.oscT = true → fle Fl.zero s.oscT = true → finite s.oscFreq = true → flt Fl.zero s.oscFreq = true →
      finite b = true → exec i s = .next ({ s with oscOut := v }.done false)) ∧
    (finite s.oscT = false ∨ fle Fl.zero s.oscT = false ∨ finite s.oscFreq = false ∨ flt Fl.zero s.oscFreq = false ∨
      finite b = false → ∃ t, exec i s = .next t ∧ FatalEnd s t 0x008 s.diag) := by
  rw [exec_eq, hi]
  constructor
  · intro ht ht0 hf hf0 hb
    have hv : wave s.oscT s.oscFreq = some v := by rw [hw, if_pos hb]
    rw [oscOp_ok (inDom_eq_true.2 ⟨ht, ht0, hf, hf0⟩) hv, complete_endOk]
    rfl
  · intro h
    have hbad : inDom s.oscT s.oscFreq = false ∨ wave s.oscT s.oscFreq = none := by
      rcases h with h | h | h | h | h
      case inr.inr.inr.inr => exact .inr (by simp [hw, h])
      all_goals exact .inl (by simp [inDom, h])
    rw [oscOp_error hbad]
    exact ⟨_, rfl, complete_fatal rfl false s s rfl .rfl rfl rfl rfl⟩

/-- The square by the parity of the floor as a natural number (40_oscillator R102). -/
theorem oscSquare_eq {a : Fl} (ha : a = fmul c.floatFmt (fmul c.floatFmt (toF c.floatFmt 2) x) t) :
    oscSquare c t x =
      if finite a then some (if toNat (ffloor a) % 2 = 0 then Fl.one else Fl.minusOne) else none := by
  subst ha
  simp only [oscSquare, odd_eq, decide_eq_true_eq, ← Nat.mod_two_ne_zero, ite_not]

/-- Settles O21: by `exec_osc_effect_and_faults` on the sine. -/
theorem oscSineEvaluatesTheSine : Obligations.OscSineEvaluatesTheSine :=
  ⟨decode_encode (i := .oscSine) rfl, fun _ _ hb => exec_osc_effect_and_faults rfl (by rw [hb]; rfl)⟩

/-- Settles O22: by `exec_osc_effect_and_faults` on the square. -/
theorem oscSquareEvaluatesTheSquare : Obligations.OscSquareEvaluatesTheSquare :=
  ⟨decode_encode (i := .oscSquare) rfl, fun _ _ ha => exec_osc_effect_and_faults rfl (oscSquare_eq ha)⟩

/-- Settles O23: by `exec_osc_effect_and_faults` on the saw. -/
theorem oscSawEvaluatesTheSaw : Obligations.OscSawEvaluatesTheSaw :=
  ⟨decode_encode (i := .oscSaw) rfl, fun _ _ ha => exec_osc_effect_and_faults rfl (by rw [ha]; rfl)⟩

/-- A body of the Oscillator that ends OK has changed OSC_OUT alone. -/
theorem oscOp_state_of_ok {wave : Fl → Fl → Option Fl} (h : (oscOp wave s).code = .ok) :
    oscOp wave s = endOk (s.setOscOut (oscOp wave s).state.oscOut) := by
  rcases oscOp_cases wave s with ⟨v, -, -, e⟩ | e <;> rw [e] at h ⊢
  · rfl
  · cases h

/-- A body of the Quantizer that ends OK has changed QNT_OUT alone. -/
theorem qntOp_state_of_ok (h : (qntOp c s).code = .ok) : qntOp c s = endOk (s.setQntOut (qntOp c s).state.qntOut) := by
  rcases qntOp_cases c s with ⟨v, -, e⟩ | ⟨-, e⟩ <;> rw [e] at h ⊢
  · rfl
  · cases h

/-- Settles O57: a command that ended OK is its body and `done`, and such a body has changed one register. -/
theorem registerCommandsTouchOneRegister : Obligations.RegisterCommandsTouchOneRegister := by
  intro i s t hi ht hc
  obtain ⟨hok, rfl⟩ := exec_code_ok ht hc
  simp only [List.mem_cons, List.not_mem_nil, or_false] at hi
  rcases hi with rfl | rfl | rfl | rfl
  case inr.inr.inr =>
    rw [show bodyOf Config.this .qntS s = _ from qntOp_state_of_ok hok]
    rfl
  all_goals
    rw [bodyOf, oscOp_state_of_ok hok]
    rfl

/-! ### Values that are not negative -/

/-- A finite value that is not negative is a magnitude without a sign, or `-0`. -/
theorem fin_cases_of_nonneg (hx : finite x = true) (h0 : fle Fl.zero x = true) :
    (∃ m, x = .fin false m) ∨ x = .fin true 0 := by
  obtain ⟨s, m, rfl⟩ := exists_fin_of_finite hx
  cases s with
  | false => exact .inl ⟨m, rfl⟩
  | true =>
    have h0 : ((0 : Nat) : Int) ≤ -(m : Int) := of_decide_eq_true h0
    obtain rfl : m = 0 := by omega
    exact .inr rfl

/-- A finite value times a zero is a zero, its sign the product of the signs. -/
theorem fmul_fin_zero (hx : finite x = true) (neg : Bool) : fmul f x (.fin neg 0) = .fin (isNeg x != neg) 0 := by
  obtain ⟨s, m, rfl⟩ := exists_fin_of_finite hx
  simp [fmul, roundMag_zero f fl_unit_pos, pack]

/-- A finite product of a positive number and one that is not negative is again one that is not negative. -/
theorem fmul_cases_of_nonneg (hy : finite y = true) (hy0 : flt Fl.zero y = true) (hx : finite x = true)
    (hx0 : fle Fl.zero x = true) (h : finite (fmul f y x) = true) :
    (∃ m, fmul f y x = .fin false m) ∨ fmul f y x = .fin true 0 := by
  have hn := isNeg_of_pos hy0
  rcases fin_cases_of_nonneg hx hx0 with ⟨m, rfl⟩ | rfl
  · exact .inl (exists_fin_of_not_isNeg h (isNeg_fmul hn rfl))
  · exact .inr (by rw [fmul_fin_zero hy, hn]; rfl)

@[simp] theorem ffloor_fin_zero (neg : Bool) : ffloor (.fin neg 0) = .fin neg 0 := by
  cases neg <;> simp [ffloor]

/-- The fraction of a zero is `+0`. -/
@[simp] theorem ffrac_fin_zero (neg : Bool) : ffrac f (.fin neg 0) = Fl.zero := by
  cases neg <;> simp [ffrac, fsub, fneg, fadd, roundInt, signed, Fl.zero]

/-! ### The saw (40_oscillator R103) -/

/-- The saw of an argument with fraction r is `2 r - 1`, rounded once: the doubling is exact. -/
theorem saw_of_fraction {r : Nat} (hr : IsRep f r) (hlt : r < Fl.unit) :
    fsub f (fmul f (toF f 2) (.fin false r)) (toF f 1) = roundInt f false (2 * r - Fl.unit) := by
  have h2 : 2 ≤ 2 ^ prec f := small_le_two_pow_prec f (by omega)
  have hrange : 2 * r < 2 ^ rangeBit f := (by omega : 2 * r < 2 * Fl.unit).trans (unit_mul_lt_range h2)
  have hdouble : fmul f (toF f 2) (.fin false r) = .fin false (2 * r) := by
    rw [toF_exact h2, fmul, roundMag_exact fl_unit_pos (isRep_double hr) (by ring), pack, if_pos hrange]
    rfl
  rw [hdouble, toF_one]
  simp [fsub, fadd, fneg, Fl.one, signed, Int.sub_eq_add_neg]

/-- The saw of an argument without a fraction is -1. -/
theorem oscSaw_of_ffrac_zero (h : finite (fmul c.floatFmt x t) = true)
    (h0 : ffrac c.floatFmt (fmul c.floatFmt x t) = Fl.zero) : oscSaw c t x = some Fl.minusOne := by
  have hu := fl_unit_pos
  have hexact : roundMag c.floatFmt Fl.unit 1 = Fl.unit :=
    roundMag_exact one_pos (isRep_unit _) (Nat.mul_one _).symm
  rw [oscSaw, if_pos h, h0, Fl.zero, saw_of_fraction (isRep_zero _) hu]
  simp [roundInt, hu, hu.ne', hexact, pack, unit_lt_range, Fl.minusOne]

/-- Where the saw has a value in the domain, its argument has a fraction below the unit, and the value is
`2 r - 1` of it. -/
theorem oscSaw_fraction (hd : inDom t x = true) (h : oscSaw c t x = some v) :
    ∃ r : Nat, IsRep c.floatFmt r ∧ r < Fl.unit ∧ v = roundInt c.floatFmt false (2 * r - Fl.unit) := by
  obtain ⟨ht, ht0, hx, hx0⟩ := inDom_eq_true.1 hd
  simp only [oscSaw, Option.ite_none_right_eq_some, Option.some.injEq] at h
  obtain ⟨ha, rfl⟩ := h
  have hF := fmul_inF (f := c.floatFmt) x t
  have hfrac : ∃ r, IsRep c.floatFmt r ∧ r < Fl.unit ∧ ffrac c.floatFmt (fmul c.floatFmt x t) = .fin false r := by
    rcases fmul_cases_of_nonneg hx hx0 ht ht0 ha with ⟨m, hm⟩ | hm <;> rw [hm] at hF ⊢
    · exact ⟨_, isRep_mod_unit (inF_fin.1 hF).2, Nat.mod_lt _ fl_unit_pos, ffrac_fin hF⟩
    · exact ⟨0, isRep_zero _, fl_unit_pos, ffrac_fin_zero true⟩
  obtain ⟨r, hr, hlt, he⟩ := hfrac
  exact ⟨r, hr, hlt, by rw [he, saw_of_fraction hr hlt]⟩

theorem oscSaw_inUnit_of_inDom (hd : inDom t x = true) (h : oscSaw c t x = some v) : InUnit v := by
  obtain ⟨r, -, hlt, rfl⟩ := oscSaw_fraction hd h
  exact roundInt_inUnit _ _ (by omega)

/-- Twice a fraction is at most `1 + k`, where k is `1 - 2^(1-P)`, a magnitude of the format. -/
theorem double_fraction_le {r : Nat} (hr : IsRep f r) (hlt : r < Fl.unit) :
    ∃ k : Nat, IsRep f k ∧ k < Fl.unit ∧ 2 * r ≤ k + Fl.unit := by
  have hp : prec f ≤ Fl.unitBit := by rw [unitBit_eq]; cases f <;> decide
  have hq : quantum f ≤ Fl.unitBit - prec f := by rw [unitBit_eq]; cases f <;> decide
  have hunit : Fl.unit = 2 ^ prec f * 2 ^ (Fl.unitBit - prec f) := by
    rw [← pow_add, Nat.add_sub_cancel' hp]; rfl
  have htwo : 2 ≤ 2 ^ prec f := small_le_two_pow_prec f (by omega)
  have hpos : 0 < 2 ^ (Fl.unitBit - prec f) := by positivity
  have hle := isRep_lt_unit hr hlt
  refine ⟨(2 ^ prec f - 2) * 2 ^ (Fl.unitBit - prec f), isRep_mul_pow (Nat.sub_le _ _) hq, ?_, ?_⟩
  · rw [hunit]
    exact Nat.mul_lt_mul_of_pos_right (by omega) hpos
  · rw [hunit]
    calc 2 * r ≤ 2 * ((2 ^ prec f - 1) * 2 ^ (Fl.unitBit - prec f)) := Nat.mul_le_mul_left 2 hle
      _ = (2 ^ prec f - 2 + 2 ^ prec f) * 2 ^ (Fl.unitBit - prec f) := by
        rw [← Nat.mul_assoc]; congr 1; omega
      _ = _ := Nat.add_mul _ _ _

/-- Rounding does not reach 1 from a number that a magnitude of the format below 1 bounds. -/
theorem roundInt_lt_one {z : Bool} {w : Int} {k : Nat} (hk : IsRep f k) (hk1 : k < Fl.unit) (hw : w ≤ k) :
    flt (roundInt f z w) Fl.one = true := by
  have hu := fl_unit_pos
  have hle (hpos : ¬ w < 0) : roundMag f w.natAbs 1 ≤ k := roundMag_le one_pos hk (by omega)
  unfold roundInt pack
  split_ifs with h0 hin
  · cases z <;> simp [flt, Fl.one, signed, hu]
  · simp only [flt, Fl.one, signed, decide_eq_true_eq, Bool.false_eq_true, if_false]
    split_ifs with hneg
    · omega
    · exact Int.ofNat_lt.2 ((hle hneg).trans_lt hk1)
  · have hneg : w < 0 := by
      by_contra hpos
      exact hin (((hle hpos).trans_lt hk1).trans (unit_lt_range f))
    simpa [flt, Fl.one] using hneg

/-- A value in [-1, 1], by the comparisons of F. -/
theorem InUnit.fle (h : InUnit v) : fle Fl.minusOne v = true ∧ fle v Fl.one = true := by
  obtain ⟨s, k, rfl, hk⟩ := h
  cases s <;> simp [Machine.fle, Fl.minusOne, Fl.one, signed] <;> omega

/-- Settles O25: the value is `2 r - 1` of a fraction r, which rounding keeps in [-1, 1) (`roundInt_lt_one`). -/
theorem sawNeverReachesOne : Obligations.SawNeverReachesOne := by
  intro c t x v hd h
  refine ⟨(oscSaw_inUnit_of_inDom hd h).fle.1, ?_⟩
  obtain ⟨r, hr, hlt, rfl⟩ := oscSaw_fraction hd h
  obtain ⟨k, hk, hk1, hle⟩ := double_fraction_le hr hlt
  exact roundInt_lt_one hk hk1 (by omega)

/-! ### `eval` (40_oscillator R108, R109) -/

/-- Every waveform in the domain is a value of F in [-1, 1], also at `-0`. -/
theorem evalWave_unitInF {code : BitVec 2} (hd : inDom t x = true) (h : evalWave c code t x = some v) :
    UnitInF c.floatFmt v := by
  unfold evalWave at h
  split_ifs at h
  · exact oscSine_unitInF h
  · exact oscSquare_unitInF h
  · exact ⟨oscSaw_inF h, oscSaw_inUnit_of_inDom hd h⟩

/-- Settles O24: each waveform gives a value of F in [-1, 1]. -/
theorem evalStaysInTheUnitRange : Obligations.EvalStaysInTheUnitRange := by
  intro c code t x v hd h
  obtain ⟨hF, hunit⟩ := evalWave_unitInF hd h
  exact ⟨hunit.fle.1, hunit.fle.2, hF⟩

theorem isNeg_twoPi (f : FloatFmt) : isNeg (twoPi f) = false := by cases f <;> rfl

/-- The sine of a zero is a zero, `+0` at `+0` (00_scope R10, L1). -/
theorem sinOf_fin_zero (c : Config) (neg : Bool) :
    ∃ z, sinOf c (.fin neg 0) = .fin z 0 ∧ (neg = false → z = false) := by
  cases neg with
  | false => exact ⟨false, rfl, fun _ => rfl⟩
  | true =>
    simp only [sinOf, if_true, Bool.true_eq_false, false_implies, and_true]
    split
    · exact ⟨_, rfl⟩
    · exact ⟨_, rfl⟩

/-- Settles O26: at a zero every argument is a zero, and the waveforms there are those of `sinOf_fin_zero`, of an even
floor and of no fraction. -/
theorem evalAtTimeZero : Obligations.EvalAtTimeZero := by
  intro c x neg hx hx0
  have hn := isNeg_of_pos hx0
  refine ⟨fun hb => ?_, fun ha => ?_, ?_⟩
  · have harg : fmul c.floatFmt (fmul c.floatFmt (twoPi c.floatFmt) x) (.fin neg 0) = .fin neg 0 := by
      rw [fmul_fin_zero hb, isNeg_fmul (isNeg_twoPi _) hn, Bool.false_bne]
    obtain ⟨z, hz, hpos⟩ := sinOf_fin_zero c neg
    exact ⟨z, by simp [evalWave, oscSine, harg, finite, hz], hpos⟩
  · have harg := fmul_fin_zero (f := c.floatFmt) ha neg
    simp [evalWave, oscSquare, harg, finite, odd]
  · have harg := fmul_fin_zero (f := c.floatFmt) hx neg
    exact oscSaw_of_ffrac_zero (by rw [harg]; rfl) (by rw [harg, ffrac_fin_zero])

/-! ### Arguments from 2^P on (40_oscillator R102, R103) -/

/-- A finite value of F from 2^P on is an even whole number: its last place is at least 2. -/
theorem even_of_two_pow_prec_le (hF : inF f x = true) (hx : finite x = true)
    (h : fle (toF f (2 ^ prec f)) x = true) : ∃ m, x = .fin false (2 * m * Fl.unit) := by
  obtain ⟨s, n, rfl⟩ := exists_fin_of_finite hx
  obtain ⟨-, hrep⟩ := inF_fin.1 hF
  rw [toF_exact le_rfl] at h
  have h : ((2 ^ prec f * Fl.unit : Nat) : Int) ≤ signed s n := of_decide_eq_true h
  have hpos : 0 < 2 ^ prec f * Fl.unit := Nat.mul_pos (by positivity) fl_unit_pos
  cases s with
  | true => simp only [signed, if_true] at h; omega
  | false =>
    have hn : 2 ^ (prec f + Fl.unitBit) ≤ n := by rw [pow_add]; exact Int.ofNat_le.1 h
    have hlog : prec f + Fl.unitBit ≤ n.log2 := (Nat.le_log2 (by rintro rfl; simp at hn)).2 hn
    have hulp : Fl.unitBit + 1 ≤ ulpBit f n := by unfold ulpBit; omega
    obtain ⟨m, hm⟩ := (pow_dvd_pow 2 hulp).trans hrep
    exact ⟨m, congrArg (Fl.fin false) (by rw [hm, pow_succ, Fl.unit]; ring)⟩

/-- Settles O27: an argument from 2^P on is an even whole number, so its floor is even and its fraction zero. -/
theorem largeArgumentsLoseThePhase : Obligations.LargeArgumentsLoseThePhase := by
  intro c t x _
  have hu := fl_unit_pos
  constructor <;> rintro a rfl ha hle <;> obtain ⟨m, hm⟩ := even_of_two_pow_prec_le (fmul_inF _ _) ha hle
  · rw [oscSquare_eq rfl, if_pos ha, hm]
    simp [ffloor, toNat, hu]
  · refine oscSaw_of_ffrac_zero ha ?_
    rw [hm, ffrac_fin (hm ▸ fmul_inF _ _), Nat.mul_mod_left, Fl.zero]

end Sys2Proof.Machine

/-! SUPPORT. The Mixer: what each of its commands does and where it faults, in the words of Safety.lean (41_mixer R122
to R130). -/

namespace Sys2Proof.Machine

variable {s u v : State} {i : Instr} {n : Nat} {code : ResultCode} {a b x : Fl}

/-! ### What completion and the acknowledge leave (60_exceptions R204, R207) -/

@[simp] theorem State.done_dv (s : State) (dv : Bool) : (s.done dv).dv = dv := by
  cases dv <;> simp [State.done, State.dv]

@[simp] theorem State.done_clamped (s : State) (dv : Bool) : (s.done dv).clamped = s.clamped := by
  simp [State.done, State.clamped]

@[simp] theorem State.ack_clamped (s : State) : s.ack.clamped = s.clamped := by simp [State.ack, State.clamped]

@[simp] theorem State.done_totdur (s : State) (dv : Bool) : (s.done dv).totdur = s.totdur := rfl
@[simp] theorem State.done_acc (s : State) (dv : Bool) : (s.done dv).acc = s.acc := rfl
@[simp] theorem State.done_loc (s : State) (dv : Bool) : (s.done dv).loc = s.loc := rfl
@[simp] theorem State.done_locNote (s : State) (dv : Bool) : (s.done dv).locNote = s.locNote := rfl
@[simp] theorem State.done_locTrack (s : State) (dv : Bool) : (s.done dv).locTrack = s.locTrack := rfl

/-! ### Faults, completed -/

/-- A command whose body ended in a raise without a note. -/
theorem exec_raise {p : Phase} (hb : bodyOf Config.this i s = raiseEnd (s.enter p) ⟨code, none⟩)
    (hf : isFatal code = true) :
    ∃ t, exec i s = .next t ∧ FatalEnd s t (resultWord code false) s.diag :=
  ⟨_, by rw [exec_eq, hb], raiseEnd_fatalEnd hf _ (.enter s p) rfl rfl rfl⟩

/-- A command whose body ended in a raise that names a note, in a state that keeps what v holds but for DIAG. -/
theorem exec_raise_note {track : Half} (hb : bodyOf Config.this i s = raiseEnd u ⟨code, some (track.toNat, n)⟩)
    (hf : isFatal code = true) (hi : KeepsInputs v u) (he : u.env = v.env) (hs : u.status = v.status) :
    ∃ t, exec i s = .next t ∧ FatalEnd v t (resultWord code true) (diagOf track n) := by
  refine ⟨_, by rw [exec_eq, hb], ?_⟩
  rw [← diagWord_half]
  exact complete_fatal hf true v (u.setDiag _) hs (hi.trans (by constructor <;> rfl)) (congrArg Env.host he)
    (congrArg Env.reads he) (congrArg Env.sinkLog he)

/-- The same where the body raised before it changed anything. -/
theorem exec_raise_note_enter {track : Half} {p : Phase}
    (hb : bodyOf Config.this i s = raiseEnd (s.enter p) ⟨code, some (track.toNat, n)⟩) (hf : isFatal code = true) :
    ∃ t, exec i s = .next t ∧ FatalEnd s t (resultWord code true) (diagOf track n) :=
  exec_raise_note hb hf (.enter s p) rfl rfl

/-! ### MIX.DUR (41_mixer R122) -/

/-- An ascending list of indices, split at one of them. -/
theorem range_eq_append_cons {N : Nat} (h : n < N) : ∃ post, List.range N = List.range n ++ n :: post := by
  obtain ⟨k, rfl⟩ := Nat.exists_eq_add_of_lt h
  exact ⟨_, by rw [Nat.add_assoc, List.range_add, List.range_succ_eq_map, List.map_cons, Nat.add_zero]⟩

/-- The first note whose end has no value ends the search for the maximum with its raise. -/
theorem totalDuration_error {r : Raise} (hc : CountsOk s) (hn : n < s.nnotes.toNat)
    (hpre : ∀ m, m < n → NoteValid s m ∧ finite (endTime s m) = true) (hr : noteEnd Config.this s n = .error r) :
    totalDuration Config.this s = .error r := by
  obtain ⟨post, hpost⟩ := range_eq_append_cons hn
  have hmap : mapRaise (noteEnd Config.this s) (songNotes s) = .error r := by
    rw [songNotes, hpost]
    refine mapRaise_error (fun m hm => ?_) hr
    obtain ⟨hv, hf⟩ := hpre m (List.mem_range.1 hm)
    exact ⟨_, noteEnd_ok hv hf⟩
  rw [totalDuration, checkCounts_ok hc, bind_ok, hmap, bind_error]

theorem bodyOf_mixDur_error {r : Raise} (h : totalDuration Config.this s = .error r) :
    bodyOf Config.this .mixDur s = raiseEnd (s.enter .dur) r := by
  rw [bodyOf, mixDurOp, h, orRaise_error]

/-- Settles O28: the maximum is `totalDuration_ok`, and the first note without an end time raises
(`totalDuration_error`). -/
theorem mixDurTakesTheLatestEnd : Obligations.MixDurTakesTheLatestEnd := by
  refine ⟨decode_encode (i := .mixDur) rfl, fun s => ⟨fun hc hn => ?_, fun hc => ?_, fun n hc hn hpre =>
    ⟨fun hv => ?_, fun hv hf => ?_⟩⟩⟩
  · rw [exec_eq, bodyOf, mixDurOp, totalDuration_ok hc hn, orRaise_ok, complete_endOk]
    rfl
  · exact exec_raise (bodyOf_mixDur_error (by rw [totalDuration, checkCounts_error hc, bind_error])) rfl
  · exact exec_raise_note_enter (bodyOf_mixDur_error (totalDuration_error hc hn hpre (noteEnd_invalid hv))) rfl
  · exact exec_raise_note_enter (bodyOf_mixDur_error (totalDuration_error hc hn hpre (noteEnd_overflow hv hf))) rfl

/-! ### The maximum of finite values -/

theorem fle_self (ha : finite a = true) : fle a a = true := by
  obtain ⟨s, m, rfl⟩ := exists_fin_of_finite ha
  exact decide_eq_true le_rfl

theorem fle_trans (ha : finite a = true) (hb : finite b = true) (hx : finite x = true) (hab : fle a b = true)
    (hbx : fle b x = true) : fle a x = true := by
  obtain ⟨_, _, rfl⟩ := exists_fin_of_finite ha
  obtain ⟨_, _, rfl⟩ := exists_fin_of_finite hb
  obtain ⟨_, _, rfl⟩ := exists_fin_of_finite hx
  exact decide_eq_true ((of_decide_eq_true hab).trans (of_decide_eq_true hbx))

theorem fmax_eq_or (a b : Fl) : fmax a b = a ∨ fmax a b = b := by
  unfold fmax; split
  · exact .inr rfl
  · exact .inl rfl

theorem finite_fmax (ha : finite a = true) (hb : finite b = true) : finite (fmax a b) = true := by
  rcases fmax_eq_or a b with h | h <;> rwa [h]

/-- The maximum of two finite values is at least each. -/
theorem fle_fmax (ha : finite a = true) (hb : finite b = true) : fle a (fmax a b) = true ∧ fle b (fmax a b) = true := by
  obtain ⟨_, _, rfl⟩ := exists_fin_of_finite ha
  obtain ⟨_, _, rfl⟩ := exists_fin_of_finite hb
  unfold fmax
  split
  · next h => exact ⟨decide_eq_true (of_decide_eq_true h).le, fle_self rfl⟩
  · next h => exact ⟨fle_self rfl, decide_eq_true (not_lt.1 (of_decide_eq_false (Bool.not_eq_true _ ▸ h)))⟩

/-- The maximum of a list is one of its values or the value it began with. -/
theorem foldl_fmax_mem (l : List Fl) (a : Fl) : l.foldl fmax a = a ∨ l.foldl fmax a ∈ l := by
  induction l generalizing a with
  | nil => exact .inl rfl
  | cons b l ih =>
    rw [List.foldl_cons, List.mem_cons]
    rcases ih (fmax a b) with h | h
    · rw [h]
      exact (fmax_eq_or a b).imp_right .inl
    · exact .inr (.inr h)

/-- The maximum of a list of finite values is at least each of them and the value it began with. -/
theorem fle_foldl_fmax {l : List Fl} (hl : ∀ b ∈ l, finite b = true) (ha : finite a = true) :
    finite (l.foldl fmax a) = true ∧ fle a (l.foldl fmax a) = true ∧ ∀ b ∈ l, fle b (l.foldl fmax a) = true := by
  induction l generalizing a with
  | nil => exact ⟨ha, fle_self ha, fun _ h => nomatch h⟩
  | cons b l ih =>
    have hb := hl b (by simp)
    have hm := finite_fmax ha hb
    obtain ⟨hma, hmb⟩ := fle_fmax ha hb
    obtain ⟨hfin, hle, hall⟩ := ih (fun d hd => hl d (by simp [hd])) hm
    rw [List.foldl_cons]
    refine ⟨hfin, fle_trans ha hm hfin hma hle, fun d hd => ?_⟩
    rcases List.mem_cons.1 hd with rfl | hd
    · exact fle_trans hb hm hfin hmb hle
    · exact hall d hd

theorem latestEnd_eq (s : State) : latestEnd s = ((songNotes s).map (endTime s)).foldl fmax Fl.zero :=
  (foldl_ends s _ _).symm

/-- What a MIX.DUR that ended OK says of the song, and the state it left. -/
theorem exec_mixDur_ok {t : State} (h : exec .mixDur s = .next t) (hc : t.code = 0) :
    (∀ n, n < s.nnotes.toNat → NoteValid s n ∧ finite (endTime s n) = true) ∧
    t = { s with totdur := latestEnd s }.done false := by
  obtain ⟨hok, rfl⟩ := exec_code_ok h hc
  obtain ⟨y, hy, e⟩ := mixDurOp_of_code hok
  obtain ⟨-, hn, rfl⟩ := totalDuration_eq_ok.1 hy
  exact ⟨hn, by rw [bodyOf, e]; rfl⟩

/-- Settles O29: TOTDUR is the fold of `fmax` over the end times, from `+0` on. -/
theorem totalDurationIsTheMaximum : Obligations.TotalDurationIsTheMaximum := by
  intro s t ht hc
  obtain ⟨hn, rfl⟩ := exec_mixDur_ok ht hc
  have hmem : ∀ y, y ∈ (songNotes s).map (endTime s) ↔ ∃ n, n < s.nnotes.toNat ∧ endTime s n = y := by
    simp [songNotes]
  have hends : ∀ y ∈ (songNotes s).map (endTime s), finite y = true := by
    intro y hy
    obtain ⟨n, hn', rfl⟩ := (hmem y).1 hy
    exact (hn n hn').2
  obtain ⟨hfin, h0, hle⟩ := fle_foldl_fmax hends (a := Fl.zero) rfl
  simp only [State.done_totdur, latestEnd_eq]
  refine ⟨hfin, h0, fun n hn' => hle _ ((hmem _).2 ⟨n, hn', rfl⟩), ?_, fun h => by simp [songNotes, h]⟩
  refine (foldl_fmax_mem _ _).imp_right fun h => ?_
  obtain ⟨n, hn', e⟩ := (hmem _).1 h
  exact ⟨n, hn', e.symm⟩

/-! ### MIX.ALLOC (41_mixer R123) -/

theorem bodyOf_mixAlloc_error {r : Raise} (h : bufferLength Config.this s = .error r) :
    bodyOf Config.this .mixAlloc s = raiseEnd (s.enter .alloc) r := by
  rw [bodyOf, mixAllocOp, h, orRaise_error]

/-- The faults of MIX.ALLOC in their order: the rate. -/
theorem bufferLength_config (hr : s.srate = 0) : bufferLength Config.this s = .error ⟨.config, none⟩ := by
  rw [bufferLength, checkRate_error hr, bind_error]

/-- Then a product that is not finite. -/
theorem bufferLength_overflow (hr : s.srate ≠ 0)
    (hp : x = fmul Config.this.floatFmt s.totdur (toF Config.this.floatFmt s.srate.toNat)) (hf : finite x = false) :
    bufferLength Config.this s = .error ⟨.numeric, none⟩ := by
  rw [bufferLength, checkRate_ok hr, bind_ok]
  simp [rateOf, ← hp, hf]

/-- Then a length above `ACC_MAX`. -/
theorem bufferLength_capacity (hr : s.srate ≠ 0)
    (hp : x = fmul Config.this.floatFmt s.totdur (toF Config.this.floatFmt s.srate.toNat)) (hf : finite x = true)
    (hl : Config.this.accMax < toNat (fceil x)) : bufferLength Config.this s = .error ⟨.capacity, none⟩ := by
  rw [bufferLength, checkRate_ok hr, bind_ok]
  simp [rateOf, ← hp, hf, Nat.not_le.2 hl]

/-- Settles O30: the checks of `bufferLength` in their order. -/
theorem mixAllocZeroesTheBuffer : Obligations.MixAllocZeroesTheBuffer := by
  refine ⟨decode_encode (i := .mixAlloc) rfl, ?_⟩
  rintro s p hp
  refine ⟨fun hr hf hcap => ?_, fun hr => ?_, fun hr hf => ?_, fun hr hf hcap => ?_⟩
  · rw [exec_eq, bodyOf, mixAllocOp, bufferLength_ok hr hp hf hcap, orRaise_ok, complete_endOk]
    rfl
  · exact exec_raise (bodyOf_mixAlloc_error (bufferLength_config hr)) rfl
  · exact exec_raise (bodyOf_mixAlloc_error (bufferLength_overflow hr hp hf)) rfl
  · exact exec_raise (bodyOf_mixAlloc_error (bufferLength_capacity hr hp hf hcap)) rfl

/-! ### MIX.GEN (41_mixer R124 to R126) -/

/-- Settles O31: `mixGenOp_ok`, completed. -/
theorem mixGenFillsLoc : Obligations.MixGenFillsLoc := by
  intro s n h
  rw [exec_eq, bodyOf, mixGenOp_ok h, complete_endOk]
  rfl

theorem bodyOf_mixGen_error {r : Raise} (h : localSamples Config.this s n = .error r) :
    bodyOf Config.this (.mixGen n) s = raiseEnd (s.enter .mix) r := mixGenOp_error h

/-- Settles O32: the checks of `localSamples` in their order. -/
theorem mixGenFaultsInOrder : Obligations.MixGenFaultsInOrder := by
  rintro s n _ rfl
  refine ⟨fun h => ?_, fun hc hr hn => ?_, fun hc hr hn hv => ?_, fun hc hr hn hv hf => ?_,
    fun hc hr hn hv hf hl => ?_, fun hc hr hn hv hf hl hw => ?_⟩
  · exact exec_raise (bodyOf_mixGen_error (localSamples_config h)) rfl
  · exact exec_raise_note_enter (track := 0) (bodyOf_mixGen_error (localSamples_index hc hr hn)) rfl
  · exact exec_raise_note_enter (bodyOf_mixGen_error (localSamples_invalid hc hr hn hv)) rfl
  · exact exec_raise_note_enter (bodyOf_mixGen_error (localSamples_overflow hc hr hn hv hf)) rfl
  · exact exec_raise_note_enter (bodyOf_mixGen_error (localSamples_capacity hc hr hn hv hf hl)) rfl
  · exact exec_raise_note_enter (bodyOf_mixGen_error (localSamples_no_value hc hr hn hv hf hl hw)) rfl

/-! ### The merges (41_mixer R128 to R130) -/

/-- The command of a combine rule. -/
def mergeInstr : Combine → Instr
  | .add => .mixMergeAdd
  | .overwrite => .mixMergeOvr

theorem bodyOf_mergeInstr (c : Config) (how : Combine) (s : State) :
    bodyOf c (mergeInstr how) s = mixMergeOp c how s := by cases how <;> rfl

/-- A merge fault completes with LOC's origin in DIAG. -/
theorem exec_merge_fatal {how : Combine} (hf : isFatal code = true)
    (hb : mixMergeOp Config.this how s = ⟨code, true, (s.enter .mix).setDiag (s.locTrack ++ s.locNote)⟩) :
    ∃ t, exec (mergeInstr how) s = .next t ∧ FatalEnd s t (resultWord code true) (s.locTrack ++ s.locNote) :=
  ⟨_, by rw [exec_eq, bodyOf_mergeInstr, hb],
    complete_fatal hf true s ((s.enter .mix).setDiag _) rfl (by constructor <;> rfl) rfl rfl rfl⟩

/-- A merge inside ACC with LOC's length: only ACC changes. -/
theorem exec_merge_ok (how : Combine) (h1 : s.mrgStart.toNat + s.mrgLen.toNat ≤ s.acc.length)
    (h2 : s.mrgLen.toNat = s.loc.length) :
    exec (mergeInstr how) s = .next ({ s with
      acc := combined (combineWith Config.this how) s.acc s.loc s.mrgStart.toNat s.mrgLen.toNat }.done false) := by
  rw [exec_eq, bodyOf_mergeInstr, mixMergeOp, mergeOp_ok (s := s.enter .mix) how h1 h2 h2.le, complete_endOk]
  rfl

/-- What a merge does, and its two faults in their order, whatever the combine rule. -/
theorem exec_merge_effect_and_faults (how : Combine) (s : State) :
    (s.mrgStart.toNat + s.mrgLen.toNat ≤ s.acc.length → s.mrgLen.toNat = s.loc.length →
      exec (mergeInstr how) s = .next ({ s with
        acc := combined (combineWith Config.this how) s.acc s.loc s.mrgStart.toNat s.mrgLen.toNat }.done false)) ∧
    (s.acc.length < s.mrgStart.toNat + s.mrgLen.toNat →
      ∃ t, exec (mergeInstr how) s = .next t ∧ FatalEnd s t 0x103 (s.locTrack ++ s.locNote)) ∧
    (s.mrgStart.toNat + s.mrgLen.toNat ≤ s.acc.length → s.mrgLen.toNat ≠ s.loc.length →
      ∃ t, exec (mergeInstr how) s = .next t ∧ FatalEnd s t 0x102 (s.locTrack ++ s.locNote)) :=
  ⟨exec_merge_ok how, fun h => exec_merge_fatal rfl (mergeOp_bounds (s := s.enter .mix) how h),
    fun h1 h2 => exec_merge_fatal rfl (mergeOp_length (s := s.enter .mix) how h1 h2)⟩

/-- Settles O33: by `exec_merge_effect_and_faults` on the addition. -/
theorem mixMergeAddAddsTheWindow : Obligations.MixMergeAddAddsTheWindow :=
  ⟨decode_encode (i := .mixMergeAdd) rfl, exec_merge_effect_and_faults .add⟩

/-- Settles O34: by `exec_merge_effect_and_faults` on the overwriting. -/
theorem mixMergeOvrOverwritesTheWindow : Obligations.MixMergeOvrOverwritesTheWindow :=
  ⟨decode_encode (i := .mixMergeOvr) rfl, exec_merge_effect_and_faults .overwrite⟩

/-- Overwriting the same window with the same source again changes nothing. -/
theorem combined_overwrite_twice (c : Config) (acc source : List Fl) (start len : Nat) :
    combined (combineWith c .overwrite) (combined (combineWith c .overwrite) acc source start len) source start len =
      combined (combineWith c .overwrite) acc source start len := by
  simp only [combined, List.mapIdx_mapIdx]
  congr 1
  funext k y
  by_cases h : start ≤ k ∧ k < start + len <;> simp [h, combineWith]

/-- Setting bits again after clearing them. -/
theorem or_and_not_or (w b : Word) : (w ||| b) &&& ~~~b ||| b = w ||| b := by
  ext k hk
  simp only [BitVec.getElem_or, BitVec.getElem_and, BitVec.getElem_not]
  cases w[k] <;> cases b[k] <;> rfl

/-- Settles O35: the acknowledged state still meets the checks of the merge, and its window already holds LOC. -/
theorem overwritingTwiceChangesNothingMore : Obligations.OverwritingTwiceChangesNothingMore := by
  intro s t ht hc
  obtain ⟨h1, h2, -⟩ := mixMergeOp_of_code (exec_code_ok ht hc).1
  cases (exec_merge_ok .overwrite h1 h2).symm.trans ht
  refine (exec_merge_ok (s := State.ack _) .overwrite ?_ ?_).trans ?_
  · exact h1.trans_eq (combined_length _ _ _ _ _).symm
  · exact h2
  · simp only [State.done, State.ack, or_and_not_or, combined_overwrite_twice]

end Sys2Proof.Machine

/-! SUPPORT. MIX.NOTE and MIX.ALL: what they do and where they fault (41_mixer R131 to R133), a single note in the
buffer sized for it, and the frame of the Mixer's commands. -/

namespace Sys2Proof.Machine

variable {s s0 : State} {i : Instr} {n : Nat} {code : ResultCode} {f : FloatFmt} {x : Fl}

/-! ### MIX.NOTE (41_mixer R131) -/

/-- Settles O36: `mixNoteOp_ok`, completed, with and without a clamp. -/
theorem mixNoteAddsTheNote : Obligations.MixNoteAddsTheNote := by
  intro s n hg hf
  rw [exec_eq, bodyOf, mixNoteOp_ok hg hf, complete_ok]
  constructor <;> intro h
  · have hclamp : clampsAt s s.acc.length n = false := decide_eq_false (by omega)
    simp only [afterNote, hclamp]
    rfl
  · have hclamp : clampsAt s s.acc.length n = true := decide_eq_true h
    simp only [afterNote, hclamp]
    rfl

/-- A raise touches no flag. -/
theorem raiseEnd_status (t : State) (r : Raise) : (raiseEnd t r).state.status = t.status := by
  obtain ⟨code, _ | ⟨track, note⟩⟩ := r <;> rfl

/-- A fault of MIX.GEN n is one of MIX.NOTE n. -/
theorem mixNoteOp_of_localSamples_error {r : Raise} (h : localSamples Config.this s n = .error r) :
    mixNoteOp Config.this s n = raiseEnd (s.enter .mix) r := by
  rw [mixNoteOp, mixGenOp_error h, andThen_of_fault]
  rw [raiseEnd_code]
  exact code_ne_ok_of_isFatal (localSamples_fatals _ _ _ r h)

/-- The fault of MIX.NOTE n after MIX.GEN n: a start that is not finite. -/
theorem mixNoteOp_start_overflow (hg : GenOk s n) (hf : finite (startProduct s n) = false) :
    mixNoteOp Config.this s n =
      raiseEnd ((s.enter .mix).setLoc (samplesOf s n) (BitVec.ofNat 16 n) (noteAt Config.this s n).track)
        ⟨.numeric, some (trackOf Config.this s n, n)⟩ := by
  set g := (s.enter .mix).setLoc (samplesOf s n) (BitVec.ofNat 16 n) (noteAt Config.this s n).track with hgd
  have hsame : SameSong s g := ⟨rfl, rfl, rfl, rfl, rfl⟩
  rw [mixNoteOp, mixGenOp_ok hg, andThen_endOk, ← hgd, noteStart_congr hsame, noteStart_error hf, orRaise_error]

/-- MIX.NOTE n faults on the song of s with the given code, naming the note: MIX.GEN n does, or its start is not
finite. -/
def NoteFault (s : State) (n : Nat) (code : ResultCode) : Prop :=
  localSamples Config.this s n = .error ⟨code, some (trackOf Config.this s n, n)⟩ ∨
    (code = .numeric ∧ GenOk s n ∧ finite (startProduct s n) = false)

theorem NoteFault.congr (hf : NoteFault s0 n code) (h : SameSong s0 s) : NoteFault s n code := by
  rcases hf with hl | ⟨hc, hg, hs⟩
  · exact .inl (by rw [localSamples_congr h, trackOf_congr h, hl])
  · exact .inr ⟨hc, genOk_congr h hg, by rw [startProduct_congr h, hs]⟩

theorem NoteFault.isFatal (h : NoteFault s n code) : isFatal code = true := by
  rcases h with hl | ⟨rfl, -, -⟩
  · exact localSamples_fatals _ _ _ _ hl
  · rfl

/-- How MIX.NOTE n ends on such a note: in a raise, with nothing but LOC and the sequencer touched. -/
theorem mixNoteOp_of_noteFault (h : NoteFault s n code) :
    ∃ u, mixNoteOp Config.this s n = raiseEnd u ⟨code, some (trackOf Config.this s n, n)⟩ ∧ KeepsInputs s u ∧
      u.env = s.env ∧ u.status = s.status := by
  rcases h with hl | ⟨rfl, hg, hs⟩
  · exact ⟨_, mixNoteOp_of_localSamples_error hl, .enter s _, rfl, rfl⟩
  · exact ⟨_, mixNoteOp_start_overflow hg hs, by constructor <;> rfl, rfl, rfl⟩

/-- Settles O37: a fault of MIX.GEN n ends MIX.NOTE n the same way; then the start index. -/
theorem mixNoteFaultsInOrder : Obligations.MixNoteFaultsInOrder := by
  refine fun s n => ⟨fun g hg hcode => ?_, fun hok hf => ?_⟩
  · rw [exec_eq] at hg
    cases hg
    rw [complete_code] at hcode
    cases hl : localSamples Config.this s n with
    | ok l =>
      rw [bodyOf, mixGenOp, hl, orRaise_ok, endOk_code] at hcode
      exact absurd hcode (by decide)
    | error r =>
      have hgen : bodyOf Config.this (.mixGen n) s = raiseEnd (s.enter .mix) r := mixGenOp_error hl
      have hfatal : isFatal (raiseEnd (s.enter .mix) r).code = true := by
        rw [raiseEnd_code]; exact localSamples_fatals _ _ _ r hl
      refine ⟨_, by rw [exec_eq, bodyOf, mixNoteOp_of_localSamples_error hl], ?_⟩
      rw [complete_result, complete_diag, hgen]
      exact (Keeps.raiseEnd r (.enter s _) rfl rfl rfl).fatalEnd (raiseEnd_status _ r) hfatal _
  · obtain ⟨u, hu, hi, he, hs⟩ := mixNoteOp_of_noteFault (.inr ⟨rfl, hok, hf⟩)
    exact exec_raise_note (i := .mixNote n) hu rfl hi he hs

/-! ### MIX.ALL (41_mixer R133) -/

/-- A run of MIX.NOTE whose notes before n come to their end, and note n faults. -/
theorem mixNotes_of_noteFault (h : SameSong s0 s) {pre post : List Nat}
    (hpre : ∀ m ∈ pre, GenOk s0 m ∧ finite (startProduct s0 m) = true) (hn : NoteFault s0 n code) :
    ∃ u, mixNotes Config.this (pre ++ n :: post) s = raiseEnd u ⟨code, some (trackOf Config.this s0 n, n)⟩ ∧
      KeepsInputs s u ∧ u.env = s.env ∧
      u.status = if pre.filter (clampsAt s0 s.acc.length) = [] then s.status else s.status ||| 0x4 := by
  have hsame : SameSong s0 (placed s0 s pre) := ⟨h.song, h.epoch, h.ntracks, h.nnotes, h.srate⟩
  obtain ⟨u, hu, hi, he, hs⟩ := mixNoteOp_of_noteFault (hn.congr hsame)
  refine ⟨u, ?_, KeepsInputs.trans (by constructor <;> rfl) hi, he, hs⟩
  have hfault : mixNotes Config.this (n :: post) (placed s0 s pre) =
      raiseEnd u ⟨code, some (trackOf Config.this s0 n, n)⟩ := by
    rw [mixNotes, hu, andThen_of_fault, trackOf_congr hsame]
    rw [raiseEnd_code]
    exact code_ne_ok_of_isFatal hn.isFatal
  rw [mixNotes_append, mixNotes_ok s0 h hpre, andThen_mk_ok, hfault]
  simp

/-- MIX.ALL where the notes below n come to their end and note n faults: the fault of note n, naming it, with CLAMPED
set where an earlier note lost samples. -/
theorem exec_mixAll_noteFault (hc : CountsOk s) (hr : s.srate ≠ 0) (hn : n < s.nnotes.toNat)
    (hpre : ∀ m, m < n → GenOk s m ∧ finite (startProduct s m) = true) (hf : NoteFault s n code) :
    ∃ t, exec .mixAll s = .next t ∧ FatalEnd
      { s with status := if (List.range n).filter (clampsAt s s.acc.length) = [] then s.status else s.status ||| 0x4 } t
      (resultWord code true) (diagOf (noteAt Config.this s n).track n) := by
  obtain ⟨post, hpost⟩ := range_eq_append_cons hn
  obtain ⟨u, hu, hi, he, hs⟩ := mixNotes_of_noteFault (post := post) (enter_sameSong s .mix)
    (fun m hm => hpre m (List.mem_range.1 hm)) hf
  refine exec_raise_note (u := u) ?_ hf.isFatal { hi with } he hs
  rw [bodyOf, mixAllOp, checkCounts_ok hc, bind_ok, checkRate_ok hr, orRaise_ok, songNotes, hpost, hu]
  rfl

/-- Settles O39: the counts and the rate, then the first note with a `NoteFault`. -/
theorem mixAllFaultsInOrder : Obligations.MixAllFaultsInOrder := by
  intro s
  refine ⟨fun h => ?_, ?_⟩
  · refine exec_raise (p := .mix) (code := .config) ?_ rfl
    rw [bodyOf, mixAllOp]
    by_cases hc : CountsOk s
    · rw [checkCounts_ok hc, bind_ok, checkRate_error (h.resolve_left (not_not.2 hc)), orRaise_error]
    · rw [checkCounts_error hc, bind_error, orRaise_error]
  · rintro n _ _ hc hr hn hpre rfl rfl
    refine ⟨fun hv => ?_, fun hv hf => ?_, fun hv hf hl => ?_, fun hv hf hl hw => ?_, fun hg hf => ?_⟩
    · exact exec_mixAll_noteFault hc hr hn hpre (.inl (localSamples_invalid hc hr hn hv))
    · exact exec_mixAll_noteFault hc hr hn hpre (.inl (localSamples_overflow hc hr hn hv hf))
    · exact exec_mixAll_noteFault hc hr hn hpre (.inl (localSamples_capacity hc hr hn hv hf hl))
    · exact exec_mixAll_noteFault hc hr hn hpre (.inl (localSamples_no_value hc hr hn hv hf hl hw))
    · exact exec_mixAll_noteFault hc hr hn hpre (.inr ⟨rfl, hg, hf⟩)

/-- Settles O40: `fadd_self` on the values of the format. -/
theorem overlappingEqualSamplesDouble : Obligations.OverlappingEqualSamplesDouble := by
  intro f s m h
  exact fadd_self (inF_fin.1 h).2

/-! ### A single note from the start of the buffer (41_mixer R131) -/

/-- `+0` added to a finite value of F that is not negative gives its magnitude. -/
theorem fadd_zero_left {m : Nat} (h : inF f (.fin false m) = true) : fadd f Fl.zero (.fin false m) = .fin false m := by
  obtain ⟨hm, hrep⟩ := inF_fin.1 h
  rcases Nat.eq_zero_or_pos m with rfl | hpos
  · rfl
  · have hv : signed false 0 + signed false m = m := by simp [signed]
    rw [Fl.zero, fadd, hv, roundInt, if_neg (by omega), Int.natAbs_natCast,
      roundMag_exact one_pos hrep (Nat.mul_one _).symm, pack, if_pos hm, decide_eq_false (by omega)]

/-- The floor of a zero times anything is 0. -/
theorem toNat_ffloor_zero_mul (neg : Bool) (x : Fl) : toNat (ffloor (fmul f (.fin neg 0) x)) = 0 := by
  cases x with
  | nan => rfl
  | inf t => simp [fmul, ffloor, toNat]
  | fin t k => simp [fmul, roundMag_zero f fl_unit_pos, pack, toNat]

/-- The floor of a value without a sign is at most its ceiling. -/
theorem toNat_ffloor_le_fceil (h : isNeg x = false) : toNat (ffloor x) ≤ toNat (fceil x) := by
  cases x with
  | nan => exact le_rfl
  | inf t => exact le_rfl
  | fin t k =>
    obtain rfl : t = false := h
    have hu := fl_unit_pos
    by_cases h0 : k % Fl.unit = 0 <;> simp [ffloor, fceil, toNat, h0, hu]

/-- The only note of a song, from `+0` on, is not longer than the buffer MIX.ALLOC makes for it. -/
theorem lenOf_le_mixLen (h1 : s.nnotes = 1) (h0 : (noteAt Config.this s 0).start = Fl.zero)
    (hF : inF Config.this.floatFmt (noteAt Config.this s 0).dur = true) (hv : NoteValid s 0) :
    lenOf s 0 ≤ mixLen s := by
  have hend : latestEnd s = fmax Fl.zero (fadd Config.this.floatFmt Fl.zero (noteAt Config.this s 0).dur) := by
    simp [latestEnd, songNotes, h1, List.range_succ, endTime, h0]
  obtain ⟨hfin, hpos⟩ := hv.dur
  rcases fin_cases_of_nonneg hfin hpos with ⟨m, hm⟩ | hm
  · have hdur : latestEnd s = (noteAt Config.this s 0).dur := by
      rw [hend, hm, fadd_zero_left (hm ▸ hF)]
      rcases Nat.eq_zero_or_pos m with rfl | hm0
      · rfl
      · simp [fmax, flt, Fl.zero, signed, hm0]
    have hlen : mixLen s = toNat (fceil (durProduct s 0)) := by rw [mixLen, bufferProduct, hdur]; rfl
    rw [hlen]
    exact toNat_ffloor_le_fceil (isNeg_fmul (by rw [hm]; rfl) (isNeg_toF _ _))
  · have hlen : lenOf s 0 = 0 := by rw [lenOf, durProduct, hm, toNat_ffloor_zero_mul]
    omega

/-- A note from `+0` on that is not longer than the buffer keeps all its samples. -/
theorem clampsAt_start_zero {accLen : Nat} (h0 : (noteAt Config.this s n).start = Fl.zero) (h : lenOf s n ≤ accLen) :
    clampsAt s accLen n = false := by
  have hstart : startOf s n = 0 := by rw [startOf, startProduct, h0, Fl.zero, toNat_ffloor_zero_mul]
  refine decide_eq_false ?_
  unfold keptOf
  split <;> omega

/-! ### What the Mixer's commands leave where they end OK (60_exceptions R204) -/

@[simp] theorem afterNote_acc (s0 s : State) (n : Nat) : (afterNote s0 s n).acc = withNote s0 s.acc n := rfl
@[simp] theorem afterNote_totdur (s0 s : State) (n : Nat) : (afterNote s0 s n).totdur = s.totdur := rfl
@[simp] theorem allMixed_acc (s0 s : State) : (allMixed s0 s).acc = (songNotes s0).foldl (withNote s0) s.acc := rfl
@[simp] theorem allMixed_totdur (s0 s : State) : (allMixed s0 s).totdur = s.totdur := rfl

variable {t : State}

theorem exec_mixAlloc_ok (h : exec .mixAlloc s = .next t) (hc : t.code = 0) :
    t = { s with acc := List.replicate (toNat (fceil
      (fmul Config.this.floatFmt s.totdur (toF Config.this.floatFmt s.srate.toNat)))) Fl.zero }.done false := by
  obtain ⟨hok, rfl⟩ := exec_code_ok h hc
  obtain ⟨k, hk, e⟩ := mixAllocOp_of_code hok
  obtain ⟨-, -, -, rfl⟩ := (bufferLength_eq_ok rfl).1 hk
  rw [bodyOf, e]
  rfl

theorem exec_mixGen_ok (h : exec (.mixGen n) s = .next t) (hc : t.code = 0) :
    t = { s with
      loc := samplesOf s n, locNote := BitVec.ofNat 16 n, locTrack := (noteAt Config.this s n).track }.done false := by
  obtain ⟨hok, rfl⟩ := exec_code_ok h hc
  cases hl : localSamples Config.this s n with
  | ok l =>
    obtain ⟨hg, rfl⟩ := localSamples_eq_ok.1 hl
    rw [bodyOf, mixGenOp_ok hg]
    rfl
  | error r =>
    rw [bodyOf_mixGen_error hl, raiseEnd_code] at hok
    exact absurd hok (code_ne_ok_of_isFatal (localSamples_fatals _ _ _ r hl))

theorem exec_merge_of_code {how : Combine} (h : exec (mergeInstr how) s = .next t) (hc : t.code = 0) :
    t = { s with
      acc := combined (combineWith Config.this how) s.acc s.loc s.mrgStart.toNat s.mrgLen.toNat }.done false := by
  obtain ⟨hok, -⟩ := exec_code_ok h hc
  rw [bodyOf_mergeInstr] at hok
  obtain ⟨h1, h2, -⟩ := mixMergeOp_of_code hok
  cases (exec_merge_ok how h1 h2).symm.trans h
  rfl

theorem exec_mixNote_ok (h : exec (.mixNote n) s = .next t) (hc : t.code = 0) :
    t = (afterNote s s n).done (clampsAt s s.acc.length n) := by
  obtain ⟨hok, rfl⟩ := exec_code_ok h hc
  obtain ⟨hg, hf⟩ := mixNoteOp_code_ok hok
  rw [bodyOf, mixNoteOp_ok hg hf]

theorem exec_mixAll_ok (h : exec .mixAll s = .next t) (hc : t.code = 0) :
    t = (allMixed s s).done (decide (clampedNotes s s.acc.length ≠ [])) := by
  obtain ⟨hok, rfl⟩ := exec_code_ok h hc
  obtain ⟨hcounts, hr, hn⟩ := mixAllOp_code_ok hok
  rw [bodyOf, mixAllOp_sameSong (.refl s) hcounts hr hn]

/-- Settles O41: the note is not longer than the buffer (`lenOf_le_mixLen`), so MIX.NOTE drops no sample of it. -/
theorem singleNoteFromZeroNeverClamps : Obligations.SingleNoteFromZeroNeverClamps := by
  intro s a b t hinv h1 h0 ha hac hb hbc ht htc
  obtain ⟨hn, hadef⟩ := exec_mixDur_ok ha hac
  have hbdef := exec_mixAlloc_ok hb hbc
  have hsame : SameSong s b.ack := by rw [hbdef, hadef]; exact ⟨rfl, rfl, rfl, rfl, rfl⟩
  have hacc : b.ack.acc.length = mixLen s := by rw [hbdef, hadef]; exact List.length_replicate
  have hflag : b.ack.clamped = s.clamped := by
    rw [hbdef, hadef, State.ack_clamped, State.done_clamped]
    exact (State.ack_clamped _).trans (State.done_clamped _ _)
  have hlen := lenOf_le_mixLen h1 h0 (noteAt_inF hinv.song 0).2.2.2 (hn 0 (by rw [h1]; decide)).1
  have hkeep : clampsAt b.ack b.ack.acc.length 0 = false := by
    rw [clampsAt_congr hsame, hacc]
    exact clampsAt_start_zero h0 hlen
  obtain rfl := exec_mixNote_ok ht htc
  rw [hkeep, State.done_dv, State.done_clamped, ← hflag]
  refine ⟨rfl, ?_⟩
  simp only [afterNote, hkeep]
  rfl

/-! ### The frame of the Mixer's commands -/

/-- Adding a note leaves every element outside its window. -/
theorem withNote_outside (s : State) (acc : List Fl) (n : Nat) {k : Nat}
    (h : ¬ (startOf s n ≤ k ∧ k < startOf s n + keptOf s n acc.length)) : (withNote s acc n)[k]? = acc[k]? :=
  combined_outside _ _ _ h

/-- A command of the Mixer that ended OK changed nothing outside TOTDUR, ACC, LOC and its origin, RESULT, DIAG and
STATUS. -/
theorem exec_mixer_frame
    (hi : i ∈ [Instr.mixDur, .mixAlloc, .mixGen n, .mixMergeAdd, .mixMergeOvr, .mixNote n, .mixAll])
    (h : exec i s = .next t) (hc : t.code = 0) :
    t = { s with totdur := t.totdur, acc := t.acc, loc := t.loc, locNote := t.locNote, locTrack := t.locTrack,
                 result := t.result, diag := t.diag, status := t.status, pc := ⟨.idle, 0, 0⟩ } := by
  simp only [List.mem_cons, List.not_mem_nil, or_false] at hi
  rcases hi with rfl | rfl | rfl | rfl | rfl | rfl | rfl
  · obtain ⟨-, rfl⟩ := exec_mixDur_ok h hc; rfl
  · obtain rfl := exec_mixAlloc_ok h hc; rfl
  · obtain rfl := exec_mixGen_ok h hc; rfl
  · obtain rfl := exec_merge_of_code (how := .add) h hc; rfl
  · obtain rfl := exec_merge_of_code (how := .overwrite) h hc; rfl
  · obtain rfl := exec_mixNote_ok h hc; rfl
  · obtain rfl := exec_mixAll_ok h hc; rfl

/-- RESULT, STATUS and DIAG after a command that ended OK (41_mixer R131, 60_exceptions R204). -/
theorem exec_ok_flags (h : exec i s = .next t) (hc : t.code = 0) :
    t.result = (if t.dv then 0x100 else 0x000) ∧
    t.status = (if t.dv then s.status ||| 0x5 else s.status ||| 0x1) ∧ (t.dv = false → t.diag = s.diag) := by
  obtain ⟨hok, rfl⟩ := exec_code_ok h hc
  have hclamp := bodyOf_clamp i s hok
  have hdiag := bodyOf_diag i s
  rw [State.done_dv]
  generalize bodyOf Config.this i s = e at *
  refine ⟨rfl, ?_, hdiag⟩
  change e.state.status ||| 0x1 = _
  rw [hclamp]
  cases e.wroteDiag
  · rfl
  · exact BitVec.or_assoc _ _ _

/-- Settles O58: the frame and the flags for all commands at once, then what each command writes. -/
theorem mixerCommandsKeepTheRest : Obligations.MixerCommandsKeepTheRest := by
  intro i s t n hi h hc
  obtain ⟨hresult, hstatus, hdiag⟩ := exec_ok_flags h hc
  refine ⟨?_, hdiag, ?_⟩
  · rw [← hresult, ← hstatus]
    exact exec_mixer_frame hi h hc
  clear hresult hstatus hdiag
  simp only [List.mem_cons, List.not_mem_nil, or_false] at hi
  rcases hi with rfl | rfl | rfl | rfl | rfl | rfl | rfl
  · obtain ⟨-, rfl⟩ := exec_mixDur_ok h hc
    simp
  · obtain rfl := exec_mixAlloc_ok h hc
    simp
  · obtain rfl := exec_mixGen_ok h hc
    simp
  · obtain rfl := exec_merge_of_code (how := .add) h hc
    simpa [combined_length] using fun k hk => combined_outside _ _ _ (by omega)
  · obtain rfl := exec_merge_of_code (how := .overwrite) h hc
    simpa [combined_length] using fun k hk => combined_outside _ _ _ (by omega)
  · obtain rfl := exec_mixNote_ok h hc
    simpa [withNote_length] using fun k hk => withNote_outside s s.acc n (by omega)
  · obtain rfl := exec_mixAll_ok h hc
    simpa [foldl_withNote_length] using fun k hk => foldl_withNote_outside s (by simpa [songNotes] using hk)

end Sys2Proof.Machine

/-! SUPPORT. The Quantizer and the container: a clamped sample times 32767 is a number of magnitude at most 32767, and the
quantizer is its floor (42_quantizer R151, R152); SER.BUILD where it ends OK (43_serializer R163, R164). -/

namespace Sys2Proof.Machine

variable {c : Config} {f : FloatFmt} {x : Fl} {neg : Bool} {k p : Nat}

/-! ### The floor -/

/-- The integer of `ffloor` is the floor of the exact value, which is counted in units. -/
theorem toInt_ffloor_fin (neg : Bool) (m : Nat) : toInt (ffloor (.fin neg m)) = signed neg m / (Fl.unit : Int) := by
  have hu := fl_unit_pos
  cases neg with
  | false => simp [ffloor, toInt, signed, hu]
  | true =>
    obtain ⟨q, r, hr, rfl⟩ : ∃ q r, r < Fl.unit ∧ m = r + Fl.unit * q :=
      ⟨_, _, Nat.mod_lt m hu, (Nat.mod_add_div m Fl.unit).symm⟩
    have hdiv : (r + Fl.unit * q) / Fl.unit = q := by rw [Nat.add_mul_div_left _ _ hu, Nat.div_eq_of_lt hr, Nat.zero_add]
    symm
    rcases Nat.eq_zero_or_pos r with rfl | hr0
    · have h : -((Fl.unit * q : Nat) : Int) / Fl.unit = -q := by
        rw [Nat.cast_mul, ← Int.mul_neg, Int.mul_ediv_cancel_left _ (by omega)]
      simpa [ffloor, toInt, signed, hu] using h
    · have h : -((r + Fl.unit * q : Nat) : Int) / Fl.unit = -((q + 1 : Nat) : Int) :=
        ((Int.ediv_emod_unique (r := Fl.unit - r) (by omega)).2 ⟨by push_cast; ring, by omega, by omega⟩).1
      simpa [ffloor, toInt, signed, hu, hr, Nat.mod_eq_of_lt, hr0.ne', hdiv] using h

/-! ### The clamp -/

/-- An infinity clamps to the unit of its sign. -/
@[simp] theorem clampUnit_inf (neg : Bool) : clampUnit (.inf neg) = .fin neg Fl.unit := by cases neg <;> rfl

/-- A finite sample keeps its sign, and its magnitude up to the unit. -/
@[simp] theorem clampUnit_fin (neg : Bool) (m : Nat) : clampUnit (.fin neg m) = .fin neg (min m Fl.unit) := by
  have hu := fl_unit_pos
  have hlow : ¬ (m : Int) < -Fl.unit := by omega
  have hhigh : ¬ (Fl.unit : Int) < -m := by omega
  rcases Nat.lt_or_ge Fl.unit m with hm | hm
  · cases neg <;> simp [clampUnit, flt, Fl.one, Fl.minusOne, signed, hm, hm.le, hlow]
  · cases neg <;> simp [clampUnit, flt, Fl.one, Fl.minusOne, signed, hm, hm.not_gt, hlow, hhigh]

/-- A sample that is a number clamps into [-1, 1]. -/
theorem clampUnit_inUnit (hx : isnan x = false) : InUnit (clampUnit x) := by
  cases x with
  | nan => cases hx
  | inf neg => exact ⟨neg, _, clampUnit_inf neg, le_rfl⟩
  | fin neg m => exact ⟨neg, _, clampUnit_fin neg m, min_le_right _ _⟩

/-- A sample from 1 on clamps to 1. -/
theorem clampUnit_of_one_le (h : fle Fl.one x = true) : clampUnit x = Fl.one := by
  have hu := fl_unit_pos
  cases x with
  | nan => cases h
  | inf neg => simpa [fle, Fl.one] using h
  | fin neg m =>
    have h : (Fl.unit : Int) ≤ signed neg m := of_decide_eq_true h
    cases neg with
    | true => simp only [signed, if_true] at h; omega
    | false => rw [clampUnit_fin, min_eq_right (Int.ofNat_le.1 h), Fl.one]

/-- A sample up to -1 clamps to -1. -/
theorem clampUnit_of_le_minusOne (h : fle x Fl.minusOne = true) : clampUnit x = Fl.minusOne := by
  have hu := fl_unit_pos
  cases x with
  | nan => cases h
  | inf neg => simpa [fle, Fl.minusOne] using h
  | fin neg m =>
    have h : signed neg m ≤ -(Fl.unit : Int) := of_decide_eq_true h
    cases neg with
    | false => simp only [signed, Bool.false_eq_true, if_false] at h; omega
    | true => rw [clampUnit_fin, min_eq_right (Int.ofNat_le.1 (neg_le_neg_iff.1 h)), Fl.minusOne]

/-! ### The product -/

/-- The factor 32767 is a value of both formats. -/
theorem scale_le_two_pow_prec (f : FloatFmt) : 32767 ≤ 2 ^ prec f := small_le_two_pow_prec f (by omega)

/-- The product of a sample of magnitude k, by the rounded magnitude. -/
theorem fmul_scale_of_roundMag (neg : Bool) (h : roundMag f (k * (32767 * Fl.unit)) Fl.unit = p)
    (hp : p ≤ 32767 * Fl.unit) : fmul f (.fin neg k) (toF f 32767) = .fin neg p := by
  have hs := scale_le_two_pow_prec f
  rw [toF_exact hs, fmul, h, pack, if_pos (hp.trans_lt (unit_mul_lt_range hs)), Bool.bne_false]

/-- A sample in [-1, 1] times 32767 keeps its sign and is of magnitude at most 32767. -/
theorem fmul_scale_le (neg : Bool) (hk : k ≤ Fl.unit) :
    ∃ p, p ≤ 32767 * Fl.unit ∧ fmul f (.fin neg k) (toF f 32767) = .fin neg p := by
  have hle : roundMag f (k * (32767 * Fl.unit)) Fl.unit ≤ 32767 * Fl.unit :=
    roundMag_le fl_unit_pos (isRep_toF (scale_le_two_pow_prec f)) (by rw [Nat.mul_comm]; exact Nat.mul_le_mul_left _ hk)
  exact ⟨_, hle, fmul_scale_of_roundMag neg rfl hle⟩

/-- The unit times 32767 is exact. -/
theorem fmul_unit_scale (f : FloatFmt) (neg : Bool) :
    fmul f (.fin neg Fl.unit) (toF f 32767) = .fin neg (32767 * Fl.unit) :=
  fmul_scale_of_roundMag neg
    (roundMag_exact fl_unit_pos (isRep_toF (scale_le_two_pow_prec f)) (Nat.mul_comm _ _)) le_rfl

/-! ### The quantizer (42_quantizer R151) -/

theorem quantize_nan (hx : isnan x = true) : quantize c x = none := if_pos hx

/-- The quantized sample is the floor of the product. -/
theorem quantize_of_product (hc : clampUnit x = .fin neg k)
    (hp : fmul c.floatFmt (.fin neg k) (toF c.floatFmt 32767) = .fin neg p) :
    quantize c x = some (signed neg p / (Fl.unit : Int)) := by
  have hx : isnan x = false := by
    cases x with
    | nan => cases hc
    | inf => rfl
    | fin => rfl
  simp [quantize, hx, hc, hp, toInt_ffloor_fin]

/-- A sample that clamps to the unit quantizes to 32767 with its sign. -/
theorem quantize_of_clampUnit_unit (hc : clampUnit x = .fin neg Fl.unit) : quantize c x = some (signed neg 32767) := by
  have hu : (Fl.unit : Int) ≠ 0 := by have := fl_unit_pos; omega
  have hs : signed neg (32767 * Fl.unit) = signed neg 32767 * Fl.unit := by cases neg <;> simp [signed]
  rw [quantize_of_product hc (fmul_unit_scale _ _), hs, Int.mul_ediv_cancel _ hu]

/-- Settles O43: the product lies in -32767 to 32767, and so does its floor. -/
theorem quantizedSamplesLieInRange : Obligations.QuantizedSamplesLieInRange := by
  intro c x v h
  have hu : (0 : Int) < Fl.unit := Int.natCast_pos.2 fl_unit_pos
  cases hx : isnan x with
  | true => rw [quantize_nan hx] at h; cases h
  | false =>
    obtain ⟨neg, k, hc, hk⟩ := clampUnit_inUnit hx
    obtain ⟨p, hle, hp⟩ := fmul_scale_le (f := c.floatFmt) neg hk
    rw [quantize_of_product hc hp, Option.some.injEq] at h
    subst h
    have hlow : -32767 * (Fl.unit : Int) ≤ signed neg p := by unfold signed; split <;> omega
    have hhigh : signed neg p ≤ 32767 * (Fl.unit : Int) := by unfold signed; split <;> omega
    exact ⟨(Int.le_ediv_iff_mul_le hu).2 hlow, Int.ediv_le_of_le_mul hu hhigh⟩

/-- The product of a zero is that zero, which quantizes to 0. -/
theorem quantize_zero (c : Config) (neg : Bool) : quantize c (.fin neg 0) = some 0 := by
  have hp : fmul c.floatFmt (.fin neg 0) (toF c.floatFmt 32767) = .fin neg 0 :=
    fmul_scale_of_roundMag neg (by rw [Nat.zero_mul, roundMag_zero _ fl_unit_pos]) (Nat.zero_le _)
  rw [quantize_of_product (by simp) hp]
  cases neg <;> simp [signed]

/-- A negative sample is an infinity, or a finite number with the sign. -/
theorem inf_or_fin_of_neg (h : flt x Fl.zero = true) : x = .inf true ∨ ∃ m, x = .fin true m := by
  cases x with
  | nan => cases h
  | inf neg => exact .inl (by rw [show neg = true from h])
  | fin neg m =>
    cases neg with
    | true => exact .inr ⟨m, rfl⟩
    | false =>
      have h : (m : Int) < (0 : Nat) := of_decide_eq_true h
      omega

/-- A negative sample whose product is not a zero quantizes below zero: it is clipped, or the floor of its product. -/
theorem quantize_neg {v : Int} (hx : flt x Fl.zero = true)
    (h0 : ∀ z, fmul c.floatFmt x (toF c.floatFmt 32767) ≠ .fin z 0) (h : quantize c x = some v) : v ≤ -1 := by
  by_cases hclip : clampUnit x = .fin true Fl.unit
  · rw [quantize_of_clampUnit_unit hclip, Option.some.injEq] at h
    subst h
    decide
  rcases inf_or_fin_of_neg hx with rfl | ⟨m, rfl⟩
  · exact absurd (clampUnit_inf true) hclip
  have hm : m ≤ Fl.unit := by
    by_contra hm
    exact hclip (by rw [clampUnit_fin, min_eq_right (by omega)])
  obtain ⟨p, -, hp⟩ := fmul_scale_le (f := c.floatFmt) true hm
  have hpos : p ≠ 0 := fun e => h0 true (e ▸ hp)
  rw [quantize_of_product (by rw [clampUnit_fin, min_eq_left hm]) hp, Option.some.injEq] at h
  subst h
  have hneg : signed true p / (Fl.unit : Int) < 0 :=
    Int.ediv_neg_of_neg_of_pos (by simp only [signed, if_true]; omega) (Int.natCast_pos.2 fl_unit_pos)
  omega

/-- Settles O44: from 1 on and up to -1 the clamp gives the unit, whose product is exact; the product of
a zero is a zero; the floor of a product below zero is at most -1. -/
theorem quantizerClipsAndFloors : Obligations.QuantizerClipsAndFloors := by
  refine fun c x => ⟨fun h => ?_, fun h => ?_, ?_, fun v hx h0 h => quantize_neg hx h0 h⟩
  · exact quantize_of_clampUnit_unit (clampUnit_of_one_le h)
  · exact quantize_of_clampUnit_unit (clampUnit_of_le_minusOne h)
  · rintro z rfl
    exact quantize_zero c z

/-! ### QNT.S (42_quantizer R152) -/

/-- The sign extension of the 16-bit pattern of a number in the signed 16-bit range is its 32-bit pattern. -/
theorem signExtend_ofInt {v : Int} (hlow : -2 ^ 15 ≤ v) (hhigh : v < 2 ^ 15) :
    (BitVec.ofInt 16 v).signExtend 32 = BitVec.ofInt 32 v := by
  rw [BitVec.signExtend, BitVec.toInt_ofInt_eq_self (by omega) hlow hhigh]

/-- Settles O42: a quantized sample is in the range of O43, so its 16 bits sign-extended are the value itself. -/
theorem qntSQuantizesTheSample : Obligations.QntSQuantizesTheSample := by
  refine ⟨decode_encode (i := .qntS) rfl, ?_⟩
  rintro s x rfl
  have hbody : bodyOf Config.this .qntS s = qntOp Config.this s := rfl
  rw [exec_eq, hbody]
  constructor
  · intro hx
    have hv : quantize Config.this s.qntIn = some _ := if_neg (by simp [hx])
    obtain ⟨hlow, hhigh⟩ := quantizedSamplesLieInRange _ _ _ hv
    rw [qntOp, hv, orElseRaise_some, orRaise_ok, complete_endOk, signExtend_ofInt (by omega) (by omega)]
    rfl
  · intro hx
    rw [qntOp, quantize_nan hx, orElseRaise_none, orRaise_error, raiseEnd_none]
    exact ⟨_, rfl, complete_fatal rfl false s s rfl .rfl rfl rfl rfl⟩

/-! ### SER.BUILD (43_serializer R163, R164) -/

/-- Settles O45: by `serBuildOp_ok`, completed. -/
theorem serBuildLaysOutTheContainer : Obligations.SerBuildLaysOutTheContainer := by
  intro s hfmt hmode hrate hbytes hchunk htotal hn
  have hc := buildChecks_eq_ok.2 ⟨hfmt, hmode, hrate, hbytes, hchunk, htotal⟩
  have hbody : bodyOf Config.this .serBuild s = serBuildOp Config.this s := rfl
  rw [exec_eq, hbody, serBuildOp_ok hc hn, complete_endOk]
  rfl

end Sys2Proof.Machine

/-! SUPPORT. The Container Writer: the faults of SER.BUILD in their order (43_serializer R162, R164), the header read back
(R167), SER.FLUSH (R176), and who writes to the sink (R175). -/

namespace Sys2Proof.Machine

variable {c : Config} {s t u : State} {code : ResultCode} {e : CmdEnd}

/-! ### The faults of SER.BUILD (43_serializer R162, R164) -/

/-- Two tests in a row that raise the same are one test. -/
theorem require_bind_require {α : Type} (a b : Bool) (r : Raise) (k : Unit → Except Raise α) :
    (require a r >>= fun _ => require b r >>= k) = (require (a && b) r >>= k) := by
  cases a <;> rfl

/-- The same where nothing follows the second. -/
theorem require_then_require (a b : Bool) (r : Raise) :
    (require a r >>= fun _ => require b r) = require (a && b) r := by
  cases a <;> rfl

/-- The six checks as two: what R162 answers with `E_CONFIG`, then what it answers with `E_CAPACITY`. -/
theorem buildChecks_eq (s : State) : buildChecks Config.this s =
    (require (decide (s.fmt = 0 ∧ s.chmode.toNat < 2 ∧ s.srate ≠ 0 ∧ s.srate.toNat * (countOf s * 2) < 2 ^ 32))
      ⟨.config, none⟩ >>= fun _ =>
    require (decide (36 + s.acc.length * countOf s * 2 < 2 ^ 32 ∧ 44 + s.acc.length * countOf s * 2 ≤ Config.this.outMax))
      ⟨.capacity, none⟩) := by
  obtain ⟨-, hb, -, -, hc, ht⟩ := header_values s
  simp only [buildChecks, hb, hc, ht, chmode_high_zero, Nat.le_sub_one_iff_lt (Nat.two_pow_pos 32), require_bind_require,
    require_then_require, Bool.decide_and]

/-- A SER.BUILD whose checks or frames raise without a note. -/
theorem exec_serBuild_raise
    (h : (buildChecks Config.this s >>= fun _ => frames Config.this s) = .error ⟨code, none⟩) (hf : isFatal code = true) :
    ∃ t, exec .serBuild s = .next t ∧ FatalEnd s t (resultWord code false) s.diag :=
  exec_raise (serBuildOp_fault h) hf

/-- Settles O46: the two tests of `buildChecks_eq`, then the frames. -/
theorem serBuildFaultsInOrder : Obligations.SerBuildFaultsInOrder := by
  rintro s rate size rfl rfl
  refine ⟨fun h => exec_serBuild_raise (code := .config) ?_ rfl,
    fun hfmt hmode hrate hbytes h => exec_serBuild_raise (code := .capacity) ?_ rfl,
    fun hfmt hmode hrate hbytes hchunk htotal hnan => exec_serBuild_raise (code := .numeric) ?_ rfl⟩
  · have hnot : ¬ (s.fmt = 0 ∧ s.chmode.toNat < 2 ∧ s.srate ≠ 0 ∧ s.srate.toNat * (countOf s * 2) < 2 ^ 32) := by
      rintro ⟨hfmt, hmode, hrate, hbytes⟩
      obtain h | h | h | h := h
      exacts [h hfmt, h.not_gt hmode, hrate h, h.not_gt hbytes]
    rw [buildChecks_eq, require_of_not (decide_eq_false hnot), bind_error, bind_error]
  · rw [buildChecks_eq, require_of (decide_eq_true ⟨hfmt, hmode, hrate, hbytes⟩), bind_ok,
      require_of_not (decide_eq_false (by omega)), bind_error]
  · rw [buildChecks_eq_ok.2 ⟨hfmt, hmode, hrate, hbytes, hchunk, htotal⟩, bind_ok, frames_error hnan]

/-! ### The header read back (43_serializer R164, R167) -/

/-- SER.BUILD ended OK changes OUT alone, which is the container. -/
theorem exec_serBuild_ok (h : exec .serBuild s = .next t) (hc : t.code = 0) :
    t = { s with out := containerOf s (countOf s) }.done false := by
  obtain ⟨hok, rfl⟩ := exec_code_ok h hc
  obtain ⟨hchecks, hn⟩ := serBuildOp_code_ok hok
  rw [bodyOf, serBuildOp_ok hchecks hn]
  rfl

/-- The bytes of `le32`, high byte first, are the word again. -/
theorem le32_bytes_append (w : Word) :
    w.extractLsb' 24 8 ++ w.extractLsb' 16 8 ++ w.extractLsb' 8 8 ++ w.extractLsb' 0 8 = w := by
  ext i hi
  simp only [BitVec.getElem_append, BitVec.getElem_extractLsb']
  split_ifs <;> (rw [← BitVec.getLsbD_eq_getElem]; congr 1; omega)

/-- The channel count of the header fits one byte. -/
theorem le16_countOf (s : State) : le16 (BitVec.ofNat 16 (countOf s)) = [BitVec.ofNat 8 (countOf s), 0] := by
  unfold countOf
  split <;> rfl

/-- Settles O47: OUT is the container, whose fields stand at fixed offsets. -/
theorem headerParsesBack : Obligations.HeaderParsesBack := by
  intro s t h hc
  obtain rfl := exec_serBuild_ok h hc
  refine ⟨?_, ⟨_, _, _, _, rfl, le32_bytes_append s.srate⟩, le16_countOf s, rfl⟩
  change (containerOf s (countOf s)).length = _
  rw [containerOf_length]
  ring

/-! ### SER.FLUSH (43_serializer R176) -/

/-- Settles O48: `serFlushOp_eq`, completed with either answer. -/
theorem serFlushWritesOutOnce : Obligations.SerFlushWritesOutOnce := by
  refine ⟨decode_encode (i := .serFlush) rfl, ?_⟩
  rintro s e rfl
  have hbody : bodyOf Config.this .serFlush s = serFlushOp s := rfl
  rw [exec_eq, hbody, serFlushOp_eq]
  constructor
  · intro ha
    rw [ha, if_pos rfl, complete_ok]
    rfl
  · intro ha
    rw [ha, if_neg Bool.false_ne_true, complete_io]
    rfl

/-! ### Who writes to the sink (43_serializer R175) -/

/-- A body that keeps the surroundings writes nothing to the sink. -/
theorem Keeps.sink_unchanged (h : Keeps s e) (c : Config) : (complete c e).env.sinkLog = s.env.sinkLog ∧
    (complete c e).env.sinkAnswers = s.env.sinkAnswers := by
  obtain ⟨hlog, hanswers, -⟩ := complete_env c e
  exact ⟨by rw [hlog, h.env], by rw [hanswers, h.env]⟩

/-- A body that ended with the flush of u, completed: one write, of what OUT holds then and after. -/
theorem complete_flushed (hc : e.code = (serFlushOp u).code) (hs : e.state = (serFlushOp u).state) (c : Config) :
    ∃ w, (complete c e).env.sinkLog = u.env.sinkLog ++ [w] ∧ w.bytes = (complete c e).out := by
  rw [complete_not_fatal c e (by rw [hc, serFlushOp_not_fatal]), hs, serFlushOp_eq]
  exact ⟨_, rfl, rfl⟩

/-- Parts of a command that ended well and then the flush: the same write. -/
theorem complete_andThen_flush (h : e.code = .ok) (c : Config) :
    ∃ w, (complete c (andThen e serFlushOp)).env.sinkLog = e.state.env.sinkLog ++ [w] ∧
      w.bytes = (complete c (andThen e serFlushOp)).out :=
  complete_flushed (by rw [andThen_of_ok h]) (by rw [andThen_of_ok h]) c

/-- Completion of RENDER: a fault before the flush leaves the sink alone, else the flush is its one write. -/
theorem complete_renderOp_sink (c : Config) (s : State) :
    (complete c (renderOp c s)).env.sinkLog = s.env.sinkLog ∨
    ∃ w, (complete c (renderOp c s)).env.sinkLog = s.env.sinkLog ++ [w] ∧ w.bytes = (complete c (renderOp c s)).out := by
  have hk := frontOp_keeps c s
  rw [renderOp_eq]
  by_cases hc : (frontOp c s).code = .ok
  · right
    rw [← hk.env]
    exact complete_andThen_flush hc c
  · left
    rw [andThen_of_fault hc]
    exact (hk.sink_unchanged c).1

/-- Settles O49: no body but the two that flush touches the surroundings (`bodyOf_keeps`), and a flush is one write. -/
theorem onlyFlushAndRenderWriteTheSink : Obligations.OnlyFlushAndRenderWriteTheSink := by
  intro i s t h
  rw [exec_eq] at h
  cases h
  have hother (h1 : i ≠ .serFlush) (h2 : i ≠ .render) := (bodyOf_keeps Config.this s h1 h2).sink_unchanged Config.this
  refine ⟨hother, ?_⟩
  have hwrites : (complete Config.this (bodyOf Config.this i s)).env.sinkLog = s.env.sinkLog ∨
      ∃ w, (complete Config.this (bodyOf Config.this i s)).env.sinkLog = s.env.sinkLog ++ [w] ∧
        w.bytes = (complete Config.this (bodyOf Config.this i s)).out := by
    by_cases h1 : i = .serFlush
    · subst h1
      exact .inr (complete_flushed rfl rfl _)
    · by_cases h2 : i = .render
      · subst h2
        exact complete_renderOp_sink _ s
      · exact .inl (hother h1 h2).1
  exact hwrites.imp_right fun ⟨w, hlog, hbytes⟩ => ⟨w, hlog, fun _ => hbytes⟩

end Sys2Proof.Machine

/-! SUPPORT. RENDER (44_render R190 to R192): the songs it renders and what it leaves for each, and its phases beside
the unit commands, issued and acknowledged one after the other. -/

namespace Sys2Proof.Machine

variable {f : FloatFmt} {s t u v : State} {e : CmdEnd} {i : Instr} {n : Nat}

/-! ### The empty song -/

/-- A count is finite where the power of two above it is in range. -/
theorem finite_toF {b : Nat} (hb : b + Fl.unitBit < rangeBit f) (h : n ≤ 2 ^ b) : finite (toF f n) = true := by
  have hrep := isRep_mul_pow (f := f) Nat.one_le_two_pow ((quantum_le_unitBit f).trans (Nat.le_add_left _ b))
  rw [Nat.one_mul] at hrep
  have hunit : n * Fl.unit ≤ 2 ^ (b + Fl.unitBit) := by rw [pow_add]; exact Nat.mul_le_mul_right _ h
  have hle := roundMag_le one_pos hrep (hunit.trans_eq (Nat.mul_one _).symm)
  rw [toF, pack, if_pos (hle.trans_lt (Nat.pow_lt_pow_right one_lt_two hb))]
  rfl

/-- `R` is finite in both formats. -/
theorem finite_toF_word (f : FloatFmt) (w : Word) : finite (toF f w.toNat) = true :=
  finite_toF (b := 32) (by rw [unitBit_eq]; cases f <;> decide) (by have := w.isLt; omega)

/-- `+0` times `R` is `+0`. -/
theorem fmul_zero_toF_word (f : FloatFmt) (w : Word) : fmul f Fl.zero (toF f w.toNat) = Fl.zero := by
  obtain ⟨neg, m, hm⟩ := exists_fin_of_finite (finite_toF_word f w)
  obtain rfl : neg = false := by have := isNeg_toF f w.toNat; rwa [hm] at this
  rw [hm, Fl.zero, fmul, Nat.zero_mul, roundMag_zero f fl_unit_pos, pack, if_pos (Nat.two_pow_pos _)]
  rfl

theorem songNotes_empty (h : s.nnotes = 0) : songNotes s = [] := by rw [songNotes, h]; rfl

theorem latestEnd_empty (h : s.nnotes = 0) : latestEnd s = Fl.zero := by rw [latestEnd, songNotes_empty h]; rfl

theorem bufferProduct_empty (h : s.nnotes = 0) : bufferProduct s = Fl.zero := by
  rw [bufferProduct, latestEnd_empty h, fmul_zero_toF_word]

theorem mixLen_empty (h : s.nnotes = 0) : mixLen s = 0 := by
  rw [mixLen, bufferProduct_empty h]
  simp [fceil, Fl.zero, toNat]

theorem mixOf_empty (h : s.nnotes = 0) : mixOf s = [] := by rw [mixOf, songNotes_empty h, mixLen_empty h]; rfl

theorem clampedNotes_empty (h : s.nnotes = 0) (len : Nat) : clampedNotes s len = [] := by
  rw [clampedNotes, songNotes_empty h]
  rfl

theorem mixBytes_empty (h : s.nnotes = 0) : mixBytes s = headerOf s (countOf s) 0 := by
  rw [mixBytes, mixLen_empty h, mixOf_empty h, List.flatMap_nil, List.append_nil]

/-- The header alone always fits into OUT (00_scope R6). -/
theorem header_le_outMax : 44 ≤ Config.this.outMax := Nat.le_add_left _ _

/-- Settles O50: the empty song meets every check of the phases, and `rendered s` is the state of the statement. -/
theorem renderOfTheEmptySong : Obligations.RenderOfTheEmptySong := by
  rintro s _ hn htracks hrate hfmt hmode hbytes rfl
  have hlen := mixLen_empty hn
  have hr : Renderable s :=
    { counts := ⟨htracks, by simp [hn]⟩
      rate := hrate
      fmt := hfmt
      chmode := hmode
      notes := by simp [hn]
      bufferFinite := by rw [bufferProduct_empty hn]; rfl
      bufferFits := by simp [hlen]
      numbers := by simp [mixOf_empty hn]
      byteRate := hbytes
      chunkSize := by simp [hlen]
      outFits := by simp [hlen, header_le_outMax] }
  refine ⟨(exec_render_renderable hr).trans ?_, headerOf_length _ _ _⟩
  simp [rendered, built, allMixed, allocated, hn, hlen, latestEnd_empty, songNotes_empty, clampedNotes_empty,
    mixBytes_empty]

/-! ### The songs that RENDER renders (44_render R190) -/

/-- MIX.DUR in RENDER, where it comes to its end. -/
theorem mixDurOp_code_ok (h : (mixDurOp Config.this s).code = .ok) :
    CountsOk s ∧ (∀ n, n < s.nnotes.toNat → NoteValid s n ∧ finite (endTime s n) = true) ∧
    mixDurOp Config.this s = endOk ((s.enter .dur).setTotdur (latestEnd s)) := by
  obtain ⟨x, hx, he⟩ := mixDurOp_of_code h
  obtain ⟨hcounts, hends, rfl⟩ := totalDuration_eq_ok.1 hx
  exact ⟨hcounts, hends, he⟩

/-- MIX.ALLOC in RENDER, where it comes to its end. -/
theorem mixAllocOp_code_ok (h : (mixAllocOp Config.this ((s.enter .dur).setTotdur (latestEnd s))).code = .ok) :
    s.srate ≠ 0 ∧ finite (bufferProduct s) = true ∧ mixLen s ≤ Config.this.accMax ∧
    mixAllocOp Config.this ((s.enter .dur).setTotdur (latestEnd s)) = endOk (allocated s) := by
  obtain ⟨k, hk, he⟩ := mixAllocOp_of_code h
  obtain ⟨hrate, hfin, hfits, rfl⟩ := (bufferLength_eq_ok rfl).1 hk
  exact ⟨hrate, hfin, hfits, he⟩

/-- Where the phases before the flush come to their end, the song meets every check of theirs. -/
theorem renderable_of_frontOp (h : (frontOp Config.this s).code = .ok) : Renderable s := by
  obtain ⟨h, hbuild⟩ := andThen_code_ok.1 h
  obtain ⟨h, hall⟩ := andThen_code_ok.1 h
  obtain ⟨hdur, halloc⟩ := andThen_code_ok.1 h
  obtain ⟨hcounts, hends, edur⟩ := mixDurOp_code_ok hdur
  rw [edur, endOk_state] at halloc
  obtain ⟨hrate, hfin, hfits, ealloc⟩ := mixAllocOp_code_ok halloc
  rw [edur, andThen_endOk, ealloc, endOk_state] at hall
  rw [edur, andThen_endOk, ealloc, andThen_endOk] at hbuild
  have hsong : SameSong s (allocated s) := ⟨rfl, rfl, rfl, rfl, rfl⟩
  have hnotes : ∀ n, n < s.nnotes.toNat → GenOk s n ∧ finite (startProduct s n) = true := fun n hn => by
    obtain ⟨hg, hf⟩ := (mixAllOp_code_ok hall).2.2 n hn
    exact ⟨genOk_congr hsong.symm hg, by rwa [startProduct_congr hsong] at hf⟩
  rw [mixAllOp_sameSong hsong hcounts hrate hnotes] at hbuild
  obtain ⟨hchecks, hnumbers⟩ := serBuildOp_code_ok hbuild
  obtain ⟨hfmt, hmode, -, hbytes, hchunk, hout⟩ := buildChecks_eq_ok.1 hchecks
  have hlen : (allMixed s (allocated s)).acc.length = mixLen s := mixOf_length s
  rw [hlen] at hchunk hout
  exact ⟨hcounts, hrate, hfmt, hmode, fun n hn => ⟨(hnotes n hn).1, (hends n hn).2, (hnotes n hn).2⟩, hfin, hfits,
    hnumbers, hbytes, hchunk, hout⟩

/-- A command that ended with code 0 or 1 had no fatal fault (60_exceptions R200). -/
theorem isFatal_of_code_lt_two {code : ResultCode} (h : (codeBits code).toNat < 2) : isFatal code = false := by
  revert h
  cases code <;> decide

/-- A RENDER that ended with code 0 or 1 reached the sink: the song met every check, and `rendered` is what it left. -/
theorem exec_render_code_lt_two (h : exec .render s = .next t) (hc : t.code < 2) : Renderable s ∧ t = rendered s := by
  have hr : Renderable s := by
    rw [exec_eq] at h
    cases h
    rw [complete_code] at hc
    have hnf := isFatal_of_code_lt_two hc
    by_contra hn
    have hfault : (frontOp Config.this s).code ≠ .ok := fun hok => hn (renderable_of_frontOp hok)
    rw [bodyOf, renderOp_eq, andThen_of_fault hfault] at hnf
    obtain hok | hf := frontOp_okOrFatal Config.this s
    · exact hfault hok
    · rw [hf] at hnf; cases hnf
  rw [exec_render_renderable hr] at h
  cases h
  exact ⟨hr, rfl⟩

/-- The code of a RENDER that reached the sink is the sink's answer. -/
theorem rendered_code (s : State) : (rendered s).code = if nextAnswer s then 0 else 1 := by
  have hresult : (rendered s).result =
      resultWord (if nextAnswer s then .ok else .io) (decide (clampedNotes s (mixLen s) ≠ [])) :=
    (resultWord_flush _ _).symm
  rw [State.code, hresult, (resultWord_fields _ _).1]
  cases nextAnswer s <;> rfl

section
variable (h : SameSong s t)
include h

theorem songNotes_congr : songNotes t = songNotes s := by rw [songNotes, h.nnotes, songNotes]

theorem latestEnd_congr : latestEnd t = latestEnd s := by
  simp only [latestEnd, songNotes_congr h, endTime_congr h]

theorem bufferProduct_congr : bufferProduct t = bufferProduct s := by
  rw [bufferProduct, latestEnd_congr h, h.srate, bufferProduct]

theorem mixLen_congr : mixLen t = mixLen s := by rw [mixLen, bufferProduct_congr h, mixLen]

theorem mixOf_congr : mixOf t = mixOf s := by
  have hnote : withNote t = withNote s := funext₂ (withNote_congr h)
  rw [mixOf, songNotes_congr h, hnote, mixLen_congr h, mixOf]

end

theorem countOf_congr (hk : KeepsInputs s t) : countOf t = countOf s := by rw [countOf, hk.chmode, countOf]

/-- Whether a song renders is said by the inputs of the host and the epoch alone. -/
theorem Renderable.congr (h : Renderable s) (hk : KeepsInputs s t) (he : t.env.epoch = s.env.epoch) : Renderable t := by
  have hs := SameSong.of_keepsInputs hk he
  have hlen := mixLen_congr hs
  have hcount := countOf_congr hk
  exact
    { counts := (countsOk_congr hs).2 h.counts
      rate := hk.srate ▸ h.rate
      fmt := hk.fmt ▸ h.fmt
      chmode := hk.chmode ▸ h.chmode
      notes := fun n hn => by
        obtain ⟨hg, hend, hstart⟩ := h.notes n (hk.nnotes ▸ hn)
        exact ⟨genOk_congr hs hg, by rwa [endTime_congr hs], by rwa [startProduct_congr hs]⟩
      bufferFinite := by rw [bufferProduct_congr hs]; exact h.bufferFinite
      bufferFits := hlen ▸ h.bufferFits
      numbers := by rw [mixOf_congr hs]; exact h.numbers
      byteRate := by rw [hk.srate, hcount]; exact h.byteRate
      chunkSize := by rw [hlen, hcount]; exact h.chunkSize
      outFits := by rw [hlen, hcount]; exact h.outFits }

theorem mixBytes_congr (hk : KeepsInputs s t) (he : t.env.epoch = s.env.epoch) : mixBytes t = mixBytes s := by
  have hs := SameSong.of_keepsInputs hk he
  rw [mixBytes, countOf_congr hk, mixLen_congr hs, mixOf_congr hs, headerOf, hk.srate, mixBytes, headerOf]

/-- RENDER and the acknowledge after it keep what says whether a song renders. -/
theorem rendered_ack_keepsInputs (s : State) : KeepsInputs s (rendered s).ack := by constructor <;> rfl

/-- Settles O54: what `rendered` holds in TOTDUR, ACC and OUT is said by the inputs of the host, which it keeps. -/
theorem renderingAgainGivesTheSameBytes : Obligations.RenderingAgainGivesTheSameBytes := by
  intro s t u ht hc hu
  obtain ⟨hr, rfl⟩ := exec_render_code_lt_two ht hc
  have hk := rendered_ack_keepsInputs s
  have hs : SameSong s (rendered s).ack := .of_keepsInputs hk rfl
  rw [exec_render_renderable (hr.congr hk rfl)] at hu
  cases hu
  refine ⟨?_, mixOf_congr hs, mixBytes_congr hk rfl, latestEnd_congr hs⟩
  rw [rendered_code]
  split <;> decide

/-- A RENDER that reached the sink sets no FATAL (60_exceptions R202). -/
theorem rendered_fatal (s : State) : (rendered s).fatal = s.fatal := by
  unfold State.fatal rendered
  split <;> simp

/-- SER.FLUSH hands OUT to the sink and keeps it and ACC, whatever the answer (43_serializer R176). -/
theorem exec_serFlush_sends (s : State) : ∃ u, exec .serFlush s = .next u ∧ u.out = s.out ∧ u.acc = s.acc ∧
    u.env.sinkLog = s.env.sinkLog ++ [⟨s.out, nextAnswer s⟩] := by
  refine ⟨_, exec_eq _ s, ?_⟩
  rw [bodyOf, complete_not_fatal _ _ (serFlushOp_not_fatal s), serFlushOp_eq]
  exact ⟨rfl, rfl, rfl⟩

/-- Settles O55: `rendered` holds in OUT what it sent, and the acknowledge leaves OUT alone. -/
theorem flushRetriesAFailedRender : Obligations.FlushRetriesAFailedRender := by
  intro s t hf ht hc
  obtain ⟨-, rfl⟩ := exec_render_code_lt_two ht (by omega)
  obtain ⟨u, hu, hout, hacc, hlog⟩ := exec_serFlush_sends (rendered s).ack
  exact ⟨(rendered_fatal s).trans hf, ⟨mixBytes s, nextAnswer s⟩, rfl, rfl, u, hu, hout, hacc, _, hlog, rfl⟩

/-! ### The unit commands one after the other (44_render R192) -/

theorem Twin.trans (h : Twin s t) (k : Twin t u) : Twin s u := by
  obtain ⟨_, _, rfl⟩ := h
  obtain ⟨r, p, rfl⟩ := k
  exact ⟨r, p, rfl⟩

theorem Twin.diag (h : Twin s t) : t.diag = s.diag := by obtain ⟨_, _, rfl⟩ := h; rfl

/-- No body reads RESULT or the sequencer. -/
theorem bodyOf_twin (c : Config) (i : Instr) (h : Twin s t) : TwinEnd (bodyOf c i s) (bodyOf c i t) := by
  have hosc (wave) : TwinEnd (oscOp wave s) (oscOp wave t) := by
    obtain ⟨r, p, rfl⟩ := h
    exact .orRaise ⟨r, p, rfl⟩ fun _ => .endOk ⟨r, p, rfl⟩
  have hmerge (how) : TwinEnd (mixMergeOp c how s) (mixMergeOp c how t) := by
    obtain ⟨r, p, rfl⟩ := h
    exact mergeOp_twin c (Twin.enter ⟨r, p, rfl⟩ .mix) _ _ _ how
  cases i with
  | oscSine => exact hosc _
  | oscSquare => exact hosc _
  | oscSaw => exact hosc _
  | mixDur => exact mixDurOp_twin c h
  | mixAlloc => exact mixAllocOp_twin c h
  | mixGen n => exact mixGenOp_twin c h n
  | mixMergeAdd => exact hmerge _
  | mixMergeOvr => exact hmerge _
  | mixNote n => exact mixNoteOp_twin c h n
  | mixAll => exact mixAllOp_twin c h
  | qntS =>
    obtain ⟨r, p, rfl⟩ := h
    exact .orRaise ⟨r, p, rfl⟩ fun _ => .endOk ⟨r, p, rfl⟩
  | serBuild => exact serBuildOp_twin c h
  | serFlush => exact serFlushOp_twin h
  | render =>
    exact .andThen (.andThen (.andThen (.andThen (mixDurOp_twin c h) fun _ _ => mixAllocOp_twin c) fun _ _ =>
      mixAllOp_twin c) fun _ _ => serBuildOp_twin c) fun _ _ => serFlushOp_twin

@[simp] theorem State.ack_rv (s : State) : s.ack.rv = false := by simp [State.ack, State.rv]

/-- No body sets RV. -/
theorem bodyOf_rv (c : Config) (i : Instr) (h : s.rv = false) : (bodyOf c i s).state.rv = false := by
  rw [State.rv] at h ⊢
  rcases (bodyOf_inputs c i s).2 with hs | hs <;> simpa [hs] using h

/-- Unit commands, each ended OK and acknowledged, led to v where the same phases in one command end with e. -/
structure Reached (e : CmdEnd) (v : State) : Prop where
  ok : e.code = .ok
  twin : Twin e.state v
  ready : v.rv = false

/-- The next phase ends the one command as the unit command ends on its own, but for what earlier phases add to DV. -/
theorem Reached.next (h : Reached e v) (hx : exec i v = .next t) :
    t.result = resultWord (andThen e (bodyOf Config.this i)).code t.dv ∧
    (andThen e (bodyOf Config.this i)).wroteDiag = (e.wroteDiag || t.dv) ∧
    t.diag = (andThen e (bodyOf Config.this i)).state.diag := by
  rw [exec_eq] at hx
  cases hx
  obtain ⟨hcode, hdiag, htwin⟩ := bodyOf_twin Config.this i h.twin
  rw [andThen_of_ok h.ok, complete_result, complete_dv, complete_diag, hcode, hdiag]
  exact ⟨rfl, rfl, htwin.diag⟩

/-- Where that unit command ended OK and is acknowledged, its phase is one more of those done. -/
theorem Reached.ack (h : Reached e v) (hx : exec i v = .next t) (hc : t.code = 0) :
    Reached (andThen e (bodyOf Config.this i)) t.ack := by
  obtain ⟨hok, rfl⟩ := exec_code_ok hx hc
  obtain ⟨hcode, -, htwin⟩ := bodyOf_twin Config.this i h.twin
  rw [andThen_of_ok h.ok]
  exact ⟨hcode.symm.trans hok, htwin.trans (done_ack_twin _ _ (bodyOf_rv _ i h.ready)), State.ack_rv _⟩

/-- Where the next phase ends in no fatal fault, completion leaves what the unit command leaves, but for RESULT. -/
theorem Reached.complete_eq (h : Reached e v) (hx : exec i v = .next t)
    (hf : isFatal (bodyOf Config.this i v).code = false) :
    complete Config.this (andThen e (bodyOf Config.this i)) =
      { t with result := (complete Config.this (andThen e (bodyOf Config.this i))).result } := by
  rw [exec_eq] at hx
  cases hx
  obtain ⟨hcode, -, htwin⟩ := bodyOf_twin Config.this i h.twin
  obtain ⟨r, p, hstate⟩ := htwin
  rw [andThen_of_ok h.ok, complete_not_fatal _ _ hf, complete_not_fatal _ _ (hcode ▸ hf), hstate]

theorem code_of_result {code : ResultCode} {dv : Bool} (h : t.result = resultWord code dv) :
    t.code = (codeBits code).toNat := by rw [State.code, h, (resultWord_fields _ _).1]

/-- MIX.DUR, ended OK and acknowledged, is the first phase. -/
theorem reached_mixDur (hrv : s.rv = false) (hx : exec .mixDur s = .next t) (hc : t.code = 0) :
    Reached (mixDurOp Config.this s) t.ack ∧ (mixDurOp Config.this s).wroteDiag = false := by
  have hstart : Reached (endOk s) s := ⟨rfl, .refl s, hrv⟩
  have hnext := hstart.ack hx hc
  rw [andThen_endOk] at hnext
  obtain ⟨-, -, he⟩ := mixDurOp_code_ok hnext.ok
  exact ⟨hnext, by rw [he]; rfl⟩

/-- A body that wrote no DIAG completes with DV 0 and DIAG as before. -/
theorem exec_silent (hx : exec i s = .next t) (h : (bodyOf Config.this i s).wroteDiag = false) :
    t.dv = false ∧ t.diag = s.diag := by
  rw [exec_eq] at hx
  cases hx
  rw [complete_dv, complete_diag]
  exact ⟨h, bodyOf_diag i s h⟩

/-- RENDER is the phases before the flush, the flush, and one completion. -/
theorem exec_render_eq (s : State) : exec .render s =
    .next (complete Config.this (andThen (frontOp Config.this s) (bodyOf Config.this .serFlush))) := rfl

/-- Settles O52: the unit commands lead where the phases of RENDER lead, and DV is the one that MIX.ALL adds. -/
theorem renderAgreesWithTheUnitCommands : Obligations.RenderAgreesWithTheUnitCommands := by
  intro s s1 s2 s3 s4 s5 hrv hx1 hc1 hx2 hc2 hx3 hc3 hx4 hc4 hx5
  obtain ⟨h1, hd1⟩ := reached_mixDur hrv hx1 hc1
  have h2 := h1.ack hx2 hc2
  have h3 := h2.ack hx3 hc3
  have h4 : Reached (frontOp Config.this s) s4.ack := h3.ack hx4 hc4
  obtain ⟨hresult, hd5, -⟩ := h4.next hx5
  have hdv : (frontOp Config.this s).wroteDiag = (((false || s2.dv) || s3.dv) || s4.dv) := by
    rw [← hd1, ← (h1.next hx2).2.1, ← (h2.next hx3).2.1, ← (h3.next hx4).2.1]
    rfl
  rw [hdv, (exec_silent hx2 (mixAllocOp_silent _ _)).1, (exec_silent hx4 (serBuildOp_silent _)).1,
    (exec_silent hx5 (by rw [bodyOf, serFlushOp_eq])).1] at hd5
  refine ⟨_, exec_render_eq s, ?_, ?_, h4.complete_eq hx5 (serFlushOp_not_fatal _)⟩
  · rw [complete_code, code_of_result hresult]
  · rw [complete_dv, hd5]
    simp

/-! ### The first phase that faults (44_render R190) -/

theorem mixDurOp_status (c : Config) (s : State) : (mixDurOp c s).state.status = s.status := by
  rw [mixDurOp]
  cases totalDuration c s with
  | ok x => rfl
  | error r => exact raiseEnd_status _ r

/-- Where a phase before the flush faults, RENDER is completed with that fault, and nothing is sent. -/
theorem exec_render_fault (hfront : frontOp Config.this s = e) (hne : e.code ≠ .ok) :
    exec .render s = .next (complete Config.this e) ∧ isFatal e.code = true ∧ Keeps s e := by
  subst hfront
  refine ⟨?_, (frontOp_okOrFatal _ s).resolve_left hne, frontOp_keeps _ s⟩
  rw [exec_render_eq, andThen_of_fault hne]

/-- RENDER stopped by a phase before the flush ends in the fatal fault, with DIAG as the phase left it. -/
theorem exec_render_stops (hfront : frontOp Config.this s = e) (hne : e.code ≠ .ok) :
    ∃ t, exec .render s = .next t ∧ t.code = (codeBits e.code).toNat ∧ t.fatal = true ∧ t.diag = e.state.diag ∧
      t.env.sinkLog = s.env.sinkLog := by
  obtain ⟨hx, hf, hk⟩ := exec_render_fault hfront hne
  refine ⟨_, hx, complete_code _ _, ?_, complete_diag _ _, (hk.sink_unchanged _).1⟩
  rw [State.fatal, complete_status, statusAfter, if_pos hf, status_or_fatal_rv]
  simp

/-- RENDER stopped before any clamp leaves the flags as any fatal fault does. -/
theorem exec_render_stops_unclamped (hfront : frontOp Config.this s = e) (hne : e.code ≠ .ok)
    (hs : e.state.status = s.status) :
    ∃ t, exec .render s = .next t ∧ FatalEnd s t (resultWord e.code e.wroteDiag) e.state.diag := by
  obtain ⟨hx, hf, hk⟩ := exec_render_fault hfront hne
  exact ⟨_, hx, hk.fatalEnd hs hf _⟩

/-- A unit command that did not end OK: the same phase of RENDER faulted. -/
theorem Reached.fault (h : Reached e v) (hx : exec i v = .next t) (hc : t.code ≠ 0) :
    (andThen e (bodyOf Config.this i)).code ≠ .ok := by
  obtain ⟨hresult, -, -⟩ := h.next hx
  rwa [code_of_result hresult, Ne, codeBits_eq_zero] at hc

/-- Nothing runs after a part that faulted. -/
theorem andThen_andThen_of_fault (h : e.code ≠ .ok) (k l : State → CmdEnd) : andThen (andThen e k) l = e := by
  rw [andThen_of_fault h, andThen_of_fault h]

/-- Settles O53: an earlier phase that faults is all there is of the phases before the flush. -/
theorem renderStopsAtTheFirstFault : Obligations.RenderStopsAtTheFirstFault := by
  intro s s1 s2 s3 s4 hrv
  refine ⟨fun hx1 hc1 => ?_, fun hx1 hc1 hx2 hc2 => ?_, fun hx1 hc1 hx2 hc2 hx3 hc3 => ?_,
    fun hx1 hc1 hx2 hc2 hx3 hc3 hx4 hc4 => ?_⟩
  · rw [exec_eq] at hx1
    cases hx1
    rw [complete_code, Ne, codeBits_eq_zero] at hc1
    rw [complete_result, complete_diag]
    refine exec_render_stops_unclamped ?_ hc1 (mixDurOp_status _ s)
    have hne : (mixDurOp Config.this s).code ≠ .ok := hc1
    rw [frontOp, andThen_andThen_of_fault hne, andThen_of_fault hne]
    rfl
  all_goals obtain ⟨h1, hd1⟩ := reached_mixDur hrv hx1 hc1
  · have hne := h1.fault hx2 hc2
    obtain ⟨hresult, hdv, hdiag⟩ := h1.next hx2
    rw [hd1, Bool.false_or] at hdv
    rw [hresult, hdiag, ← hdv]
    refine exec_render_stops_unclamped (andThen_andThen_of_fault hne _ _) hne ?_
    rw [andThen_of_ok h1.ok]
    exact ((mixAllocOp_keeps _ _).silent (mixAllocOp_silent _ _)).2.trans (mixDurOp_status _ s)
  · have h2 := h1.ack hx2 hc2
    have hne := h2.fault hx3 hc3
    obtain ⟨hresult, -, hdiag⟩ := h2.next hx3
    rw [code_of_result hresult, hdiag]
    exact exec_render_stops (andThen_of_fault hne _) hne
  · have h3 := (h1.ack hx2 hc2).ack hx3 hc3
    have hne := h3.fault hx4 hc4
    obtain ⟨hresult, -, hdiag⟩ := h3.next hx4
    have hkept : s4.diag = s3.diag := (exec_silent hx4 (serBuildOp_silent _)).2
    rw [code_of_result hresult, ← hkept, hdiag]
    exact exec_render_stops rfl hne

end Sys2Proof.Machine

/-! SUPPORT. Completion and the idle block (60_exceptions R200, R203, R204, R221): which codes are fatal or name a
note in DIAG, and what a command makes of each flag of STATUS. -/

namespace Sys2Proof.Machine

variable {s t : State} {v w : Word} {i : Instr}

/-! ### The codes (60_exceptions R200) -/

/-- The codes of the fatal class are those from 2 on (60_exceptions R200 to R202). -/
theorem isFatal_eq_two_le (code : ResultCode) : isFatal code = decide (2 ≤ (codeBits code).toNat) := by
  cases code <;> decide

/-- The codes 2, 3 and 6 are those that come with a note. -/
theorem namesNote_of_mem {code : ResultCode} (h : (codeBits code).toNat ∈ [2, 3, 6]) : namesNote code = true := by
  revert h
  cases code <;> decide

/-! ### The flags (10_state R25) -/

/-- What completion adds to STATUS: RV and, with a fatal code, FATAL, but no other bit (60_exceptions R204). -/
theorem statusAfter_bits (v : Word) (code : ResultCode) :
    (statusAfter v code).getLsbD 2 = v.getLsbD 2 ∧ (statusAfter v code).getLsbD 3 = v.getLsbD 3 ∧
    (statusAfter v code).extractLsb' 4 28 = v.extractLsb' 4 28 := by
  rw [statusAfter]
  split <;> simp [flagFatal, flagRV, BitVec.extractLsb'_or]

/-- What a body leaves of STATUS (`bodyOf_inputs`): CLAMPED may be raised, and every other bit is as before. -/
theorem bits_of_clampedRaised (h : w = v ∨ w = v ||| 0x4) :
    w.getLsbD 1 = v.getLsbD 1 ∧ (v.getLsbD 2 = true → w.getLsbD 2 = true) ∧ w.getLsbD 3 = v.getLsbD 3 ∧
    w.extractLsb' 4 28 = v.extractLsb' 4 28 := by
  rcases h with rfl | rfl <;> simp [BitVec.extractLsb'_or]

/-- The flags after a command: FATAL set where it was set or the code is fatal, DISCARD and the reserved bits as before,
CLAMPED not cleared (60_exceptions R201, R204). -/
theorem exec_flags (h : exec i s = .next t) :
    t.fatal = (s.fatal || decide (2 ≤ t.code)) ∧ t.discard = s.discard ∧ (s.clamped = true → t.clamped = true) ∧
    t.status.extractLsb' 4 28 = s.status.extractLsb' 4 28 := by
  rw [exec_eq] at h
  cases h
  obtain ⟨hfatal, hclamped, hdiscard, hreserved⟩ := bits_of_clampedRaised (bodyOf_inputs Config.this i s).2
  obtain ⟨hclamped', hdiscard', hreserved'⟩ :=
    statusAfter_bits (bodyOf Config.this i s).state.status (bodyOf Config.this i s).code
  rw [complete_fatal_flag, complete_code, ← isFatal_eq_two_le, Bool.or_comm]
  simp only [State.discard, State.clamped, complete_status, hclamped', hdiscard', hreserved']
  exact ⟨congrArg (· || _) hfatal, hdiscard, hclamped, hreserved⟩

/-- Beside the code 0, DV tells of a clamp (41_mixer R131). -/
theorem exec_ok_clamped (h : exec i s = .next t) (hc : t.code = 0) (hd : t.dv = true) : t.clamped = true := by
  obtain ⟨-, hstatus, -⟩ := exec_ok_flags h hc
  rw [State.clamped, hstatus, if_pos hd]
  simp

/-! ### The obligations -/

/-- Settles O11: RESULT is `resultWord` of the body's end, the flags are `exec_flags`, and who wrote DIAG is said of the
bodies by `bodyOf_diag` and `bodyOf_named`. -/
theorem everyCommandCompletes : Obligations.EveryCommandCompletes := by
  intro i s
  have hx := exec_eq i s
  obtain ⟨hfatal, hdiscard, hclamped, hreserved⟩ := exec_flags hx
  refine ⟨_, hx, ?_, ?_, complete_rv _ _, rfl, hfatal, hdiscard, hclamped, hreserved, ?_, ?_, exec_ok_clamped hx⟩
  · rw [complete_code]
    exact codeBits_le _
  · rw [complete_result]
    exact resultWord_reserved _ _
  · rw [complete_dv, complete_diag]
    exact bodyOf_diag i s
  · rw [complete_code, complete_dv]
    exact fun h => bodyOf_named _ i s (namesNote_of_mem h)

/-- Settles O9: with an empty queue the step takes the idle branch (60_exceptions R221). -/
theorem idleBlockKeepsItsState : Obligations.IdleBlockKeepsItsState := by
  intro s h
  rw [step, hostStep, h]

end Sys2Proof.Machine
